-- ==== Sys2Proof/Word.lean ====
section
/-! DEFINITION. The word types of HUFFCORE: every width the spec gives a value (spec/00_scope.md R5 to R10). -/

namespace Sys2Proof

/-- One storage unit of the streams (R18). -/
abbrev Byte := BitVec 8

/-- A word of the register port, a command word, a FREQ entry (R20, R8: FREQ_W = 32). -/
abbrev Word := BitVec 32

/-- A byte address of the register port (R60). -/
abbrev Addr := BitVec 16

/-- A symbol (R6: SYMBOL_W = 8). -/
abbrev Sym := BitVec 8

/-- An index into the NODE arena (R41: 9 bits). -/
abbrev NodeIdx := BitVec 9

/-- A node's frequency (R9: NF_W = FREQ_W + 8 = 40). -/
abbrev Frq := BitVec 40

/-- The number a code denotes, val(code) (R14, R44: 256 bits). -/
abbrev CodeVal := BitVec 256

end Sys2Proof
end

