-- ==== Sys2Proof/Syntax.lean ====
section
/-! DEFINITION. The commands of HUFFCORE: one constructor per row of spec/opcode_table.json (spec/30_encoding.md R92).
No command has an operand field (R91), so no constructor has an argument. -/

namespace Sys2Proof

/-- The nine legal commands (R92). -/
inductive Instr where
  /-- No operation (spec/40_control.md R107). -/
  | nop
  /-- Soft reset (spec/40_control.md R105). -/
  | srst
  /-- Acknowledge (spec/40_control.md R106). -/
  | ack
  /-- Frequency clear (spec/40_control.md R112). -/
  | fclr
  /-- Tree builder (spec/41_tree_builder.md R130). -/
  | build
  /-- Code-table derivator (spec/42_code_table.md R150). -/
  | derive
  /-- Bitstream compressor (spec/43_compressor.md R165). -/
  | compress
  /-- Bitstream expander, bounded by LEN (spec/44_expander.md R191). -/
  | expand
  /-- Bitstream expander, to exhaustion (spec/44_expander.md R195). -/
  | expandx
deriving DecidableEq, Repr

end Sys2Proof
end

