-- ==== Sys2Proof/WellFormed.lean ====
section
/-! DEFINITION. What is well formed: a command (every one is: R91 gives it no field that could be wrong), and an access of
the register port (spec/20_memory.md R61: a whole 32-bit word at a multiple of 4). -/

namespace Sys2Proof

/-- R91, R92: a command has no operand, so each of the nine is well formed as it stands. -/
def Instr.wellFormed : Instr → Bool
  | .nop | .srst | .ack | .fclr | .build | .derive | .compress | .expand | .expandx => true

/-- R61: the port carries an access of `size` bytes at `addr` exactly when it is a whole aligned word. -/
def accessOk (addr : Addr) (size : Nat) : Bool :=
  addr.toNat % 4 == 0 && size == 4

end Sys2Proof
end

