-- ==== Sys2Proof/Decode.lean ====
section
/-! DEFINITION. The decoder of command words (spec/30_encoding.md R93), total on all 2^32 words, and the encoder (R92). -/

namespace Sys2Proof

/-- What `decode` answers (R93): a command, or ILLEGAL, for the reason R94 gives. -/
inductive Decoded where
  /-- One of the nine commands of R92. -/
  | command (i : Instr)
  /-- ILLEGAL: a reserved bit of 31:8 is set (R90, R94). -/
  | illegalReservedBits
  /-- ILLEGAL: bits 31:8 are zero and OPC is not in the map (R94). -/
  | illegalOpcode
deriving DecidableEq, Repr

/-- R92, column OPC: the command of an opcode. -/
def opcodeCommand (opc : BitVec 8) : Option Instr :=
  if opc = 0x00#8 then some .nop
  else if opc = 0x01#8 then some .srst
  else if opc = 0x02#8 then some .ack
  else if opc = 0x03#8 then some .fclr
  else if opc = 0x10#8 then some .build
  else if opc = 0x11#8 then some .derive
  else if opc = 0x20#8 then some .compress
  else if opc = 0x30#8 then some .expand
  else if opc = 0x31#8 then some .expandx
  else none

/-- R93: the decoder of a command word. -/
def decode (w : Word) : Decoded :=
  if w.extractLsb' 8 24 ≠ 0#24 then .illegalReservedBits
  else
    match opcodeCommand (w.extractLsb' 0 8) with
    | some i => .command i
    | none => .illegalOpcode

/-- R92, column OPC: the opcode of a command. -/
def opcode : Instr → BitVec 8
  | .nop => 0x00#8
  | .srst => 0x01#8
  | .ack => 0x02#8
  | .fclr => 0x03#8
  | .build => 0x10#8
  | .derive => 0x11#8
  | .compress => 0x20#8
  | .expand => 0x30#8
  | .expandx => 0x31#8

/-- R90, R92: the word of a command, RSV = 0 above OPC. -/
def encode (i : Instr) : Word := 0#24 ++ opcode i

/-- The host's question: the command the decoder reads from the table's bits `w`. The table's numbering is that of the command
word (R90: bit 0 is the least significant bit of the one word), and a command is one 32-bit word; bits from `nbits` up are zero. -/
def decodeTableWord (nbits w : Nat) : Option Instr :=
  if nbits ≤ 32 then
    match decode (BitVec.ofNat 32 (w % 2 ^ nbits)) with
    | .command i => some i
    | .illegalReservedBits => none
    | .illegalOpcode => none
  else none

end Sys2Proof
end

