-- ==== Sys2Proof/Config.lean ====
section
/-! DEFINITION. What is fixed when the block is built (spec/10_state.md R53), and the free values of the model: constants
without a body, of which no proof can see a value. -/

namespace Sys2Proof.Config

/-- R21: the constant the ID register reads. -/
def idValue : Word := 0x48554646#32

/-- R138: the two readings of "first position". -/
inductive Place where
  /-- The new node takes the lower of the two forest positions. -/
  | lowerPos
  /-- The new node takes the position of the first minimum. -/
  | firstMin
deriving DecidableEq, Repr

/-- R138, R53: HUFFCORE fixes PLACE to LOWER_POS (log 14). -/
def place : Place := .lowerPos

/-- How many bytes above one the IN port buffers: an unknown number (log 6). -/
opaque inDepthAboveOne : Nat

/-- R11: IN_DEPTH, an open parameter of at least 1 (log 6). -/
def inDepth : Nat := inDepthAboveOne + 1

/-- R251: what a read returns that the spec leaves free, one draw for each value of the counter (log 7). -/
opaque freeRead : Nat → Word

/-- R83: whether the observer takes a TRACE event, one draw for each value of the counter (log 9). -/
opaque traceTaken : Nat → Bool

end Sys2Proof.Config
end

