-- ==== Sys2Proof/Machine/State.lean ====
section
/-! DEFINITION. The state of HUFFCORE as plain data (spec/10_state.md), its value after reset
(spec/70_reset_and_hazards.md R240), and the reasons a step can stop. -/

namespace Sys2Proof.Machine

/-- R41, field KIND: 0 = Leaf, 1 = Internal. -/
inductive NodeKind where
  | leaf
  | internal
deriving DecidableEq, Repr

/-- R41: one entry of the NODE arena. -/
structure Node where
  kind : NodeKind
  sym : Sym
  frq : Frq
  left : NodeIdx
  right : NodeIdx
deriving DecidableEq, Repr

/-- R41: an entry that is not allocated has every field 0. -/
def Node.zero : Node := ⟨.leaf, 0#8, 0#40, 0#9, 0#9⟩

/-- R44: one entry of the code table. -/
structure Code where
  clen : BitVec 8
  cword : CodeVal
deriving DecidableEq, Repr

/-- R44: the entry of a symbol without a code. -/
def Code.zero : Code := ⟨0#8, 0#256⟩

/-- R23: the eight fields of STATUS. -/
structure Status where
  busy : Bool
  done : Bool
  err : Bool
  ovr : Bool
  tv : Bool
  cv : Bool
  partialWalk : Bool
  inwait : Bool
deriving DecidableEq, Repr

/-- R210: the error codes; 0x08..0xFF are never produced. -/
inductive ErrCode where
  | none
  | illegalCmd
  | emptyInput
  | unknownSymbol
  | corruptTree
  | noTree
  | noCode
  | truncated
deriving DecidableEq, Repr

/-- R33: the two bits of IE. -/
structure IrqEnable where
  doneIe : Bool
  errIe : Bool
deriving DecidableEq, Repr

/-- R47: the bit packer. -/
structure Packer where
  acc : Byte
  nacc : BitVec 3
deriving DecidableEq, Repr

/-- R48: the bit reader. -/
structure BitReader where
  rbyte : Byte
  rbits : BitVec 4
deriving DecidableEq, Repr

/-- R49, R185: the walk state of EXPAND and EXPANDX. -/
structure Walk where
  cur : NodeIdx
  depth : BitVec 8
  emitted : Word
  limit : Word
deriving DecidableEq, Repr

/-- R50: the IN port, INBUF with its head first and CLOSED. -/
structure InPort where
  buf : List Byte
  closed : Bool
deriving DecidableEq, Repr

/-- R152, R49: a node that DERIVE has still to visit, with the length and the value of the bit string that leads to it. -/
structure Visit where
  node : NodeIdx
  len : BitVec 8
  val : CodeVal
deriving DecidableEq, Repr

/-- R82: one event of the TRACE port. -/
structure MergeEvent where
  step : Nat
  new : NodeIdx
  left : NodeIdx
  right : NodeIdx
  frq : Frq
  pos : Nat
  flen : Nat
deriving DecidableEq, Repr

/-- Where the engine stands inside a command's body: what its next micro-step does (R245, log 3, log 12). -/
inductive Point where
  /-- Accepted; the body has not begun (R101). -/
  | start
  /-- BUILD: the head of the loop `while FLEN > 1` (R141). -/
  | buildLoop
  /-- DERIVE: about to visit this node (R152). -/
  | deriveVisit (v : Visit)
  /-- DERIVE: every leaf is recorded, CV is still 0 (R150). -/
  | deriveDone
  /-- COMPRESS: the head of the loop, an IN read (R165, R170). -/
  | compressRead
  /-- COMPRESS: about to pack bit `i` of the code of `b` (R165). -/
  | compressPack (b : Byte) (i : BitVec 8)
  /-- COMPRESS: packing bit `i` of the code of `b` filled a byte, which is offered on OUT (R80). -/
  | compressPackOut (b : Byte) (i : BitVec 8)
  /-- COMPRESS: IN is exhausted, about to flush (R168). -/
  | compressFlush
  /-- COMPRESS: the padded last byte is offered on OUT (R80). -/
  | compressFlushOut
  /-- The head of the walk's loop (R185). -/
  | walkTop
  /-- The walk is at its IN read (R185). -/
  | walkRead
  /-- A leaf's symbol is offered on OUT (R187). -/
  | walkOut
  /-- About to raise an error, with which the body ends; the completion follows (R214). -/
  | raising (e : ErrCode)
  /-- The body has reached its end; about to take the completion step (R102). -/
  | complete
deriving DecidableEq, Repr

/-- R60, R98, R248: what the host can do; the last two are waits of a host program (R70, R97; log 20). -/
inductive HostAct where
  /-- MemRead(addr, size). -/
  | read (addr : Addr) (size : Nat)
  /-- MemWrite(addr, size, v). -/
  | write (addr : Addr) (size : Nat) (v : Word)
  /-- Push(b) on IN (R76). -/
  | push (b : Byte)
  /-- Close on IN (R76). -/
  | close
  /-- The sink accepts the OUT byte that is offered (R79). -/
  | accept
  /-- From now on the sink accepts every byte at once (R96), or only at an `accept` (log 20). -/
  | sinkMode (ready : Bool)
  /-- The hardware reset input is asserted and released (R242, log 16). -/
  | hardReset
  /-- The host waits until BUSY = 0 (R70). -/
  | waitIdle
  /-- The host waits until IRQ = 1 (R70). -/
  | waitIrq
deriving DecidableEq, Repr

/-- R244: whose turn it is. -/
inductive Move where
  /-- The engine takes one micro-step, if one is enabled. -/
  | engine
  /-- The host acts. -/
  | host (a : HostAct)
deriving DecidableEq, Repr

/-- What a port address names (R20, R62). -/
inductive PortReg where
  | id
  | cmd
  | status
  | errcode
  | ie
  | len
  | bytecnt
  | bitcntLo
  | bitcntHi
  | nleaf
  | nnode
  | root
  | freq (s : Sym)
  | node (n : NodeIdx) (w : BitVec 2)
  | code (s : Sym) (w : BitVec 4)
  | reserved
deriving DecidableEq, Repr

/-- Everything the spec gives the block (spec/10_state.md R20 to R52), then the host agent's side and the free values'
counter, which are the model's own (log 1, log 7, log 17). -/
structure State where
  /-- STATUS (R23). -/
  status : Status
  /-- ERRCODE (R32). -/
  errcode : ErrCode
  /-- IE (R33). -/
  ie : IrqEnable
  /-- LEN (R34). -/
  len : Word
  /-- BYTECNT (R35). -/
  bytecnt : Word
  /-- BITCNT (R36), both halves. -/
  bitcnt : BitVec 64
  /-- NLEAF (R37). -/
  nleaf : BitVec 9
  /-- NNODE (R38). -/
  nnode : BitVec 10
  /-- ROOT (R39). -/
  root : NodeIdx
  /-- FREQ[0..255] (R40). -/
  freq : Vector Word 256
  /-- NODE[0..510] (R41). -/
  node : Vector Node 511
  /-- CODE[0..255] (R44). -/
  code : Vector Code 256
  /-- The forest F; FLEN is its length (R46). -/
  forest : List NodeIdx
  /-- ACC and NACC (R47). -/
  packer : Packer
  /-- RBYTE and RBITS (R48). -/
  reader : BitReader
  /-- CUR, DEPTH, EMITTED (R49) and LIMIT (R185). -/
  walk : Walk
  /-- DERIVE's traversal stack (R49). -/
  stack : List Visit
  /-- The latched command (R22) and the engine's place in its body; none while the engine is idle. -/
  engine : Option (Instr × Point)
  /-- INBUF and CLOSED (R50). -/
  inPort : InPort
  /-- OUTPEND (R51). -/
  outPend : Option Byte
  /-- The moves still to come (log 1). -/
  agenda : List Move
  /-- The sink accepts every offered byte at once, without an `accept` of its own (R96, log 20). -/
  sinkReady : Bool
  /-- The bytes the OUT sink has accepted, oldest first (R67). -/
  sink : List Byte
  /-- The TRACE events the engine has sent, oldest first (R82). -/
  traceSent : List MergeEvent
  /-- The TRACE events the observer took, oldest first (R83, log 9). -/
  traceSeen : List MergeEvent
  /-- What the host's reads returned, oldest first (R111). -/
  readLog : List (Addr × Word)
  /-- The counter the free values are applied to (log 7). -/
  draws : Nat
deriving DecidableEq, Repr

/-- R240: the state after reset. The hidden working registers, which R240 leaves unspecified, hold zero (log 4); the host
has done nothing and has no move planned (log 1, log 17). -/
def State.reset : State where
  status := ⟨false, false, false, false, false, false, false, false⟩
  errcode := .none
  ie := ⟨false, false⟩
  len := 0#32
  bytecnt := 0#32
  bitcnt := 0#64
  nleaf := 0#9
  nnode := 0#10
  root := 0#9
  freq := Vector.replicate 256 0#32
  node := Vector.replicate 511 Node.zero
  code := Vector.replicate 256 Code.zero
  forest := []
  packer := ⟨0#8, 0#3⟩
  reader := ⟨0#8, 0#4⟩
  walk := ⟨0#9, 0#8, 0#32, 0#32⟩
  stack := []
  engine := none
  inPort := ⟨[], false⟩
  outPend := none
  agenda := []
  sinkReady := false
  sink := []
  traceSent := []
  traceSeen := []
  readLog := []
  draws := 0

/-- The reasons a step stops with a fault. There is none: an error of R210 ends the running COMMAND and is recorded in STATUS
and ERRCODE (R214), and a hold of R247 leaves the machine where it is. Nobody raises a fault; safe (log 18). -/
inductive Fault where
deriving DecidableEq, Repr

/-- The reasons a step is given no meaning. -/
inductive Refusal where
  /-- Raised by `exec` for a command without a meaning. No arm of `exec` raises it; safe. -/
  | notModelled (mnemonic : String)
  /-- Raised by `turn` for a host access that is not a whole aligned word. R61: a model "must refuse the transaction: give it no
  meaning, neither aligning it nor faulting it". Safe (log 15). -/
  | portAccess
deriving DecidableEq, Repr

/-- What the schedule makes of the next move: a command word the host writes to CMD, with the state it is written in, or
an outcome that needs no command. -/
inductive Turn where
  | issue (w : Word) (s : State)
  | settled (o : Host.Outcome State Fault Refusal)
deriving Repr

end Sys2Proof.Machine
end

