-- ==== Sys2Proof/Machine/Operands.lean ====
section
/-! DEFINITION. The operands of the commands (spec/30_encoding.md R91): the table entries a body reads and writes, the bits of a
code, and the bit a reader takes from a byte. -/

namespace Sys2Proof.Machine

/-- R40: FREQ[x]. -/
def freqAt (freq : Vector Word 256) (x : Sym) : Word := freq[x.toNat]'x.isLt

/-- R108: FREQ with the entry of `x` replaced. -/
def setFreq (freq : Vector Word 256) (x : Sym) (v : Word) : Vector Word 256 := freq.set x.toNat v x.isLt

/-- R41: NODE[n]. Index 511 is never allocated and has every field 0 (R42, log 21). -/
def nodeAt (node : Vector Node 511) (n : NodeIdx) : Node := node[n.toNat]?.getD Node.zero

/-- R41: NODE with entry `n` replaced; there is no entry 511 to replace (R74, log 21). -/
def setNode (node : Vector Node 511) (n : NodeIdx) (e : Node) : Vector Node 511 := node.setIfInBounds n.toNat e

/-- R44: CODE[x]. -/
def codeAt (code : Vector Code 256) (x : Sym) : Code := code[x.toNat]'x.isLt

/-- R152: CODE with the entry of `x` replaced. -/
def setCode (code : Vector Code 256) (x : Sym) (e : Code) : Vector Code 256 := code.set x.toNat e x.isLt

/-- R131: every NODE entry all-zero. -/
def clearedNodes : Vector Node 511 := Vector.replicate 511 Node.zero

/-- R131, R150: every CODE entry without a code. -/
def clearedCodes : Vector Code 256 := Vector.replicate 256 Code.zero

/-- R112: every FREQ entry 0. -/
def clearedFreqs : Vector Word 256 := Vector.replicate 256 0#32

/-- R44: bit c[i] of a code is CWORD[CLEN-1-i]. -/
def codeBit (c : Code) (i : Nat) : Bool := c.cword.getLsbD (c.clen.toNat - 1 - i)

/-- R14, R44: the code string c[0] c[1] ... of an entry; empty where the symbol has no code. -/
def codeBits (c : Code) : List Bool := (List.range c.clen.toNat).map (codeBit c)

/-- R78: the bit of RBYTE that is taken once RBITS has been decremented to `k`. -/
def readerBit (rbyte : Byte) (k : BitVec 4) : Bool := rbyte.getLsbD k.toNat

/-- R80: ACC with the bit `b` shifted in at bit 0. -/
def shiftIn (acc : Byte) (b : Bool) : Byte := acc.extractLsb' 0 7 ++ BitVec.ofBool b

/-- R188: the child a bit selects: 0 the left one, any other value the right one. -/
def childOf (e : Node) (bit : Bool) : NodeIdx := if bit then e.right else e.left

end Sys2Proof.Machine
end

