-- ==== Sys2Proof/Machine/Flags.lean ====
section
/-! DEFINITION. The words of STATUS, ERRCODE and IE, the IRQ line, and when STATUS.INWAIT is 1
(spec/10_state.md R23 to R33 and R52). -/

namespace Sys2Proof.Machine

/-- R210: the code of an error, as ERRCODE[7:0] holds it. -/
def ErrCode.bits : ErrCode → BitVec 8
  | .none => 0x00#8
  | .illegalCmd => 0x01#8
  | .emptyInput => 0x02#8
  | .unknownSymbol => 0x03#8
  | .corruptTree => 0x04#8
  | .noTree => 0x05#8
  | .noCode => 0x06#8
  | .truncated => 0x07#8

/-- R23: the word STATUS reads, BUSY at bit 0 up to INWAIT at bit 7, bits 31:8 zero. -/
def statusWord (st : Status) : Word :=
  0#24 ++ BitVec.ofBool st.inwait ++ BitVec.ofBool st.partialWalk ++ BitVec.ofBool st.cv ++ BitVec.ofBool st.tv
    ++ BitVec.ofBool st.ovr ++ BitVec.ofBool st.err ++ BitVec.ofBool st.done ++ BitVec.ofBool st.busy

/-- R32: the word ERRCODE reads. -/
def errcodeWord (e : ErrCode) : Word := 0#24 ++ e.bits

/-- R33, R110: the word IE reads, DONE_IE at bit 0 and ERR_IE at bit 1. -/
def ieWord (ie : IrqEnable) : Word := 0#30 ++ BitVec.ofBool ie.errIe ++ BitVec.ofBool ie.doneIe

/-- R110: IE as a write of `v` leaves it. -/
def ieOf (v : Word) : IrqEnable := ⟨v.getLsbD 0, v.getLsbD 1⟩

/-- R52, R217: the IRQ line. -/
def irq (s : State) : Bool := (s.status.done && s.ie.doneIe) || (s.status.err && s.ie.errIe)

/-- R247: the places of a body at which the engine reads IN (InExhausted, InBitsExhausted, InByte); the walk reads IN only when
the bit reader is empty (R78). -/
def readsIn (p : Point) (r : BitReader) : Bool :=
  match p with
  | .compressRead => true
  | .walkRead => r.rbits == 0#4
  | .start | .buildLoop | .deriveVisit _ | .deriveDone | .compressPack _ _ | .compressPackOut _ _ | .compressFlush
  | .compressFlushOut | .walkTop | .walkOut | .raising _ | .complete => false

/-- R31, R76: the engine at `p` is held at an IN read: INBUF is empty and IN is open. -/
def heldAtIn (p : Point) (r : BitReader) (i : InPort) : Bool := readsIn p r && i.buf.isEmpty && !i.closed

end Sys2Proof.Machine
end

