-- ==== Sys2Proof/Machine/Ops.lean ====
section
/-! DEFINITION. The operations the commands share: the command lifecycle (spec/40_control.md R100 to R104), taking an error and
acknowledging it (spec/60_exceptions.md R214, R215), reset (spec/70_reset_and_hazards.md R240), the session end and the
stream ports (spec/20_memory.md R76 to R82). -/

namespace Sys2Proof.Machine

/-! ## The engine's place in a body -/

/-- The engine goes on at `p` in the body of `c`. INWAIT follows R31: it is 1 exactly when the engine is now held at an IN read
(log 10). -/
def goTo (c : Instr) (p : Point) (s : State) : State :=
  { s with engine := some (c, p), status.inwait := heldAtIn p s.reader s.inPort }

/-! ## The command lifecycle -/

/-- R100, R104: a host write that is ignored because BUSY = 1. -/
def ignoreWrite (s : State) : State := { s with status.ovr := true }

/-- R101: acceptance, as one step; the engine then runs the body of `c`. -/
def acceptCommand (c : Instr) (s : State) : State :=
  { s with status.busy := true, status.done := false, status.inwait := false, engine := some (c, .start) }

/-- R100, R101: a command other than SRST and ACK written to CMD. -/
def offerCommand (c : Instr) (s : State) : State :=
  if s.status.busy then ignoreWrite s else acceptCommand c s

/-- R102: the commands whose completion ends the IN session. -/
def endsSession : Instr → Bool
  | .compress | .expand | .expandx => true
  | .nop | .srst | .ack | .fclr | .build | .derive => false

/-- R81: the session end. -/
def sessionEnd (s : State) : State :=
  { s with inPort := ⟨[], false⟩, reader.rbits := 0#4, packer := ⟨0#8, 0#3⟩ }

/-- R102: the completion step of `c`. -/
def completeCommand (c : Instr) (s : State) : State :=
  let t := if endsSession c then sessionEnd s else s
  { t with status.inwait := false, status.busy := false, status.done := true, engine := none }

/-! ## Error entry and return -/

/-- R214: what `raise Error(code)` records. The first error wins, ERR is set; nothing is saved and nothing is rolled back. -/
def raiseError (e : ErrCode) (s : State) : State :=
  { s with errcode := if s.status.err then s.errcode else e, status.err := true }

/-- R214, R245: the micro-step in which the running command `c` raises an error. It ends the body; the completion of R102 follows. -/
def failCommand (c : Instr) (e : ErrCode) (s : State) : State := goTo c .complete (raiseError e s)

/-- R106, R215: the error return, which is the effect of ACK: DONE, ERR, OVR and ERRCODE are cleared, nothing is restored. -/
def acknowledge (s : State) : State :=
  { s with status.done := false, status.err := false, status.ovr := false, errcode := .none }

/-- R103: an illegal word at BUSY = 0, as one step: DONE falls, ILLEGAL_CMD is raised, DONE rises (log 25). -/
def rejectIllegal (s : State) : State :=
  let t := raiseError .illegalCmd { s with status.done := false }
  { t with status.done := true }

/-- R100, R103: an illegal word written to CMD. -/
def offerIllegal (s : State) : State :=
  if s.status.busy then ignoreWrite s else rejectIllegal s

/-! ## Reset -/

/-- R105, R240: the reset state in every register, table, hidden register and port. The bytes the sink accepted, the TRACE events
sent and what the host has read stay; so do the host's plans and the free values' counter (log 17). -/
def resetBlock (s : State) : State :=
  { State.reset with
    agenda := s.agenda
    sinkReady := s.sinkReady
    sink := s.sink
    traceSent := s.traceSent
    traceSeen := s.traceSeen
    readLog := s.readLog
    draws := s.draws }

/-! ## The stream ports -/

/-- R76: whether the port accepts a Push: IN is open and INBUF holds fewer than IN_DEPTH bytes. -/
def canPush (s : State) : Bool := !s.inPort.closed && decide (s.inPort.buf.length < Config.inDepth)

/-- R76: Push(b), accepted. A byte's arrival ends INWAIT (R23). -/
def pushByte (b : Byte) (s : State) : State :=
  { s with inPort.buf := s.inPort.buf ++ [b], status.inwait := false }

/-- R76: Close. It ends INWAIT (R23). -/
def closeIn (s : State) : State :=
  { s with inPort.closed := true, status.inwait := false }

/-- R79: the engine offers a byte on OUT and holds until the sink accepts it (log 19). -/
def offerOut (v : Byte) (s : State) : State := { s with outPend := some v }

/-- R79, R67: the sink accepts the byte `v` that is offered. -/
def acceptOut (v : Byte) (s : State) : State := { s with outPend := none, sink := s.sink ++ [v] }

/-- R82, R83: the engine sends an event. The observer takes it or loses it, a free choice (log 9). -/
def sendTrace (ev : MergeEvent) (s : State) : State :=
  { s with
    traceSent := s.traceSent ++ [ev]
    traceSeen := if Config.traceTaken s.draws then s.traceSeen ++ [ev] else s.traceSeen
    draws := s.draws + 1 }

end Sys2Proof.Machine
end

