-- ==== Sys2Proof/Machine/Build.lean ====
section
/-! DEFINITION. BUILD, the tree builder (spec/41_tree_builder.md R130 to R141). Its micro-steps: the invalidation and the leaf
scan, then one merge with its TRACE event at a time, then the root (R245, log 3). -/

namespace Sys2Proof.Machine

/-- BUILD (R130): accepted under R101, or ignored while BUSY = 1 (R100). -/
def execBuild (s : State) : Host.Outcome State Fault Refusal := .next (offerCommand .build s)

/-! ## The leaves (R132) -/

/-- R132: the symbols with a count above 0, in ascending order. -/
def presentSymbols (freq : Vector Word 256) : List Sym :=
  ((List.range 256).map (BitVec.ofNat 8)).filter fun x => decide (0#32 < freqAt freq x)

/-- R132: the Leaf of a symbol, with FRQ = zext_40(FREQ[x]). -/
def leafOf (freq : Vector Word 256) (x : Sym) : Node := ⟨.leaf, x, (freqAt freq x).setWidth 40, 0#9, 0#9⟩

/-- The arena that holds `l` from entry 0 on, and all-zero entries after it. -/
def arenaOf (l : List Node) : Vector Node 511 :=
  ⟨((l ++ List.replicate 511 Node.zero).take 511).toArray, by
    rw [List.size_toArray, List.length_take, List.length_append, List.length_replicate]; omega⟩

/-- R132: F = [0, 1, ..., L-1]. -/
def initialForest (l : Nat) : List NodeIdx := (List.range l).map (BitVec.ofNat 9)

/-- R131 to R133: BUILD up to its loop: invalidate, create the leaves, and raise EMPTY_INPUT if there is none. -/
def buildStart (s : State) : State :=
  let syms := presentSymbols s.freq
  let t := { s with
    status.tv := false
    status.cv := false
    code := clearedCodes
    root := 0#9
    node := arenaOf (syms.map (leafOf s.freq))
    nleaf := BitVec.ofNat 9 syms.length
    nnode := BitVec.ofNat 10 syms.length
    forest := initialForest syms.length }
  if syms.isEmpty then goTo .build (.raising .emptyInput) t else goTo .build .buildLoop t

/-! ## The merge (R136 to R138) -/

/-- R136: the scan from position `j` on, with the candidates `i1` and `i2` and their frequencies `f1` and `f2`. Every comparison
is strict. -/
def selectFrom : List Frq → Nat → Nat → Frq → Nat → Frq → Nat × Nat
  | [], _, i1, _, i2, _ => (i1, i2)
  | f :: rest, j, i1, f1, i2, f2 =>
    if f < f1 then selectFrom rest (j + 1) j f i1 f1
    else if f < f2 then selectFrom rest (j + 1) i1 f1 j f
    else selectFrom rest (j + 1) i1 f1 i2 f2

/-- R136: the positions of the first and the second minimum of a forest's frequencies. It is called only with two or more. -/
def select : List Frq → Nat × Nat
  | f0 :: f1 :: rest => if f1 < f0 then selectFrom rest 2 1 f1 0 f0 else selectFrom rest 2 0 f0 1 f1
  | [_] | [] => (0, 1)

/-- R137: the children of a merge of `a`, the first minimum, and `b`, as (left, right): the strictly smaller frequency goes
right; of two equal ones the first met goes left. -/
def placeChildren (node : Vector Node 511) (a b : NodeIdx) : NodeIdx × NodeIdx :=
  if (nodeAt node a).frq < (nodeAt node b).frq then (b, a) else (a, b)

/-- R138: the forest after a merge, and the position the new node `n` took, as the TRACE event gives it (R82). With FIRST_MIN, which
`Config.place` does not select, the spec gives no TRACE position; DESIGN CHOICE: the one after the removal (log 28). -/
def replaceMerged (pl : Config.Place) (f : List NodeIdx) (i1 i2 : Nat) (n : NodeIdx) : List NodeIdx × Nat :=
  match pl with
  | .lowerPos => ((f.set (min i1 i2) n).eraseIdx (max i1 i2), min i1 i2)
  | .firstMin => ((f.set i1 n).eraseIdx i2, if i2 < i1 then i1 - 1 else i1)

/-- R136 to R139: one merge, with its TRACE event (R82). The next free index n is NNODE, and k = n - L (log 12). -/
def mergeStep (s : State) : State :=
  let (i1, i2) := select (s.forest.map fun m => (nodeAt s.node m).frq)
  let a := s.forest.getD i1 0#9
  let b := s.forest.getD i2 0#9
  let n := s.nnode.setWidth 9
  let (l, r) := placeChildren s.node a b
  let e : Node := ⟨.internal, 0#8, (nodeAt s.node a).frq + (nodeAt s.node b).frq, l, r⟩
  let (f, p) := replaceMerged Config.place s.forest i1 i2 n
  sendTrace
    { step := s.nnode.toNat - s.nleaf.toNat, new := n, left := l, right := r, frq := e.frq, pos := p, flen := f.length }
    { s with node := setNode s.node n e, nnode := s.nnode + 1#10, forest := f }

/-- R134, R140, R135: the sole remaining node is the root, and TV rises last. -/
def finishTree (s : State) : State := { s with root := s.forest.headD 0#9, status.tv := true }

/-- R141: the loop `while FLEN > 1` of BUILD, one pass a micro-step, and what follows it. -/
def buildLoop (c : Instr) (s : State) : State :=
  if 1 < s.forest.length then goTo c .buildLoop (mergeStep s) else goTo c .complete (finishTree s)

end Sys2Proof.Machine
end

