-- ==== Sys2Proof/Machine/Compress.lean ====
section
/-! DEFINITION. COMPRESS, the bitstream compressor (spec/43_compressor.md R165 to R168), with the bit packer of
spec/20_memory.md R80. Each byte taken, each bit packed and each byte offered on OUT is one micro-step (R245). -/

namespace Sys2Proof.Machine

/-- COMPRESS (R165): accepted under R101, or ignored while BUSY = 1 (R100). -/
def execCompress (s : State) : Host.Outcome State Fault Refusal := .next (offerCommand .compress s)

/-- R165, R166: COMPRESS up to its loop. Without a code table it raises NO_CODE and changes nothing. -/
def compressStart (s : State) : State :=
  if s.status.cv then
    goTo .compress .compressRead { s with bytecnt := 0#32, bitcnt := 0#64, packer := ⟨0#8, 0#3⟩ }
  else goTo .compress (.raising .noCode) s

/-- R165, R167, R170: the head of the loop. The engine is held while INBUF is empty and IN is open; at exhaustion it flushes; a
byte is taken and counted, and raises UNKNOWN_SYMBOL if it has no code. -/
def compressRead (c : Instr) (s : State) : Option State :=
  match s.inPort.buf with
  | [] => if s.inPort.closed then some (goTo c .compressFlush s) else none
  | b :: rest =>
    let t := { s with inPort.buf := rest, bytecnt := s.bytecnt + 1#32 }
    some (if (codeAt s.code b).clen = 0#8 then goTo c (.raising .unknownSymbol) t else goTo c (.compressPack b 0#8) t)

/-- R165: after bit `i` of the code of `b` is packed, it is counted, and the next bit or the next byte follows. -/
def bitPacked (c : Instr) (b : Byte) (i : BitVec 8) (s : State) : State :=
  let t := { s with bitcnt := s.bitcnt + 1#64 }
  if i.toNat + 1 < (codeAt s.code b).clen.toNat then goTo c (.compressPack b (i + 1#8)) t else goTo c .compressRead t

/-- R80, R168: PutBit of c[i]. When the eighth bit enters, NACC wraps to 0 and ACC is offered on OUT (log 11). -/
def compressPack (c : Instr) (b : Byte) (i : BitVec 8) (s : State) : State :=
  let acc := shiftIn s.packer.acc (codeBit (codeAt s.code b) i.toNat)
  let nacc := s.packer.nacc + 1#3
  let t := { s with packer := ⟨acc, nacc⟩ }
  if nacc = 0#3 then goTo c (.compressPackOut b i) (offerOut acc t) else bitPacked c b i t

/-- R80: the engine is held until the sink accepts the byte; then the packer is empty. -/
def compressPackOut (c : Instr) (b : Byte) (i : BitVec 8) (s : State) : Option State :=
  match s.outPend with
  | some _ => none
  | none => some (bitPacked c b i { s with packer := ⟨0#8, 0#3⟩ })

/-- R80, R168: FlushBits. A partly filled byte is offered on OUT with zero bits below its NACC packed bits. -/
def compressFlush (c : Instr) (s : State) : State :=
  if s.packer.nacc = 0#3 then goTo c .complete s
  else goTo c .compressFlushOut (offerOut (s.packer.acc <<< (8 - s.packer.nacc.toNat)) s)

/-- R80: the engine is held until the sink accepts the flushed byte; then the packer is empty. -/
def compressFlushOut (c : Instr) (s : State) : Option State :=
  match s.outPend with
  | some _ => none
  | none => some (goTo c .complete { s with packer := ⟨0#8, 0#3⟩ })

end Sys2Proof.Machine
end

