-- ==== Sys2Proof/Machine/Control.lean ====
section
/-! DEFINITION. NOP, SRST, ACK and FCLR (spec/40_control.md R105 to R107 and R112). A command's meaning is what a CMD write of its
word does (R100, R101); the body of an accepted command is run by `engineStep`, micro-step by micro-step (R245). -/

namespace Sys2Proof.Machine

/-- NOP (R107): accepted under R101, or ignored while BUSY = 1 (R100). -/
def execNop (s : State) : Host.Outcome State Fault Refusal := .next (offerCommand .nop s)

/-- SRST (R105): runs at once, whether BUSY is 0 or 1. -/
def execSrst (s : State) : Host.Outcome State Fault Refusal := .next (resetBlock s)

/-- ACK (R106): one step at BUSY = 0; ignored while BUSY = 1 (R100). -/
def execAck (s : State) : Host.Outcome State Fault Refusal :=
  .next (if s.status.busy then ignoreWrite s else acknowledge s)

/-- FCLR (R112): accepted under R101, or ignored while BUSY = 1 (R100). -/
def execFclr (s : State) : Host.Outcome State Fault Refusal := .next (offerCommand .fclr s)

/-- R107: the body of NOP is empty. -/
def nopBody (s : State) : State := goTo .nop .complete s

/-- R112: the body of FCLR: every FREQ entry becomes 0. -/
def fclrBody (s : State) : State := goTo .fclr .complete { s with freq := clearedFreqs }

end Sys2Proof.Machine
end

