-- ==== Sys2Proof/Machine/Derive.lean ====
section
/-! DEFINITION. DERIVE, the code-table derivator (spec/42_code_table.md R150 to R152). Each visit of a node is one micro-step; a
right child waits on the traversal stack while its left sibling is visited (R49, log 13). -/

namespace Sys2Proof.Machine

/-- DERIVE (R150): accepted under R101, or ignored while BUSY = 1 (R100). -/
def execDerive (s : State) : Host.Outcome State Fault Refusal := .next (offerCommand .derive s)

/-- R150, R151: DERIVE up to its traversal. Without a tree it raises NO_TREE and changes nothing; a tree that is a single Leaf
gives that leaf's symbol the code "0". -/
def deriveStart (s : State) : State :=
  if s.status.tv then
    let t := { s with status.cv := false, code := clearedCodes, stack := [] }
    let r := nodeAt s.node s.root
    match r.kind with
    | .leaf => goTo .derive .deriveDone { t with code := setCode clearedCodes r.sym ⟨1#8, 0#256⟩ }
    | .internal => goTo .derive (.deriveVisit ⟨s.root, 0#8, 0#256⟩) t
  else goTo .derive (.raising .noTree) s

/-- R152: the traversal goes on with the node on top of the stack, or is done. -/
def nextVisit (c : Instr) (s : State) : State :=
  match s.stack with
  | [] => goTo c .deriveDone s
  | v :: rest => goTo c (.deriveVisit v) { s with stack := rest }

/-- R152: `visit(n, d, w)`. A Leaf records the code {CLEN d, CWORD w}; an Internal node is visited left (2w), then right
(2w + 1). -/
def deriveVisit (c : Instr) (v : Visit) (s : State) : State :=
  let e := nodeAt s.node v.node
  match e.kind with
  | .leaf => nextVisit c { s with code := setCode s.code e.sym ⟨v.len, v.val⟩ }
  | .internal =>
    goTo c (.deriveVisit ⟨e.left, v.len + 1#8, v.val <<< 1⟩)
      { s with stack := ⟨e.right, v.len + 1#8, (v.val <<< 1) + 1#256⟩ :: s.stack }

/-- R150: CV rises last. -/
def deriveDone (c : Instr) (s : State) : State := goTo c .complete { s with status.cv := true }

end Sys2Proof.Machine
end

