-- ==== Sys2Proof/Machine/Expand.lean ====
section
/-! DEFINITION. EXPAND and EXPANDX, the bitstream expander (spec/44_expander.md R185 to R196), with the bit reader of
spec/20_memory.md R78. The walk's body is shared, as R185 shares it; `bounded` says which command runs it. -/

namespace Sys2Proof.Machine

/-- EXPAND (R191): accepted under R101, or ignored while BUSY = 1 (R100). -/
def execExpand (s : State) : Host.Outcome State Fault Refusal := .next (offerCommand .expand s)

/-- EXPANDX (R195): accepted under R101, or ignored while BUSY = 1 (R100). -/
def execExpandx (s : State) : Host.Outcome State Fault Refusal := .next (offerCommand .expandx s)

/-- R185: bounded = true for EXPAND and false for EXPANDX. -/
def bounded : Instr → Bool
  | .expand => true
  | .expandx | .nop | .srst | .ack | .fclr | .build | .derive | .compress => false

/-- R185, R186: the walk up to its loop. Without a tree it raises NO_TREE and changes nothing; CV is not read. -/
def walkStart (c : Instr) (s : State) : State :=
  if s.status.tv then
    goTo c .walkTop { s with
      bytecnt := 0#32
      bitcnt := 0#64
      status.partialWalk := false
      reader := ⟨0#8, 0#4⟩
      walk := ⟨s.root, 0#8, 0#32, if bounded c then s.len else s.walk.limit⟩ }
  else goTo c (.raising .noTree) s

/-- R191: the body of EXPAND. -/
def expandStart (s : State) : State := walkStart .expand s

/-- R195: the body of EXPANDX. -/
def expandxStart (s : State) : State := walkStart .expandx s

/-- R185, R187, R191: the head of the walk's loop: a leaf reached is offered on OUT; EXPAND ends at LEN bytes; otherwise a bit is
needed. -/
def walkTop (c : Instr) (s : State) : State :=
  let e := nodeAt s.node s.walk.cur
  if s.walk.depth ≠ 0#8 ∧ e.kind = .leaf then goTo c .walkOut (offerOut e.sym s)
  else if bounded c ∧ s.walk.emitted = s.walk.limit then goTo c .complete s
  else goTo c .walkRead s

/-- R187: the engine is held until the sink accepts the symbol; then it is counted and the walk restarts at the root. -/
def walkOut (c : Instr) (s : State) : Option State :=
  match s.outPend with
  | some _ => none
  | none =>
    some (goTo c .walkTop { s with
      bytecnt := s.bytecnt + 1#32
      walk := { s.walk with emitted := s.walk.emitted + 1#32, cur := s.root, depth := 0#8 } })

/-- R192, R196: the input bits are exhausted where the walk needs one: EXPAND raises TRUNCATED; EXPANDX ends, with PARTIAL set if
it is inside the tree. -/
def walkExhausted (c : Instr) (s : State) : State :=
  if bounded c then goTo c (.raising .truncated) s
  else goTo c .complete { s with status.partialWalk := s.status.partialWalk || decide (s.walk.depth ≠ 0#8) }

/-- R188 to R190: what the walk does with a bit. At the root of a single-leaf tree, 0 reaches the Leaf and 1 is the missing child
(R189); at an Internal node the bit selects the child. -/
def walkBit (c : Instr) (bit : Bool) (s : State) : State :=
  let e := nodeAt s.node s.walk.cur
  match e.kind with
  | .leaf => if bit then goTo c (.raising .corruptTree) s else goTo c .walkTop { s with walk.depth := 1#8 }
  | .internal => goTo c .walkTop { s with walk.cur := childOf e bit, walk.depth := s.walk.depth + 1#8 }

/-- R78, R185: InBit from a reader that holds a bit, and the walk's move on it. -/
def takeBit (c : Instr) (r : BitReader) (s : State) : State :=
  let k := r.rbits - 1#4
  walkBit c (readerBit r.rbyte k) { s with reader := ⟨r.rbyte, k⟩, bitcnt := s.bitcnt + 1#64 }

/-- R78, R185: the walk needs a bit. With none in the reader, the engine is held while INBUF is empty and IN is open. -/
def walkRead (c : Instr) (s : State) : Option State :=
  if s.reader.rbits = 0#4 then
    match s.inPort.buf with
    | [] => if s.inPort.closed then some (walkExhausted c s) else none
    | b :: rest => some (takeBit c ⟨b, 8#4⟩ { s with inPort.buf := rest })
  else some (takeBit c s.reader s)

end Sys2Proof.Machine
end

