-- ==== Sys2Proof/Machine/Dispatch.lean ====
section
/-! DEFINITION. The meaning of each command (spec/30_encoding.md R92): what the host's write of its word to CMD does. -/

namespace Sys2Proof.Machine

def exec (i : Instr) (s : State) : Host.Outcome State Fault Refusal :=
  match i with
  | .nop => Sys2Proof.Machine.execNop s
  | .srst => Sys2Proof.Machine.execSrst s
  | .ack => Sys2Proof.Machine.execAck s
  | .fclr => Sys2Proof.Machine.execFclr s
  | .build => Sys2Proof.Machine.execBuild s
  | .derive => Sys2Proof.Machine.execDerive s
  | .compress => Sys2Proof.Machine.execCompress s
  | .expand => Sys2Proof.Machine.execExpand s
  | .expandx => Sys2Proof.Machine.execExpandx s

end Sys2Proof.Machine
end

