-- ==== Sys2Proof/Machine/Engine.lean ====
section
/-! DEFINITION. The engine: one micro-step of the running command (spec/70_reset_and_hazards.md R244, R245, R247). -/

namespace Sys2Proof.Machine

/-- The first micro-step of a command's body. SRST and ACK are one step at their CMD write and are never accepted (R101). -/
def startBody (c : Instr) (s : State) : State :=
  match c with
  | .nop => nopBody s
  | .fclr => fclrBody s
  | .build => buildStart s
  | .derive => deriveStart s
  | .compress => compressStart s
  | .expand => expandStart s
  | .expandx => expandxStart s
  | .srst => goTo .srst .complete s
  | .ack => goTo .ack .complete s

/-- R245: the engine's next micro-step; none while it is idle (R223) or held (R247). -/
def engineStep (s : State) : Option State :=
  match s.engine with
  | none => none
  | some (c, .start) => some (startBody c s)
  | some (c, .buildLoop) => some (buildLoop c s)
  | some (c, .deriveVisit v) => some (deriveVisit c v s)
  | some (c, .deriveDone) => some (deriveDone c s)
  | some (c, .compressRead) => compressRead c s
  | some (c, .compressPack b i) => some (compressPack c b i s)
  | some (c, .compressPackOut b i) => compressPackOut c b i s
  | some (c, .compressFlush) => some (compressFlush c s)
  | some (c, .compressFlushOut) => compressFlushOut c s
  | some (c, .walkTop) => some (walkTop c s)
  | some (c, .walkRead) => walkRead c s
  | some (c, .walkOut) => walkOut c s
  | some (c, .raising e) => some (failCommand c e s)
  | some (c, .complete) => some (completeCommand c s)

/-- The engine's next micro-step is the raise of an error (R214). -/
def raises (s : State) : Bool :=
  match s.engine with
  | some (_, .raising _) => true
  | _ => false

/-- The engine's turn, which no host action divides: its next micro-step, or no change while it is idle or held (log 18). R213: an
error completion sets ERR and DONE in the same step, so the completion follows the raise within one turn (log 27). -/
def engineTurn (s : State) : State :=
  match engineStep s with
  | none => s
  | some t => if raises s then (engineStep t).getD t else t

/-- `k` turns of the engine in a row, with no host action between them. -/
def engineRun : Nat → State → State
  | 0, s => s
  | k + 1, s => engineRun k (engineTurn s)

end Sys2Proof.Machine
end

