-- ==== Sys2Proof/Machine/Port.lean ====
section
/-! DEFINITION. The register port: the address map, what each address reads, and what a write does
(spec/20_memory.md R60 to R66, spec/10_state.md R20 to R45, spec/40_control.md R104 and R108 to R111). -/

namespace Sys2Proof.Machine

/-- R20: the control and status registers, by word index. -/
def controlReg : Nat → PortReg
  | 0 => .id
  | 1 => .cmd
  | 2 => .status
  | 3 => .errcode
  | 4 => .ie
  | 5 => .len
  | 6 => .bytecnt
  | 7 => .bitcntLo
  | 8 => .bitcntHi
  | 9 => .nleaf
  | 10 => .nnode
  | 11 => .root
  | _ => .reserved

/-- R62: what an aligned byte address names. -/
def decodeAddr (a : Addr) : PortReg :=
  let n := a.toNat
  if n < 0x0400 then controlReg (n / 4)
  else if n < 0x0800 then .freq (BitVec.ofNat 8 ((n - 0x0400) / 4))
  else if n < 0x1000 then .reserved
  else if n < 0x3000 then .node (BitVec.ofNat 9 ((n - 0x1000) / 16)) (BitVec.ofNat 2 ((n - 0x1000) / 4 % 4))
  else if n < 0x4000 then .reserved
  else if n < 0x8000 then .code (BitVec.ofNat 8 ((n - 0x4000) / 64)) (BitVec.ofNat 4 ((n - 0x4000) / 4 % 16))
  else .reserved

/-- R42: word `w` of the NODE window's entry `n`; the words of entry 511 read 0. -/
def nodeWord (s : State) (n : NodeIdx) (w : BitVec 2) : Word :=
  let e := nodeAt s.node n
  if n = 511#9 then 0#32
  else
    match w.toNat with
    | 0 => BitVec.ofBool (decide (e.kind = .internal)) ++ BitVec.ofBool (decide (n.toNat < s.nnode.toNat)) ++ 0#22 ++ e.sym
    | 1 => e.frq.extractLsb' 0 32
    | 2 => 0#24 ++ e.frq.extractLsb' 32 8
    | _ => 0#7 ++ e.right ++ 0#7 ++ e.left

/-- R45: word `w` of the CODE window's entry `x`. -/
def codeWord (s : State) (x : Sym) (w : BitVec 4) : Word :=
  let e := codeAt s.code x
  if w.toNat = 0 then 0#24 ++ e.clen
  else if w.toNat ≤ 8 then e.cword.extractLsb' (32 * (w.toNat - 1)) 32
  else 0#32

/-- R111: the word the layout of R20 to R45 gives. -/
def portValue (s : State) : PortReg → Word
  | .id => Config.idValue
  | .cmd => 0#32
  | .status => statusWord s.status
  | .errcode => errcodeWord s.errcode
  | .ie => ieWord s.ie
  | .len => s.len
  | .bytecnt => s.bytecnt
  | .bitcntLo => s.bitcnt.extractLsb' 0 32
  | .bitcntHi => s.bitcnt.extractLsb' 32 32
  | .nleaf => s.nleaf.setWidth 32
  | .nnode => s.nnode.setWidth 32
  | .root => s.root.setWidth 32
  | .freq x => freqAt s.freq x
  | .node n w => nodeWord s n w
  | .code x w => codeWord s x w
  | .reserved => 0#32

/-- R251, R63: what reads exactly while BUSY = 1: ID, STATUS, ERRCODE and IE, and the zero of a reserved address (log 8). -/
def exactWhileBusy : PortReg → Bool
  | .id | .status | .errcode | .ie | .reserved => true
  | .cmd | .len | .bytecnt | .bitcntLo | .bitcntHi | .nleaf | .nnode | .root | .freq _ | .node _ _ | .code _ _ => false

/-- R111, R251: MemRead(a, 4). The block does not change (R65); the host has the value, which is free where R251 leaves it free
(log 7). -/
def hostRead (a : Addr) (s : State) : State :=
  if s.status.busy && !exactWhileBusy (decodeAddr a) then
    { s with readLog := s.readLog ++ [(a, Config.freeRead s.draws)], draws := s.draws + 1 }
  else { s with readLog := s.readLog ++ [(a, portValue s (decodeAddr a))] }

/-- R104, R108 to R110, R63: MemWrite of `v` to what an address names, CMD excepted. -/
def hostWrite (r : PortReg) (v : Word) (s : State) : State :=
  match r with
  | .ie => { s with ie := ieOf v }
  | .len => if s.status.busy then ignoreWrite s else { s with len := v }
  | .freq x => if s.status.busy then ignoreWrite s else { s with freq := setFreq s.freq x v }
  | .id | .cmd | .status | .errcode | .bytecnt | .bitcntLo | .bitcntHi | .nleaf | .nnode | .root | .node _ _ | .code _ _
  | .reserved => s

end Sys2Proof.Machine
end

