-- ==== Sys2Proof/Machine/Schedule.lean ====
section
/-! DEFINITION. The schedule: the two agents of spec/70_reset_and_hazards.md R244, the host's liberties (R248), and whose move the
agenda names next (log 1, log 2). -/

namespace Sys2Proof.Machine

/-- The turn of whoever else can move, while the host's next action waits or the host has none: a sink that accepts at once takes
the byte that is offered (R79, R96); otherwise the engine moves. -/
def restTurn (s : State) : State :=
  if s.sinkReady then
    match s.outPend with
    | some v => acceptOut v s
    | none => engineTurn s
  else engineTurn s

/-- R248: the host's action `a`. `popped` is the state with the action taken off the agenda, `s` the state with it still there. An
action that is not enabled waits, and whoever else can move has the turn: a Push that the port does not accept (R76), an accept
with no byte offered (R79), a wait whose condition does not hold (R70, log 20). -/
def hostTurn (a : HostAct) (popped s : State) : Turn :=
  match a with
  | .read addr size => if accessOk addr size then .settled (.next (hostRead addr popped)) else .settled (.refused .portAccess)
  | .write addr size v =>
    if accessOk addr size then
      if decodeAddr addr = .cmd then .issue v popped else .settled (.next (hostWrite (decodeAddr addr) v popped))
    else .settled (.refused .portAccess)
  | .push b => .settled (.next (if canPush s then pushByte b popped else restTurn s))
  | .close => .settled (.next (closeIn popped))
  | .accept =>
    match s.outPend with
    | some v => .settled (.next (acceptOut v popped))
    | none => .settled (.next (restTurn s))
  | .sinkMode ready => .settled (.next { popped with sinkReady := ready })
  | .hardReset => .settled (.next (resetBlock popped))
  | .waitIdle => .settled (.next (if s.status.busy then restTurn s else popped))
  | .waitIrq => .settled (.next (if irq s then popped else restTurn s))

/-- R213, R244: the next move. With no move left, the host does nothing more. -/
def turn (s : State) : Turn :=
  match s.agenda with
  | [] => .settled (.next (restTurn s))
  | .engine :: rest => .settled (.next (engineTurn { s with agenda := rest }))
  | .host a :: rest => hostTurn a { s with agenda := rest } s

/-- R92, R96: the host's write of the word `w` to CMD, as a move. -/
def cmdWrite (w : Word) : Move := .host (.write 0x0004#16 4 w)

/-- `s` with the host's write of the command word `w` as its very next move (log 1). -/
def withCommand (w : Word) (s : State) : State := { s with agenda := cmdWrite w :: s.agenda }

end Sys2Proof.Machine
end

