-- ==== Sys2Proof/Machine/Step.lean ====
section
/-! DEFINITION. One step of the machine: the next move of the schedule. A word the host writes to CMD is decoded
(spec/30_encoding.md R93) and run by `exec`, or rejected (spec/40_control.md R103). -/

namespace Sys2Proof.Machine

/-- One step. -/
def step (s : State) : Host.Outcome State Fault Refusal :=
  match turn s with
  | .issue w t =>
    match decode w with
    | .command i => exec i t
    | .illegalReservedBits => .next (offerIllegal t)
    | .illegalOpcode => .next (offerIllegal t)
  | .settled o => o

/-- `s` with the table's word `w`, of `nbits` bits, as the very next command word the host writes to CMD (log 1). -/
def State.withFetchWord (s : State) (nbits w : Nat) : State := withCommand (BitVec.ofNat 32 (w % 2 ^ nbits)) s

end Sys2Proof.Machine
end

