-- ==== Sys2Proof/Machine/HostProgram.lean ====
section
/-! DEFINITION. The host-program notation (spec/30_encoding.md R96, R97) as moves of the agenda. `WAIT` is the move `waitIdle`;
the sink accepts every OUT byte at once (R96) in a state with `sinkReady` set (log 20). -/

namespace Sys2Proof.Machine.Program

/-- R96: `WR <addr>, <value>`. -/
def wr (a : Addr) (v : Word) : List Move := [.host (.write a 4 v)]

/-- R96: `RD <addr>`. -/
def rd (a : Addr) : List Move := [.host (.read a 4)]

/-- R96: `CMD <MNEMONIC>`. -/
def cmd (i : Instr) : List Move := wr 0x0004#16 (encode i)

/-- R96: `PUSH b0, b1, ...`. -/
def push (bs : List Byte) : List Move := bs.map fun b => .host (.push b)

/-- R96: `CLOSE`. -/
def close : List Move := [.host .close]

/-- R97: `WAIT`. -/
def wait : List Move := [.host .waitIdle]

/-- R97: `RUN <MNEMONIC>`. -/
def run (i : Instr) : List Move := cmd i ++ wait

/-- R96: the address of FREQ[x]. -/
def freqAddr (x : Sym) : Addr := BitVec.ofNat 16 (0x0400 + 4 * x.toNat)

/-- R96: the address of NODE[n].w. -/
def nodeAddr (n : NodeIdx) (w : BitVec 2) : Addr := BitVec.ofNat 16 (0x1000 + 16 * n.toNat + 4 * w.toNat)

/-- R96: the address of CODE[x].w. -/
def codeAddr (x : Sym) (w : BitVec 4) : Addr := BitVec.ofNat 16 (0x4000 + 64 * x.toNat + 4 * w.toNat)

/-- R97: `SETFREQ x, v`. -/
def setfreq (x : Sym) (v : Word) : List Move := wr (freqAddr x) v

/-- R97: `LOADFREQ v`. -/
def loadfreq (v : Vector Word 256) : List Move :=
  run .fclr ++ ((List.range 256).map (BitVec.ofNat 8)).flatMap fun x =>
    if freqAt v x = 0#32 then [] else setfreq x (freqAt v x)

/-- R97: `ENCODE v, bytes`. -/
def encodeBytes (v : Vector Word 256) (bs : List Byte) : List Move :=
  loadfreq v ++ run .build ++ run .derive ++ push bs ++ close ++ run .compress ++ rd 0x0018#16

/-- R97: `DECODE v, n, bytes`. -/
def decodeBytes (v : Vector Word 256) (n : Word) (bs : List Byte) : List Move :=
  loadfreq v ++ run .build ++ wr 0x0014#16 n ++ push bs ++ close ++ run .expand

end Sys2Proof.Machine.Program
end

