-- ==== Sys2Proof/Safety.lean ====
section
/-! DEFINITION. What counts as a sound state of HUFFCORE, and the terms statements are written in: the lifecycle of a command
(spec/40_control.md), the shape of the tree (spec/10_state.md R43), the code table that belongs to it (R44,
spec/42_code_table.md R154), the bit stream a byte sequence stands for (spec/43_compressor.md R169), and runs. -/

namespace Sys2Proof.Machine

/-! ## Runs -/

/-- `t` is reached from `s` in some number of steps. -/
def Reaches (s t : State) : Prop := ∃ k, Host.Core.run Sys2Proof.core k s = .next t

/-- The host has no further move planned, its sink takes every byte at once (R96, R256), and no byte is waiting on OUT. -/
def Quiet (s : State) : Prop := s.agenda = [] ∧ s.sinkReady = true ∧ s.outPend = none

/-- The next move resets the block: the reset input (R242) or a write of SRST (R105). -/
def ResetsNext (s : State) : Prop :=
  s.agenda.head? = some (.host .hardReset) ∨ s.agenda.head? = some (cmdWrite (encode .srst))

/-- The next move acknowledges: a write of ACK at BUSY = 0 (R106). -/
def AcksNext (s : State) : Prop := s.agenda.head? = some (cmdWrite (encode .ack)) ∧ s.status.busy = false

/-- R101: the commands whose acceptance sets BUSY. -/
def setsBusy : Instr → Bool
  | .srst | .ack => false
  | .nop | .fclr | .build | .derive | .compress | .expand | .expandx => true

/-- The next move writes the word of an accepted command (R101). -/
def AcceptsNext (s : State) : Prop :=
  s.status.busy = false ∧ ∃ c, setsBusy c = true ∧ s.agenda.head? = some (cmdWrite (encode c))

/-- The next move writes an illegal word at BUSY = 0 (R103). -/
def RejectsNext (s : State) : Prop :=
  s.status.busy = false ∧ ∃ w, (∀ i, decode w ≠ .command i) ∧ s.agenda.head? = some (cmdWrite w)

/-- The next move is a host write to CMD, LEN or a FREQ entry, which BUSY = 1 makes the block ignore (R100, R104). -/
def OverrunsNext (s : State) : Prop :=
  s.status.busy = true ∧ ∃ a v, s.agenda.head? = some (.host (.write a 4 v))
    ∧ (a = 0x0004#16 ∨ a = 0x0014#16 ∨ ∃ x, a = Program.freqAddr x)

/-- The running command is about to raise an error (R214). -/
def Raises (s : State) : Prop := ∃ c e, s.engine = some (c, .raising e)

/-- The engine's next turn completes the running command (R102), with success or with an error (R213). -/
def Completes (s : State) : Prop := (∃ c, s.engine = some (c, .complete)) ∨ Raises s

/-- The running command is `c`. -/
def Runs (c : Instr) (s : State) : Prop := ∃ p, s.engine = some (c, p)

/-! ## The lifecycle -/

/-- R210, column "raised by": the commands that raise an error. ILLEGAL_CMD is raised by no command. -/
def raisedBy : ErrCode → Instr → Bool
  | .emptyInput, .build => true
  | .unknownSymbol, .compress => true
  | .noCode, .compress => true
  | .corruptTree, .expand => true
  | .corruptTree, .expandx => true
  | .noTree, .derive => true
  | .noTree, .expand => true
  | .noTree, .expandx => true
  | .truncated, .expand => true
  | _, _ => false

/-- The places that belong to the body of a command. -/
def placeFits (c : Instr) : Point → Bool
  | .start | .complete => setsBusy c
  | .buildLoop => c == .build
  | .deriveVisit _ | .deriveDone => c == .derive
  | .compressRead | .compressPack _ _ | .compressPackOut _ _ | .compressFlush | .compressFlushOut => c == .compress
  | .walkTop | .walkRead | .walkOut => c == .expand || c == .expandx
  | .raising e => raisedBy e c

/-- The places at which a byte may be offered on OUT (R79, R247). -/
def mayOffer : Point → Bool
  | .compressPackOut _ _ | .compressFlushOut | .walkOut => true
  | .start | .complete | .buildLoop | .deriveVisit _ | .deriveDone | .compressRead | .compressPack _ _ | .compressFlush
  | .walkTop | .walkRead | .raising _ => false

/-- What TV and CV are while the engine is at a place: BUILD has cleared both before its loop (R131), DERIVE has cleared CV and
needs TV (R150), COMPRESS needs CV (R166), the walk needs TV (R186). -/
def validAt (st : Status) : Point → Bool
  | .buildLoop => !st.tv && !st.cv
  | .deriveVisit _ | .deriveDone => st.tv && !st.cv
  | .compressRead | .compressPack _ _ | .compressPackOut _ _ | .compressFlush | .compressFlushOut => st.cv
  | .walkTop | .walkRead | .walkOut => st.tv
  | .start | .raising _ | .complete => true

/-- The lifecycle invariant: STATUS says what the engine does. -/
structure LifecycleInv (s : State) : Prop where
  /-- R24: BUSY = 1 exactly while a command runs. -/
  busy : s.status.busy = s.engine.isSome
  /-- R25, R101, R102: DONE = 0 while a command runs. -/
  done : s.status.busy = true → s.status.done = false
  /-- The engine is at a place of the body of the command it latched, and raises only that command's errors (R210). -/
  fits : ∀ x ∈ s.engine, placeFits x.1 x.2 = true
  /-- TV and CV are as the place in the body needs them. -/
  valid : ∀ x ∈ s.engine, validAt s.status x.2 = true
  /-- R31: INWAIT = 1 exactly while the engine is held at an IN read. -/
  inwait : s.status.inwait = s.engine.any fun x => heldAtIn x.2 s.reader s.inPort
  /-- R79, R247: a byte is on OUT only while the engine is held there. -/
  out : s.outPend.isSome = true → s.engine.any (fun x => mayOffer x.2) = true
  /-- R29: CV = 1 implies TV = 1. -/
  cvtv : s.status.cv = true → s.status.tv = true
  /-- R26, R32: ERRCODE holds an error's code exactly while ERR = 1. -/
  err : s.status.err = true ↔ s.errcode ≠ .none
  /-- R48: RBITS is in 0..8. -/
  rbits : s.reader.rbits.toNat ≤ 8

/-! ## The tree (R43) -/

/-- NODE[n], `n` a number. -/
def nodeNo (s : State) (n : Nat) : Node := nodeAt s.node (BitVec.ofNat 9 n)

/-- The children of the Internal nodes, in the order of the arena. -/
def childList (s : State) : List NodeIdx :=
  (List.range' s.nleaf.toNat (s.nnode.toNat - s.nleaf.toNat)).flatMap fun n => [(nodeNo s n).left, (nodeNo s n).right]

/-- R41, R43: the arena holds the trees whose roots are `roots`: the leaves first, then the Internal nodes in the order of their
allocation. -/
structure ArenaInv (s : State) (roots : List NodeIdx) : Prop where
  /-- R37: NLEAF is in 0..256. -/
  leafCount : s.nleaf.toNat ≤ 256
  /-- R41, R43 (e): the first NLEAF entries are Leaves with a count above 0 and below 2^32. -/
  leaf : ∀ n, n < s.nleaf.toNat →
    (nodeNo s n).kind = .leaf ∧ (nodeNo s n).left = 0#9 ∧ (nodeNo s n).right = 0#9
      ∧ 0 < (nodeNo s n).frq.toNat ∧ (nodeNo s n).frq.toNat < 2 ^ 32
  /-- R43 (e): in ascending order of their symbols. -/
  sorted : ∀ n, n < s.nleaf.toNat → ∀ m, m < n → (nodeNo s m).sym.toNat < (nodeNo s n).sym.toNat
  /-- R41, R43 (a): every other allocated entry is Internal, with two distinct children of smaller index, whose frequencies it
  sums exactly (R9). -/
  internal : ∀ n, n < s.nnode.toNat → s.nleaf.toNat ≤ n →
    (nodeNo s n).kind = .internal ∧ (nodeNo s n).sym = 0#8
      ∧ (nodeNo s n).left.toNat < n ∧ (nodeNo s n).right.toNat < n ∧ (nodeNo s n).left ≠ (nodeNo s n).right
      ∧ (nodeNo s n).frq.toNat = (nodeAt s.node (nodeNo s n).left).frq.toNat + (nodeAt s.node (nodeNo s n).right).frq.toNat
  /-- R41: an entry that is not allocated has every field 0. -/
  free : ∀ n, n < 511 → s.nnode.toNat ≤ n → nodeNo s n = Node.zero
  /-- R43 (b): every allocated node is a root, or the child of exactly one Internal node. -/
  once : ∀ n, n < s.nnode.toNat → (childList s).count (BitVec.ofNat 9 n) + roots.count (BitVec.ofNat 9 n) = 1
  /-- The roots are allocated. -/
  rootsIn : ∀ r ∈ roots, r.toNat < s.nnode.toNat
  /-- R139: every merge has taken one root away and allocated one node. -/
  count : s.nnode.toNat + roots.length = 2 * s.nleaf.toNat
  /-- R43 (d), R144 (a): the roots' frequencies sum to the leaves' counts. -/
  sum : (roots.map fun r => (nodeAt s.node r).frq.toNat).sum = ((List.range s.nleaf.toNat).map fun n => (nodeNo s n).frq.toNat).sum

/-- R43, R28: while TV = 1 the arena holds one tree, with root ROOT; while BUILD is in its loop it holds the forest F. -/
structure TreeInv (s : State) : Prop where
  tree : s.status.tv = true → ArenaInv s [s.root]
  forest : s.engine.any (fun x => x.2 == .buildLoop) = true → ArenaInv s s.forest ∧ s.forest ≠ []

/-- R132, R43 (d), (e): the leaves are the symbols with a count above 0 in `freq`, each with its count. -/
structure LeavesOf (s : State) (freq : Vector Word 256) : Prop where
  present : ∀ x : Sym, 0#32 < freqAt freq x ↔ ∃ n, n < s.nleaf.toNat ∧ (nodeNo s n).sym = x
  counts : ∀ n, n < s.nleaf.toNat → (nodeNo s n).frq.toNat = (freqAt freq (nodeNo s n).sym).toNat

/-! ## The code table (R44, R154) -/

/-- Following `bits` from node `n`, 0 left and 1 right; a Leaf has no children. -/
def follow (node : Vector Node 511) : NodeIdx → List Bool → Option NodeIdx
  | n, [] => some n
  | n, b :: bs => if (nodeAt node n).kind = .internal then follow node (childOf (nodeAt node n) b) bs else none

/-- R151, R152: `c` is the code of the leaf `n`: "0" in a tree of one Leaf, else the path from ROOT. -/
def CodeOfLeaf (s : State) (c : Code) (n : Nat) : Prop :=
  c.clen ≠ 0#8 ∧ c.cword.toNat < 2 ^ c.clen.toNat
    ∧ if s.nleaf = 1#9 then c = ⟨1#8, 0#256⟩ else follow s.node s.root (codeBits c) = some (BitVec.ofNat 9 n)

/-- R44, R154 (a), (e): every leaf's symbol has the leaf's code, and no other symbol has a code. -/
structure CodesMatch (s : State) : Prop where
  coded : ∀ n, n < s.nleaf.toNat → CodeOfLeaf s (codeAt s.code (nodeNo s n).sym) n
  uncoded : ∀ x : Sym, (∀ n, n < s.nleaf.toNat → (nodeNo s n).sym ≠ x) → codeAt s.code x = Code.zero

/-- R152, halfway: `pending` are the visits still to make. Each is a node on the path its bit string describes; every code
recorded is its leaf's; every leaf is recorded or below a pending node; and no other symbol has a code. -/
structure VisitsLeft (s : State) (pending : List Visit) : Prop where
  several : s.nleaf.toNat ≠ 1
  onPath : ∀ v ∈ pending, v.val.toNat < 2 ^ v.len.toNat ∧ follow s.node s.root (codeBits ⟨v.len, v.val⟩) = some v.node
  recorded : ∀ n, n < s.nleaf.toNat →
    CodeOfLeaf s (codeAt s.code (nodeNo s n).sym) n
      ∨ ∃ v ∈ pending, ∃ bits, follow s.node v.node bits = some (BitVec.ofNat 9 n)
  uncoded : ∀ x : Sym, (∀ n, n < s.nleaf.toNat → (nodeNo s n).sym ≠ x) → codeAt s.code x = Code.zero

/-- R29, R154: while CV = 1, and when DERIVE's traversal is over, the code table is the tree's; during the traversal it is so
as far as the traversal has come. -/
structure CodeInv (s : State) : Prop where
  valid : s.status.cv = true → CodesMatch s
  visiting : ∀ c v, s.engine = some (c, .deriveVisit v) → VisitsLeft s (v :: s.stack)
  visited : ∀ c, s.engine = some (c, .deriveDone) → CodesMatch s

/-! ## Bit streams (R168, R169) -/

/-- R169: the concatenation of the codes of the bytes. -/
def streamOf (code : Vector Code 256) (bs : List Byte) : List Bool := bs.flatMap fun b => codeBits (codeAt code b)

/-- R80, R169: how many zero bits the flush adds. -/
def padding (n : Nat) : Nat := (8 - n % 8) % 8

/-- Eight bits as a byte, the first at bit 7 (R80). -/
def byteOf (bits : List Bool) : Byte := BitVec.ofNat 8 (bits.foldl (fun n b => 2 * n + b.toNat) 0)

/-- The whole bytes a bit stream fills (R80); bits that fill no whole byte are left out. -/
def wholeBytes (bits : List Bool) : List Byte :=
  (List.range (bits.length / 8)).map fun k => byteOf ((bits.drop (8 * k)).take 8)

/-- R169: the bytes COMPRESS emits for a stream: the bits, then the padding. -/
def packedBytes (bits : List Bool) : List Byte := wholeBytes (bits ++ List.replicate (padding bits.length) false)

end Sys2Proof.Machine
end

