-- ==== Sys2Proof/Certificates/Slice0/Obligations.lean ====
section
/-! DEFINITION. The statements about HUFFCORE, one `def Obligations.<Name> : Prop` each. OBLIGATIONS.json lists them. Where a
statement follows a command through its body, the engine runs alone (`engineRun`, or `Reaches` from a state without host moves);
how many turns that takes is the model's own (log 3) and is left open by an existential. -/

open Sys2Proof Sys2Proof.Machine

/-! ## Encoding and decoding -/

/-- R92: each of the nine words, written out, decodes to its command; so do the neighbours that R94 names to ILLEGAL. -/
def Obligations.SpecWordsDecodeToTheirCommands : Prop :=
  decode 0x00000000#32 = .command .nop ∧ decode 0x00000001#32 = .command .srst ∧ decode 0x00000002#32 = .command .ack
    ∧ decode 0x00000003#32 = .command .fclr ∧ decode 0x00000010#32 = .command .build ∧ decode 0x00000011#32 = .command .derive
    ∧ decode 0x00000020#32 = .command .compress ∧ decode 0x00000030#32 = .command .expand
    ∧ decode 0x00000031#32 = .command .expandx
    ∧ decode 0x00000100#32 = .illegalReservedBits ∧ decode 0x80000010#32 = .illegalReservedBits
    ∧ decode 0x00000004#32 = .illegalOpcode ∧ decode 0x000000FF#32 = .illegalOpcode

/-- R92, R93: decoding and encoding agree on all words and all commands: a word is a command's exactly when it is that command's
encoding, and every well-formed command has one. -/
def Obligations.DecodeAndEncodeAgree : Prop :=
  (∀ i : Instr, i.wellFormed = true → decode (encode i) = .command i) ∧ ∀ (w : Word) (i : Instr), decode w = .command i → w = encode i

/-- R94: which words are illegal, and for which of the two reasons. -/
def Obligations.EveryOtherWordIsIllegal : Prop :=
  ∀ w : Word,
    (decode w = .illegalReservedBits ↔ 0x100 ≤ w.toNat)
      ∧ (decode w = .illegalOpcode ↔
        (0x04 ≤ w.toNat ∧ w.toNat ≤ 0x0F) ∨ (0x12 ≤ w.toNat ∧ w.toNat ≤ 0x1F) ∨ (0x21 ≤ w.toNat ∧ w.toNat ≤ 0x2F)
          ∨ (0x32 ≤ w.toNat ∧ w.toNat ≤ 0xFF))

/-! ## A step -/

/-- R22, R93, R101: when the host's next move writes a word that decodes to `i` to CMD, the step is the meaning of `i` on the state
with the move taken off the agenda. `withFetchWord` places exactly such a move. -/
def Obligations.StepRunsTheDecodedCommand : Prop :=
  (∀ (s : State) (w : Word) (i : Instr) (rest : List Move),
    s.agenda = .host (.write 0x0004#16 4 w) :: rest → decode w = .command i → step s = exec i { s with agenda := rest })
    ∧ ∀ (s : State) (w : Nat) (i : Instr), decodeTableWord 32 w = some i → step (s.withFetchWord 32 w) = exec i s

/-- R61: a step is refused exactly when the next move is an access that is not a whole aligned word. That every other step answers
a next state, and none faults, is the model's choice (log 18). -/
def Obligations.OnlyBadAccessesAreRefused : Prop :=
  ∀ s : State,
    (step s = .refused .portAccess ↔
      ∃ (a : Addr) (n : Nat) (rest : List Move), ¬(a.toNat % 4 = 0 ∧ n = 4)
        ∧ (s.agenda = .host (.read a n) :: rest ∨ ∃ v, s.agenda = .host (.write a n v) :: rest))
      ∧ (step s ≠ .refused .portAccess → ∃ t, step s = .next t)

/-- R83, R65, R251: what the host has read, which TRACE events the observer took, and the counter of the free values have no
influence on anything else. -/
def Obligations.ObservationDoesNotInfluence : Prop :=
  ∀ (s : State) (log : List (Addr × Word)) (seen : List MergeEvent) (d : Nat),
    (∀ t, step s = .next t →
      ∃ t', step { s with readLog := log, traceSeen := seen, draws := d } = .next t'
        ∧ t' = { t with readLog := t'.readLog, traceSeen := t'.traceSeen, draws := t'.draws })
      ∧ ∀ r, step s = .refused r → step { s with readLog := log, traceSeen := seen, draws := d } = .refused r

/-! ## The command lifecycle -/

/-- R103: an illegal word at BUSY = 0 changes DONE, ERR and, if it is the first error, ERRCODE; nothing else. -/
def Obligations.IllegalWordEndsAsError : Prop :=
  ∀ (s : State) (w : Word) (rest : List Move),
    s.agenda = .host (.write 0x0004#16 4 w) :: rest → (∀ i, decode w ≠ .command i) → s.status.busy = false →
      step s = .next { s with
        agenda := rest
        status.done := true
        status.err := true
        errcode := if s.status.err then s.errcode else .illegalCmd }

/-- R100: while BUSY = 1 every command word but SRST, and every illegal word, is ignored and sets OVR; SRST runs. -/
def Obligations.BusyCommandsAreIgnored : Prop :=
  ∀ s : State, s.status.busy = true →
    (∀ i : Instr, i ≠ .srst → exec i s = .next { s with status.ovr := true })
      ∧ (∃ t, exec .srst s = .next t ∧ t.status = State.reset.status ∧ t.engine = none)
      ∧ ∀ (w : Word) (rest : List Move), s.agenda = .host (.write 0x0004#16 4 w) :: rest → (∀ i, decode w ≠ .command i) →
          step s = .next { s with agenda := rest, status.ovr := true }

/-- R101: acceptance. BUSY rises, DONE and INWAIT fall, the engine latches the command; nothing else changes. -/
def Obligations.AcceptanceStartsTheBody : Prop :=
  ∀ (s : State) (c : Instr), s.status.busy = false →
    c = .nop ∨ c = .fclr ∨ c = .build ∨ c = .derive ∨ c = .compress ∨ c = .expand ∨ c = .expandx →
      exec c s = .next { s with
        status.busy := true
        status.done := false
        status.inwait := false
        engine := some (c, .start) }

/-- R102, R81: the completion step. COMPRESS, EXPAND and EXPANDX end the IN session in it; the other commands leave IN alone. -/
def Obligations.CompletionStepEndsTheCommand : Prop :=
  ∀ (s : State) (c : Instr), s.engine = some (c, .complete) →
    (c = .compress ∨ c = .expand ∨ c = .expandx →
      engineStep s = some { s with
        status.inwait := false
        status.busy := false
        status.done := true
        engine := none
        inPort := ⟨[], false⟩
        reader.rbits := 0#4
        packer := ⟨0#8, 0#3⟩ })
      ∧ (c = .nop ∨ c = .fclr ∨ c = .build ∨ c = .derive →
        engineStep s = some { s with status.inwait := false, status.busy := false, status.done := true, engine := none })

/-- R214, R245, R213, R102: raising an error. The raise is a micro-step: the first error wins, ERR is set, the body ends, and nothing
the command did before is rolled back. The completion follows in the same turn of the engine, so that one step of the machine sets
ERR and DONE, as R213 says (log 27). COMPRESS, EXPAND and EXPANDX end the IN session; the other commands leave IN alone. -/
def Obligations.RaisingAnErrorIsPrecise : Prop :=
  ∀ (s : State) (c : Instr) (e : ErrCode), s.engine = some (c, .raising e) →
    engineStep s = some { s with
      status := { s.status with inwait := false, err := true }
      errcode := if s.status.err then s.errcode else e
      engine := some (c, .complete) }
      ∧ (∀ rest, s.agenda = .engine :: rest → step s = .next { engineTurn s with agenda := rest })
      ∧ (c = .compress ∨ c = .expand ∨ c = .expandx →
        engineTurn s = { s with
          status := { s.status with inwait := false, busy := false, done := true, err := true }
          errcode := if s.status.err then s.errcode else e
          engine := none
          inPort := ⟨[], false⟩
          reader.rbits := 0#4
          packer := ⟨0#8, 0#3⟩ })
      ∧ (c = .nop ∨ c = .fclr ∨ c = .build ∨ c = .derive →
        engineTurn s = { s with
          status := { s.status with inwait := false, busy := false, done := true, err := true }
          errcode := if s.status.err then s.errcode else e
          engine := none })

/-- R106: ACK clears DONE, ERR, OVR and ERRCODE and nothing else, and so ends the IRQ; while BUSY = 1 it only sets OVR. -/
def Obligations.AcknowledgeClearsTheError : Prop :=
  decode 0x00000002#32 = .command .ack ∧ ∀ s : State,
    (s.status.busy = false →
      ∃ t, exec .ack s = .next t ∧ irq t = false
        ∧ t = { s with status.done := false, status.err := false, status.ovr := false, errcode := .none })
      ∧ (s.status.busy = true → exec .ack s = .next { s with status.ovr := true })

/-- R105: SRST runs at any time and leaves the reset state; what the sink accepted, the TRACE events sent, what the host has read
and what it plans stay. The hidden registers F, CUR, DEPTH, EMITTED, LIMIT and the DERIVE stack are not spoken of (R240). -/
def Obligations.SoftResetResetsTheBlock : Prop :=
  decode 0x00000001#32 = .command .srst ∧ ∀ s : State, ∃ t, exec .srst s = .next t
    ∧ t = { State.reset with
        forest := t.forest
        walk := t.walk
        stack := t.stack
        agenda := s.agenda
        sinkReady := s.sinkReady
        sink := s.sink
        traceSent := s.traceSent
        traceSeen := s.traceSeen
        readLog := s.readLog
        draws := s.draws }

/-- R240: the reset state, register by register, as the reset input and SRST leave it: both leave the same state, and no TRACE
event is sent. -/
def Obligations.ResetStateIsAsSpecified : Prop :=
  (∀ s : State, ∃ t, exec .srst s = .next t ∧ t.traceSent = s.traceSent)
    ∧ (∀ (s : State) (rest : List Move), s.agenda = .host .hardReset :: rest → step s = exec .srst { s with agenda := rest })
    ∧ ∀ t : State, t = State.reset ∨ (∃ s, exec .srst s = .next t) →
        (∀ r : PortReg, portValue t r = if r = .id then 0x48554646#32 else 0#32)
          ∧ (∀ x, freqAt t.freq x = 0#32) ∧ (∀ n, nodeAt t.node n = Node.zero) ∧ (∀ x, codeAt t.code x = Code.zero)
          ∧ t.status = ⟨false, false, false, false, false, false, false, false⟩ ∧ t.engine = none
          ∧ t.inPort = ⟨[], false⟩ ∧ t.outPend = none ∧ t.packer = ⟨0#8, 0#3⟩ ∧ t.reader = ⟨0#8, 0#4⟩ ∧ irq t = false

/-- R107: NOP is accepted, does nothing, and completes: it sets DONE. While BUSY = 1 it is ignored and sets OVR. -/
def Obligations.NopOnlySetsDone : Prop :=
  decode 0x00000000#32 = .command .nop ∧ ∀ s : State,
    (s.status.busy = false →
      ∃ t k, exec .nop s = .next t ∧ t.status.busy = true ∧ t.status.done = false
        ∧ engineRun k t = { s with status.busy := false, status.done := true, status.inwait := false, engine := none })
      ∧ (s.status.busy = true → exec .nop s = .next { s with status.ovr := true })

/-- R112: FCLR sets every FREQ entry to 0; the tree, the code table, TV and CV stay. A BUILD that follows ends in an error. -/
def Obligations.FclrClearsOnlyTheFrequencies : Prop :=
  decode 0x00000003#32 = .command .fclr ∧ ∀ s : State, s.status.busy = false →
    ∃ t k u, exec .fclr s = .next t ∧ engineRun k t = u ∧ (∀ x, freqAt u.freq x = 0#32)
      ∧ u = { s with
          status.busy := false
          status.done := true
          status.inwait := false
          engine := none
          freq := u.freq }
      ∧ ∃ v j, exec .build u = .next v ∧ (engineRun j v).status.busy = false ∧ (engineRun j v).status.err = true
          ∧ (s.status.err = false → (engineRun j v).errcode = .emptyInput)

/-- R212, R155, R166, R186: a command whose precondition fails raises its error before it changes anything, and a stream command's
IN session still ends. -/
def Obligations.FailedPreconditionsChangeNothingElse : Prop :=
  ∀ s : State, s.status.busy = false →
    (s.status.tv = false →
      ∃ t k, exec .derive s = .next t
        ∧ engineRun k t = { s with
            status.busy := false
            status.done := true
            status.inwait := false
            status.err := true
            errcode := if s.status.err then s.errcode else .noTree
            engine := none })
      ∧ (∀ c e, (c = .compress ∧ e = .noCode ∧ s.status.cv = false) ∨ ((c = .expand ∨ c = .expandx) ∧ e = .noTree ∧ s.status.tv = false) →
        ∃ t k, exec c s = .next t
          ∧ engineRun k t = { s with
              status.busy := false
              status.done := true
              status.inwait := false
              status.err := true
              errcode := if s.status.err then s.errcode else e
              engine := none
              inPort := ⟨[], false⟩
              reader.rbits := 0#4
              packer := ⟨0#8, 0#3⟩ })

/-! ## Invariants -/

/-- The reset state meets every invariant. -/
def Obligations.ResetMeetsTheInvariants : Prop :=
  LifecycleInv State.reset ∧ TreeInv State.reset ∧ CodeInv State.reset

/-- R24, R25, R29, R31, R32, R48, R79, R210: every step keeps the lifecycle invariant: BUSY is 1 exactly while a command runs,
INWAIT exactly while the engine is held at an IN read, CV = 1 implies TV = 1, ERRCODE holds a code exactly while ERR = 1, a
command raises only its own errors, and a byte is on OUT only while the engine is held there. -/
def Obligations.EveryStepKeepsTheLifecycle : Prop :=
  ∀ s t : State, LifecycleInv s → step s = .next t → LifecycleInv t

/-- R43, R41, R139: every step keeps the shape of the tree: while TV = 1 the arena holds one tree with root ROOT, and while BUILD
merges it holds the forest F. -/
def Obligations.EveryStepKeepsTheTree : Prop :=
  ∀ s t : State, LifecycleInv s → TreeInv s → step s = .next t → TreeInv t

/-- R29, R154 (a), (e): every step keeps the code table that of the tree while CV = 1. -/
def Obligations.EveryStepKeepsTheCodes : Prop :=
  ∀ s t : State, LifecycleInv s → TreeInv s → CodeInv s → step s = .next t → CodeInv t

/-- R247: the engine takes no step exactly while it is idle, held at an IN read (INWAIT = 1), or holding a byte the sink has not
accepted; then nothing but a host action moves it: a Push or a Close lifts the hold at IN, accepting the byte the hold at OUT. -/
def Obligations.EngineIsHeldOnlyAtTheStreams : Prop :=
  ∀ s : State, LifecycleInv s →
    (engineStep s = none ↔ s.status.busy = false ∨ s.status.inwait = true ∨ s.outPend.isSome = true)
      ∧ (engineStep s = none → ∀ k, engineRun k s = s)
      ∧ (s.status.inwait = true → s.inPort = ⟨[], false⟩
        ∧ (∀ b, (engineStep (pushByte b s)).isSome = true) ∧ (engineStep (closeIn s)).isSome = true)
      ∧ ∀ v, s.outPend = some v → (engineStep (acceptOut v s)).isSome = true

/-- R26, R27, R32: ERR and OVR are sticky, and ERRCODE keeps the first error: only ACK and a reset clear them. -/
def Obligations.ErrorsAndOverrunsAreSticky : Prop :=
  ∀ s t : State, step s = .next t → ¬ResetsNext s → ¬AcksNext s →
    (s.status.err = true → t.status.err = true ∧ t.errcode = s.errcode) ∧ (s.status.ovr = true → t.status.ovr = true)

/-- R20 to R41, R44: who may change a register the host can read, or a table, when no reset comes next: BUILD alone the tree; BUILD
and DERIVE the codes; FCLR and an idle host write FREQ; an idle host write LEN; a host write IE; the stream commands the
counters; EXPAND and EXPANDX PARTIAL. BUSY rises at acceptance and falls at completion; DONE rises at completion and at an
illegal word and falls at acceptance and ACK; ERR and ERRCODE change where an error is raised, at an illegal word and at ACK; OVR
rises at an ignored write and falls at ACK; INWAIT rises in a stream command and falls at a Push or a Close. -/
def Obligations.EveryRegisterHasItsWriters : Prop :=
  ∀ s t : State, LifecycleInv s → step s = .next t → ¬ResetsNext s →
    (t.node ≠ s.node ∨ t.nleaf ≠ s.nleaf ∨ t.nnode ≠ s.nnode ∨ t.root ≠ s.root ∨ t.status.tv ≠ s.status.tv
        ∨ t.traceSent ≠ s.traceSent → Runs .build s)
      ∧ (t.code ≠ s.code ∨ t.status.cv ≠ s.status.cv → Runs .build s ∨ Runs .derive s)
      ∧ (t.bytecnt ≠ s.bytecnt ∨ t.bitcnt ≠ s.bitcnt → Runs .compress s ∨ Runs .expand s ∨ Runs .expandx s)
      ∧ (t.status.partialWalk ≠ s.status.partialWalk → Runs .expand s ∨ Runs .expandx s)
      ∧ (t.freq ≠ s.freq → Runs .fclr s
          ∨ (s.status.busy = false
            ∧ ∃ x v, s.agenda.head? = some (.host (.write (Program.freqAddr x) 4 v)) ∧ t.freq = setFreq s.freq x v))
      ∧ (t.len ≠ s.len → s.status.busy = false ∧ ∃ v, s.agenda.head? = some (.host (.write 0x0014#16 4 v)) ∧ t.len = v)
      ∧ (t.ie ≠ s.ie → ∃ v, s.agenda.head? = some (.host (.write 0x0010#16 4 v)) ∧ t.ie = ⟨v.getLsbD 0, v.getLsbD 1⟩)
      ∧ (s.status.busy = false ∧ t.status.busy = true → AcceptsNext s)
      ∧ (s.status.busy = true ∧ t.status.busy = false → Completes s)
      ∧ (s.status.done = false ∧ t.status.done = true → Completes s ∨ RejectsNext s)
      ∧ (s.status.done = true ∧ t.status.done = false → AcceptsNext s ∨ AcksNext s)
      ∧ (s.status.err = false ∧ t.status.err = true → Raises s ∨ RejectsNext s)
      ∧ (s.status.err = true ∧ t.status.err = false → AcksNext s)
      ∧ (t.errcode ≠ s.errcode → Raises s ∨ RejectsNext s ∨ AcksNext s)
      ∧ (s.status.ovr = false ∧ t.status.ovr = true → OverrunsNext s)
      ∧ (s.status.ovr = true ∧ t.status.ovr = false → AcksNext s)
      ∧ (s.status.inwait = false ∧ t.status.inwait = true → Runs .compress s ∨ Runs .expand s ∨ Runs .expandx s)
      ∧ (s.status.inwait = true ∧ t.status.inwait = false →
          (∃ b, s.agenda.head? = some (.host (.push b))) ∨ s.agenda.head? = some (.host .close))

/-- R67, R79, R81: IN and OUT keep their order, and no byte is duplicated or dropped but by the session end and a reset. -/
def Obligations.StreamsKeepTheirOrder : Prop :=
  ∀ s t : State, LifecycleInv s → step s = .next t →
    (t.sink = s.sink ∨ ∃ v, s.outPend = some v ∧ t.outPend = none ∧ t.sink = s.sink ++ [v])
      ∧ (∀ v, s.outPend = some v → ¬ResetsNext s → (t.outPend = some v ∧ t.sink = s.sink) ∨ (t.outPend = none ∧ t.sink = s.sink ++ [v]))
      ∧ (t.inPort.buf = s.inPort.buf
        ∨ (t.inPort.buf = s.inPort.buf.tail ∧ s.status.busy = true)
        ∨ (∃ b, s.agenda.head? = some (.host (.push b)) ∧ t.inPort.buf = s.inPort.buf ++ [b])
        ∨ (t.inPort.buf = [] ∧ (ResetsNext s
          ∨ ((Runs .compress s ∨ Runs .expand s ∨ Runs .expandx s) ∧ Completes s))))

/-! ## The register port -/

/-- R62, R20: what every aligned address names: the twelve control registers, FREQ, the NODE and CODE windows, and the reserved
ranges. -/
def Obligations.AddressMapIsAsSpecified : Prop :=
  (decodeAddr 0x0000#16 = .id ∧ decodeAddr 0x0004#16 = .cmd ∧ decodeAddr 0x0008#16 = .status ∧ decodeAddr 0x000C#16 = .errcode
    ∧ decodeAddr 0x0010#16 = .ie ∧ decodeAddr 0x0014#16 = .len ∧ decodeAddr 0x0018#16 = .bytecnt
    ∧ decodeAddr 0x001C#16 = .bitcntLo ∧ decodeAddr 0x0020#16 = .bitcntHi ∧ decodeAddr 0x0024#16 = .nleaf
    ∧ decodeAddr 0x0028#16 = .nnode ∧ decodeAddr 0x002C#16 = .root)
    ∧ (∀ x, decodeAddr (Program.freqAddr x) = .freq x ∧ (Program.freqAddr x).toNat = 0x0400 + 4 * x.toNat)
    ∧ (∀ n w, decodeAddr (Program.nodeAddr n w) = .node n w
      ∧ (Program.nodeAddr n w).toNat = 0x1000 + 16 * n.toNat + 4 * w.toNat)
    ∧ (∀ x w, decodeAddr (Program.codeAddr x w) = .code x w
      ∧ (Program.codeAddr x w).toNat = 0x4000 + 64 * x.toNat + 4 * w.toNat)
    ∧ ∀ a : Addr, decodeAddr a = .reserved ↔
        (0x0030 ≤ a.toNat ∧ a.toNat < 0x0400) ∨ (0x0800 ≤ a.toNat ∧ a.toNat < 0x1000) ∨ (0x3000 ≤ a.toNat ∧ a.toNat < 0x4000)
          ∨ 0x8000 ≤ a.toNat

/-- R63, R65, R104, R108, R109, R110: what a host write does at each address but CMD's. -/
def Obligations.HostWritesAreAsSpecified : Prop :=
  ∀ (s : State) (a : Addr) (v : Word) (rest : List Move), s.agenda = .host (.write a 4 v) :: rest → a.toNat % 4 = 0 →
    (a = 0x0010#16 → step s = .next { s with agenda := rest, ie := ⟨v.getLsbD 0, v.getLsbD 1⟩ })
      ∧ (a = 0x0014#16 ∧ s.status.busy = false → step s = .next { s with agenda := rest, len := v })
      ∧ (∀ x, a = Program.freqAddr x ∧ s.status.busy = false →
        ∃ f, step s = .next { s with agenda := rest, freq := f } ∧ freqAt f x = v ∧ ∀ y, y ≠ x → freqAt f y = freqAt s.freq y)
      ∧ ((a = 0x0014#16 ∨ ∃ x, a = Program.freqAddr x) ∧ s.status.busy = true →
        step s = .next { s with agenda := rest, status.ovr := true })
      ∧ (a ≠ 0x0004#16 ∧ a ≠ 0x0010#16 ∧ a ≠ 0x0014#16 ∧ (∀ x, a ≠ Program.freqAddr x) → step s = .next { s with agenda := rest })

/-- R65, R111, R251, R63: a read changes nothing in the block. At BUSY = 0, and at any time for ID, STATUS, ERRCODE, IE and a
reserved address, the host gets the word of the layout; for a reserved address that is the model's reading (log 8). Otherwise it
gets some word. -/
def Obligations.ReadsChangeNothing : Prop :=
  ∀ (s : State) (a : Addr) (rest : List Move), s.agenda = .host (.read a 4) :: rest → a.toNat % 4 = 0 →
    (s.status.busy = false ∨ a = 0x0000#16 ∨ a = 0x0008#16 ∨ a = 0x000C#16 ∨ a = 0x0010#16 ∨ decodeAddr a = .reserved →
      step s = .next { s with agenda := rest, readLog := s.readLog ++ [(a, portValue s (decodeAddr a))] })
      ∧ ∃ v d, step s = .next { s with agenda := rest, readLog := s.readLog ++ [(a, v)], draws := d }

/-- R66, R36, R42, R45: a value spread over several words stands least significant word first. -/
def Obligations.WideValuesReadLowWordFirst : Prop :=
  ∀ (s : State),
    portValue s (decodeAddr 0x0020#16) ++ portValue s (decodeAddr 0x001C#16) = s.bitcnt
      ∧ (∀ n : NodeIdx, n ≠ 511#9 →
        (portValue s (decodeAddr (Program.nodeAddr n 2#2))).extractLsb' 0 8 ++ portValue s (decodeAddr (Program.nodeAddr n 1#2))
            = (nodeAt s.node n).frq
          ∧ (portValue s (decodeAddr (Program.nodeAddr n 2#2))).toNat < 2 ^ 8)
      ∧ ∀ x : Sym,
          portValue s (decodeAddr (Program.codeAddr x 8#4)) ++ portValue s (decodeAddr (Program.codeAddr x 7#4))
            ++ portValue s (decodeAddr (Program.codeAddr x 6#4)) ++ portValue s (decodeAddr (Program.codeAddr x 5#4))
            ++ portValue s (decodeAddr (Program.codeAddr x 4#4)) ++ portValue s (decodeAddr (Program.codeAddr x 3#4))
            ++ portValue s (decodeAddr (Program.codeAddr x 2#4)) ++ portValue s (decodeAddr (Program.codeAddr x 1#4))
            = (codeAt s.code x).cword

/-- R23, R32, R33, R210: the bits of STATUS, ERRCODE and IE. -/
def Obligations.StatusErrcodeAndIeWords : Prop :=
  ∀ s : State,
    (portValue s .status).getLsbD 0 = s.status.busy ∧ (portValue s .status).getLsbD 1 = s.status.done
      ∧ (portValue s .status).getLsbD 2 = s.status.err ∧ (portValue s .status).getLsbD 3 = s.status.ovr
      ∧ (portValue s .status).getLsbD 4 = s.status.tv ∧ (portValue s .status).getLsbD 5 = s.status.cv
      ∧ (portValue s .status).getLsbD 6 = s.status.partialWalk ∧ (portValue s .status).getLsbD 7 = s.status.inwait
      ∧ (portValue s .status).toNat < 2 ^ 8
      ∧ (portValue s .ie).getLsbD 0 = s.ie.doneIe ∧ (portValue s .ie).getLsbD 1 = s.ie.errIe ∧ (portValue s .ie).toNat < 2 ^ 2
      ∧ (portValue s .errcode).toNat = match s.errcode with
        | .none => 0 | .illegalCmd => 1 | .emptyInput => 2 | .unknownSymbol => 3 | .corruptTree => 4 | .noTree => 5
        | .noCode => 6 | .truncated => 7

/-- R21, R22, R34, R35, R37 to R40, R63: the word the layout gives each register that holds one value, in any state. A read returns
that word at BUSY = 0; while BUSY = 1 it does so only where R251 says so (`ReadsChangeNothing`, log 8). With
`WideValuesReadLowWordFirst`, `StatusErrcodeAndIeWords` and `WindowWordsHoldTheirFields` this is the whole layout. -/
def Obligations.RegistersReadTheirValues : Prop :=
  ∀ s : State,
    portValue s .id = 0x48554646#32 ∧ portValue s .cmd = 0#32 ∧ portValue s .reserved = 0#32
      ∧ portValue s .len = s.len ∧ portValue s .bytecnt = s.bytecnt
      ∧ (portValue s .nleaf).toNat = s.nleaf.toNat ∧ (portValue s .nnode).toNat = s.nnode.toNat
      ∧ (portValue s .root).toNat = s.root.toNat ∧ ∀ x, portValue s (.freq x) = freqAt s.freq x

/-- R42, R45: the words the layout gives the NODE and CODE windows: KIND, VALID and SYM in word 0 of a node, LEFT and RIGHT in word 3, all else
zero, and all four words of index 511 zero; CLEN alone in word 0 of a code, and words 9 to 15 zero. -/
def Obligations.WindowWordsHoldTheirFields : Prop :=
  ∀ s : State,
    (∀ n : NodeIdx, n ≠ 511#9 →
      (portValue s (.node n 0#2)).getLsbD 31 = decide ((nodeAt s.node n).kind = .internal)
        ∧ (portValue s (.node n 0#2)).getLsbD 30 = decide (n.toNat < s.nnode.toNat)
        ∧ (portValue s (.node n 0#2)).extractLsb' 8 22 = 0#22
        ∧ (portValue s (.node n 0#2)).extractLsb' 0 8 = (nodeAt s.node n).sym
        ∧ (portValue s (.node n 3#2)).extractLsb' 0 9 = (nodeAt s.node n).left
        ∧ (portValue s (.node n 3#2)).extractLsb' 9 7 = 0#7
        ∧ (portValue s (.node n 3#2)).extractLsb' 16 9 = (nodeAt s.node n).right
        ∧ (portValue s (.node n 3#2)).extractLsb' 25 7 = 0#7)
      ∧ (∀ w, portValue s (.node 511#9 w) = 0#32)
      ∧ ∀ x : Sym, (portValue s (.code x 0#4)).toNat = (codeAt s.code x).clen.toNat
        ∧ ∀ w : BitVec 4, 9 ≤ w.toNat → portValue s (.code x w) = 0#32

/-- R217, R52, R25: the IRQ line. SRST ends it; acceptance of any command ends its DONE source; completion raises it if DONE_IE is
set, and an error that was raised keeps it up if ERR_IE is set. The engine's turn that raises an error raises it if either is set,
because it sets ERR and DONE in the same step (R213, log 27). -/
def Obligations.IrqFollowsDoneAndErr : Prop :=
  ∀ s : State,
    (∃ t, exec .srst s = .next t ∧ irq t = false)
      ∧ (∀ c, setsBusy c = true → s.status.busy = false → ∃ t, exec c s = .next t ∧ irq t = (s.status.err && s.ie.errIe))
      ∧ (∀ c, s.engine = some (c, .complete) →
        ∃ t, engineStep s = some t ∧ irq t = (s.ie.doneIe || (s.status.err && s.ie.errIe)))
      ∧ (∀ c e, s.engine = some (c, .raising e) → irq (engineTurn s) = (s.ie.doneIe || s.ie.errIe))

/-! ## BUILD -/

/-- R133, R131: with every FREQ entry 0, BUILD raises EMPTY_INPUT and leaves no tree and no code table. -/
def Obligations.BuildOfNothingRaisesEmptyInput : Prop :=
  ∀ s : State, s.status.busy = false → (∀ x, freqAt s.freq x = 0#32) →
    ∃ t k u, exec .build s = .next t ∧ engineRun k t = u
      ∧ (∀ n, nodeAt u.node n = Node.zero) ∧ (∀ x, codeAt u.code x = Code.zero)
      ∧ u = { s with
          status := { s.status with busy := false, done := true, inwait := false, err := true, tv := false, cv := false }
          errcode := if s.status.err then s.errcode else .emptyInput
          nleaf := 0#9
          nnode := 0#10
          root := 0#9
          node := u.node
          code := u.code
          forest := u.forest
          engine := none }

/-- R132, R134, R139, R140, R43, R144: BUILD on a vector with a positive count builds one tree: the leaves are the symbols with a
count, in ascending order, each with its count; ROOT is the last node, NNODE is 2 NLEAF - 1, the root's frequency is the sum
of all counts, one TRACE event is sent per merge; the code table is cleared. Nothing else changes. -/
def Obligations.BuildBuildsTheTree : Prop :=
  ∀ s : State, s.status.busy = false → (∃ x, 0#32 < freqAt s.freq x) →
    ∃ t k u, exec .build s = .next t ∧ engineRun k t = u
      ∧ ArenaInv u [u.root] ∧ LeavesOf u s.freq
      ∧ u.root.toNat + 1 = u.nnode.toNat ∧ u.nnode.toNat + 1 = 2 * u.nleaf.toNat
      ∧ (nodeAt u.node u.root).frq.toNat = ((List.range 256).map fun x => (freqAt s.freq (BitVec.ofNat 8 x)).toNat).sum
      ∧ (∃ evs : List MergeEvent, u.traceSent = s.traceSent ++ evs ∧ evs.length + 1 = u.nleaf.toNat)
      ∧ (∀ x, codeAt u.code x = Code.zero)
      ∧ u = { s with
          status := { s.status with busy := false, done := true, inwait := false, tv := true, cv := false }
          nleaf := u.nleaf
          nnode := u.nnode
          root := u.root
          node := u.node
          code := u.code
          forest := u.forest
          engine := none
          traceSent := u.traceSent
          traceSeen := u.traceSeen
          draws := u.draws }

/-- R144 (d), R143 (e): BUILD is a function of FREQ alone: from any two idle states with the same vector it leaves the same tree
and sends the same events. -/
def Obligations.BuildDependsOnFreqAlone : Prop :=
  ∀ s s' : State, s.status.busy = false → s'.status.busy = false → s.freq = s'.freq →
    ∃ t t' k evs, exec .build s = .next t ∧ exec .build s' = .next t'
      ∧ (engineRun k t).status.busy = false ∧ (engineRun k t').status.busy = false
      ∧ (engineRun k t).node = (engineRun k t').node ∧ (engineRun k t).nleaf = (engineRun k t').nleaf
      ∧ (engineRun k t).nnode = (engineRun k t').nnode ∧ (engineRun k t).root = (engineRun k t').root
      ∧ (engineRun k t).status.tv = (engineRun k t').status.tv
      ∧ (engineRun k t).traceSent = s.traceSent ++ evs ∧ (engineRun k t').traceSent = s'.traceSent ++ evs

/-- R136: the scan gives the first and the second minimum in the order of (frequency, position). -/
def Obligations.SelectFindsTheTwoMinima : Prop :=
  ∀ l : List Frq, 2 ≤ l.length →
    (select l).1 < l.length ∧ (select l).2 < l.length ∧ (select l).1 ≠ (select l).2
      ∧ ∀ j, j < l.length →
          (l.getD (select l).1 0#40 < l.getD j 0#40 ∨ (l.getD (select l).1 0#40 = l.getD j 0#40 ∧ (select l).1 ≤ j))
            ∧ (j ≠ (select l).1 →
              l.getD (select l).2 0#40 < l.getD j 0#40 ∨ (l.getD (select l).2 0#40 = l.getD j 0#40 ∧ (select l).2 ≤ j))

/-- R137, R138, R139, R82: one merge. The strictly smaller frequency goes right, of equal ones the first met goes left; the new
node takes the lower position and the higher one is removed; NNODE counts it; one TRACE event says it. Nothing else changes. -/
def Obligations.MergePlacesTheChildren : Prop :=
  ∀ (s : State) (c : Instr) (i1 i2 : Nat), s.engine = some (c, .buildLoop) → 2 ≤ s.forest.length → s.nnode.toNat < 511 →
    select (s.forest.map fun m => (nodeAt s.node m).frq) = (i1, i2) →
      ∃ u, engineStep s = some u
        ∧ (let a := s.forest.getD i1 0#9
           let b := s.forest.getD i2 0#9
           let fa := (nodeAt s.node a).frq
           let fb := (nodeAt s.node b).frq
           let n := s.nnode.setWidth 9
           let e : Node := ⟨.internal, 0#8, fa + fb, if fa < fb then b else a, if fa < fb then a else b⟩
           nodeAt u.node n = e ∧ (∀ m, m ≠ n → nodeAt u.node m = nodeAt s.node m)
             ∧ u = { s with
                 status.inwait := false
                 engine := some (c, .buildLoop)
                 node := u.node
                 nnode := s.nnode + 1#10
                 forest := (s.forest.set (min i1 i2) n).eraseIdx (max i1 i2)
                 traceSent := s.traceSent ++ [⟨s.nnode.toNat - s.nleaf.toNat, n, e.left, e.right, e.frq, min i1 i2,
                   ((s.forest.set (min i1 i2) n).eraseIdx (max i1 i2)).length⟩]
                 traceSeen := u.traceSeen
                 draws := u.draws })

/-! ## DERIVE -/

/-- R150, R152, R154: DERIVE on a tree gives every leaf's symbol its path's code, and no other symbol a code; CV rises. Nothing
else changes. -/
def Obligations.DeriveDerivesTheCodes : Prop :=
  ∀ s : State, s.status.busy = false → s.status.tv = true → ArenaInv s [s.root] →
    ∃ t k u, exec .derive s = .next t ∧ engineRun k t = u ∧ CodesMatch u
      ∧ u = { s with
          status := { s.status with busy := false, done := true, inwait := false, cv := true }
          code := u.code
          stack := u.stack
          engine := none }

/-- R151: a tree that is a single Leaf gives its symbol the code "0", CLEN 1 and CWORD 0, and no other symbol a code. The root is a
Leaf exactly when NLEAF = 1. -/
def Obligations.SingleLeafGetsTheCodeZero : Prop :=
  (∀ s : State, ArenaInv s [s.root] → ((nodeAt s.node s.root).kind = .leaf ↔ s.nleaf = 1#9))
  ∧ ∀ s : State, s.status.busy = false → s.status.tv = true → (nodeAt s.node s.root).kind = .leaf →
    ∃ t k u, exec .derive s = .next t ∧ engineRun k t = u
      ∧ codeAt u.code (nodeAt s.node s.root).sym = ⟨1#8, 0#256⟩
      ∧ (∀ x, x ≠ (nodeAt s.node s.root).sym → codeAt u.code x = Code.zero)
      ∧ u = { s with
          status := { s.status with busy := false, done := true, inwait := false, cv := true }
          code := u.code
          stack := u.stack
          engine := none }

/-- R154 (b): no code is a prefix of another symbol's code. -/
def Obligations.CodesArePrefixFree : Prop :=
  ∀ s : State, ArenaInv s [s.root] → CodesMatch s →
    ∀ x y : Sym, x ≠ y → (codeAt s.code x).clen ≠ 0#8 → (codeAt s.code y).clen ≠ 0#8 →
      ¬codeBits (codeAt s.code x) <+: codeBits (codeAt s.code y)

/-- R154 (c): in a tree of two leaves or more, the sum over the coded symbols of 2^(-CLEN) is 1, here times 2^255. -/
def Obligations.KraftSumIsOne : Prop :=
  ∀ s : State, ArenaInv s [s.root] → CodesMatch s → 2 ≤ s.nleaf.toNat →
    ((List.range 256).map fun x =>
        let c := codeAt s.code (BitVec.ofNat 8 x)
        if c.clen = 0#8 then 0 else 2 ^ (255 - c.clen.toNat)).sum = 2 ^ 255

/-- R154 (a), (d): exactly the leaves' symbols have codes; their lengths are at most NLEAF - 1 in a tree of two leaves or more,
and 1 in a tree of one or two. -/
def Obligations.CodeLengthsAreBounded : Prop :=
  ∀ s : State, ArenaInv s [s.root] → CodesMatch s →
    ∀ x : Sym,
      ((codeAt s.code x).clen ≠ 0#8 ↔ ∃ n, n < s.nleaf.toNat ∧ (nodeNo s n).sym = x)
        ∧ ((codeAt s.code x).clen ≠ 0#8 → 2 ≤ s.nleaf.toNat → (codeAt s.code x).clen.toNat ≤ s.nleaf.toNat - 1)
        ∧ ((codeAt s.code x).clen ≠ 0#8 → s.nleaf.toNat ≤ 2 → (codeAt s.code x).clen = 1#8)

/-! ## COMPRESS -/

/-- R165, R168, R169, R172: COMPRESS of a closed input whose bytes all have codes succeeds: the sink receives the concatenation of
the codes, padded with zero bits to whole bytes; BYTECNT counts the bytes and BITCNT the code bits. Nothing else changes. The input
stands in INBUF, closed, and the sink accepts at once (log 6, log 20). -/
def Obligations.CompressPacksTheCodes : Prop :=
  ∀ (s : State) (bs : List Byte), s.status.busy = false → s.status.cv = true → Quiet s → s.inPort = ⟨bs, true⟩ →
    (∀ b ∈ bs, (codeAt s.code b).clen ≠ 0#8) →
      ∃ t u, exec .compress s = .next t ∧ Reaches t u
        ∧ u = { s with
            status := { s.status with busy := false, done := true, inwait := false }
            bytecnt := BitVec.ofNat 32 bs.length
            bitcnt := BitVec.ofNat 64 (streamOf s.code bs).length
            packer := ⟨0#8, 0#3⟩
            reader.rbits := 0#4
            inPort := ⟨[], false⟩
            engine := none
            sink := s.sink ++ packedBytes (streamOf s.code bs) }

/-- R167, R171: COMPRESS raises UNKNOWN_SYMBOL at the first byte without a code: BYTECNT counts it, BITCNT does not, the whole
bytes packed before it stay on OUT, the partial byte is discarded, and so is the rest of IN. -/
def Obligations.CompressStopsAtAnUnknownSymbol : Prop :=
  ∀ (s : State) (pre post : List Byte) (b : Byte) (closed : Bool),
    s.status.busy = false → s.status.cv = true → Quiet s → s.inPort = ⟨pre ++ b :: post, closed⟩ →
    (∀ x ∈ pre, (codeAt s.code x).clen ≠ 0#8) → (codeAt s.code b).clen = 0#8 →
      ∃ t u, exec .compress s = .next t ∧ Reaches t u
        ∧ u = { s with
            status := { s.status with busy := false, done := true, inwait := false, err := true }
            errcode := if s.status.err then s.errcode else .unknownSymbol
            bytecnt := BitVec.ofNat 32 (pre.length + 1)
            bitcnt := BitVec.ofNat 64 (streamOf s.code pre).length
            packer := ⟨0#8, 0#3⟩
            reader.rbits := 0#4
            inPort := ⟨[], false⟩
            engine := none
            sink := s.sink ++ wholeBytes (streamOf s.code pre) }

/-! ## EXPAND and EXPANDX -/

/-- R78, R188, R189, R190: what the walk does with its next bit, which is the most significant bit it has not taken, from the reader
or from the next IN byte: an Internal node gives way to the child the bit selects; at the root of a single-leaf tree 0 reaches the
Leaf and 1, the missing child, raises CORRUPT_TREE. BITCNT counts the bit either way. That a Leaf below the root, which no run
reaches, is read as that root is the model's choice (log 24). -/
def Obligations.WalkMovesOnABit : Prop :=
  ∀ (s : State) (c : Instr) (byte : Byte) (k : BitVec 4) (rest : List Byte), s.engine = some (c, .walkRead) → k.toNat < 8 →
    (s.reader = ⟨byte, k + 1#4⟩ ∧ rest = s.inPort.buf) ∨ (s.reader.rbits = 0#4 ∧ k = 7#4 ∧ s.inPort.buf = byte :: rest) →
      (∀ e, nodeAt s.node s.walk.cur = e → e.kind = .internal →
        engineStep s = some { s with
          status.inwait := false
          engine := some (c, .walkTop)
          reader := ⟨byte, k⟩
          inPort.buf := rest
          bitcnt := s.bitcnt + 1#64
          walk.cur := if byte.getLsbD k.toNat then e.right else e.left
          walk.depth := s.walk.depth + 1#8 })
        ∧ ((nodeAt s.node s.walk.cur).kind = .leaf → byte.getLsbD k.toNat = false →
          engineStep s = some { s with
            status.inwait := false
            engine := some (c, .walkTop)
            reader := ⟨byte, k⟩
            inPort.buf := rest
            bitcnt := s.bitcnt + 1#64
            walk.depth := 1#8 })
        ∧ ((nodeAt s.node s.walk.cur).kind = .leaf → byte.getLsbD k.toNat = true →
          engineStep s = some { s with
            status.inwait := false
            engine := some (c, .raising .corruptTree)
            reader := ⟨byte, k⟩
            inPort.buf := rest
            bitcnt := s.bitcnt + 1#64 })

/-- R187, R185: a leaf that the walk has reached by at least one bit is offered on OUT; once the sink has accepted it, it is
counted, and the walk is at the root again. Before a bit is read, and at an Internal node, nothing is offered. -/
def Obligations.LeafReachedIsEmitted : Prop :=
  (∀ (s t : State) (c : Instr), s.engine = some (c, .walkTop) → s.walk.depth = 0#8 ∨ (nodeAt s.node s.walk.cur).kind = .internal →
    engineStep s = some t → t.outPend = s.outPend)
  ∧ ∀ (s : State) (c : Instr), s.engine = some (c, .walkTop) → s.walk.depth ≠ 0#8 → (nodeAt s.node s.walk.cur).kind = .leaf →
    ∃ t, engineStep s = some t
      ∧ t = { s with
          status.inwait := false
          engine := some (c, .walkOut)
          outPend := some (nodeAt s.node s.walk.cur).sym }
      ∧ engineStep t = none
      ∧ engineStep { t with outPend := none } = some { s with
          status.inwait := false
          engine := some (c, .walkTop)
          outPend := none
          bytecnt := s.bytecnt + 1#32
          walk := { s.walk with cur := s.root, depth := 0#8, emitted := s.walk.emitted + 1#32 } }

/-- R192, R195, R196: where the walk needs a bit and IN is exhausted, EXPAND raises TRUNCATED; EXPANDX ends without an error, with
PARTIAL set if it is inside the tree. What was emitted and counted stays. -/
def Obligations.WalkEndsAtExhaustion : Prop :=
  ∀ (s : State), s.reader.rbits = 0#4 → s.inPort = ⟨[], true⟩ →
    (s.engine = some (.expand, .walkRead) →
      ∃ k, engineRun k s = { s with
        status := { s.status with busy := false, done := true, inwait := false, err := true }
        errcode := if s.status.err then s.errcode else .truncated
        engine := none
        inPort := ⟨[], false⟩
        packer := ⟨0#8, 0#3⟩ })
      ∧ (s.engine = some (.expandx, .walkRead) → s.status.partialWalk = false →
        ∃ k, engineRun k s = { s with
          status := { s.status with
            busy := false, done := true, inwait := false, partialWalk := decide (s.walk.depth ≠ 0#8) }
          engine := none
          inPort := ⟨[], false⟩
          packer := ⟨0#8, 0#3⟩ })

/-- R193 (a): EXPAND with LEN = 0 emits nothing and reads no bit, whatever IN holds, open or closed; it succeeds. -/
def Obligations.ExpandOfLengthZeroReadsNothing : Prop :=
  ∀ s : State, s.status.busy = false → s.status.tv = true → s.len = 0#32 →
    ∃ t k u, exec .expand s = .next t ∧ engineRun k t = u
      ∧ u = { s with
          status := { s.status with busy := false, done := true, inwait := false, partialWalk := false }
          bytecnt := 0#32
          bitcnt := 0#64
          packer := ⟨0#8, 0#3⟩
          reader := ⟨u.reader.rbyte, 0#4⟩
          walk := u.walk
          inPort := ⟨[], false⟩
          engine := none }

/-- R191, R185, R194: EXPAND with LEN = N on the bytes COMPRESS makes of N coded bytes gives those bytes: it reads exactly the code
bits, and no error follows. Nothing else changes. The input stands in INBUF, closed, and the sink accepts at once (log 6,
log 20). -/
def Obligations.ExpandReproducesTheBytes : Prop :=
  ∀ (s : State) (bs : List Byte), s.status.busy = false → s.status.tv = true → ArenaInv s [s.root] → CodesMatch s → Quiet s →
    s.inPort = ⟨packedBytes (streamOf s.code bs), true⟩ → bs.length < 2 ^ 32 → s.len = BitVec.ofNat 32 bs.length →
    (∀ b ∈ bs, (codeAt s.code b).clen ≠ 0#8) →
      ∃ t u, exec .expand s = .next t ∧ Reaches t u
        ∧ u = { s with
            status := { s.status with busy := false, done := true, inwait := false, partialWalk := false }
            bytecnt := s.len
            bitcnt := BitVec.ofNat 64 (streamOf s.code bs).length
            packer := ⟨0#8, 0#3⟩
            reader := ⟨u.reader.rbyte, 0#4⟩
            walk := u.walk
            inPort := ⟨[], false⟩
            engine := none
            sink := s.sink ++ bs }

/-- R197: EXPANDX on the bytes COMPRESS makes gives the original bytes, then as many copies of the symbol `z` with the all-zero
code as whole codes of it fit in the padding; PARTIAL says whether some padding is left over. The input stands in INBUF, closed,
and the sink accepts at once (log 6, log 20). -/
def Obligations.ExpandxAddsTheSpuriousSymbols : Prop :=
  ∀ (s : State) (bs : List Byte) (z : Sym),
    s.status.busy = false → s.status.tv = true → ArenaInv s [s.root] → CodesMatch s → Quiet s →
    s.inPort = ⟨packedBytes (streamOf s.code bs), true⟩ → (∀ b ∈ bs, (codeAt s.code b).clen ≠ 0#8) →
    (codeAt s.code z).clen ≠ 0#8 → (∀ b ∈ codeBits (codeAt s.code z), b = false) →
      ∃ t u, exec .expandx s = .next t ∧ Reaches t u
        ∧ (let p := padding (streamOf s.code bs).length
           let d := (codeAt s.code z).clen.toNat
           u = { s with
             status := { s.status with busy := false, done := true, inwait := false, partialWalk := decide (p % d ≠ 0) }
             bytecnt := BitVec.ofNat 32 (bs.length + p / d)
             bitcnt := BitVec.ofNat 64 ((streamOf s.code bs).length + p)
             packer := ⟨0#8, 0#3⟩
             reader := ⟨u.reader.rbyte, 0#4⟩
             walk := u.walk
             inPort := ⟨[], false⟩
             engine := none
             sink := s.sink ++ bs ++ List.replicate (p / d) z })

/-- R198 (d), R196: on a tree of two leaves or more every bit pattern decodes: EXPANDX of any closed input reads all its bits and
ends without an error. -/
def Obligations.ExpandxDecodesEveryBitPattern : Prop :=
  ∀ (s : State) (bs : List Byte), s.status.busy = false → s.status.tv = true → ArenaInv s [s.root] → 2 ≤ s.nleaf.toNat →
    Quiet s → s.inPort = ⟨bs, true⟩ →
      ∃ t u, exec .expandx s = .next t ∧ Reaches t u ∧ u.status.busy = false ∧ u.status.done = true
        ∧ u.status.err = s.status.err ∧ u.errcode = s.errcode ∧ u.bitcnt = BitVec.ofNat 64 (8 * bs.length)
        ∧ ∃ out, u.sink = s.sink ++ out ∧ u.bytecnt = BitVec.ofNat 32 out.length

/-- R200: the round trip. BUILD, DERIVE and COMPRESS of a non-empty input, whose bytes all have a count, succeed; then EXPAND, with
LEN the BYTECNT that COMPRESS left and IN the bytes COMPRESS emitted, closed, gives the input back, on the tree that was kept and
on the tree of a second BUILD. The input stands in INBUF, however long (log 6: R11 lets no result depend on IN_DEPTH), and the
sink accepts at once (log 20). -/
def Obligations.RoundTripReproducesTheInput : Prop :=
  ∀ (s : State) (bs : List Byte), s.status.busy = false → s.sinkReady = true → s.outPend = none → s.inPort = ⟨bs, true⟩ →
    bs ≠ [] → bs.length < 2 ^ 32 → (∀ b ∈ bs, 0#32 < freqAt s.freq b) →
      ∃ (t : State) (out : List Byte),
        Reaches { s with agenda := Program.run .build ++ Program.run .derive ++ Program.run .compress } t
          ∧ t.agenda = [] ∧ t.status.busy = false ∧ t.status.err = s.status.err
          ∧ t.bytecnt = BitVec.ofNat 32 bs.length ∧ t.sink = s.sink ++ out
          ∧ ∀ again : List Move, again = [] ∨ again = Program.run .build →
            ∃ u : State,
              Reaches
                { t with inPort := ⟨out, true⟩, agenda := again ++ Program.wr 0x0014#16 t.bytecnt ++ Program.run .expand } u
                ∧ u.agenda = [] ∧ u.status.busy = false ∧ u.status.err = s.status.err ∧ u.sink = t.sink ++ bs

/-! ## The stream ports and progress -/

/-- R97, R76, R243, R244: PUSH and CLOSE may come after the command as well as before it, with the same result, because the engine
waits for IN. However the engine's turns fall between the host's moves (R244; an interleaving is an agenda, the model's choice of
log 2), the host program that issues COMPRESS and then pushes its input, of any length, closes IN and waits ends as
`CompressPacksTheCodes` says, and so does the one that pushes and closes first, where the input fits in INBUF. So it is with EXPAND of
LEN = N and `ExpandReproducesTheBytes`, but that whether IN ends closed is left open: EXPAND may complete between the last PUSH and
the CLOSE, which then falls in the next session. And so with EXPANDX and `ExpandxAddsTheSpuriousSymbols`. The sink accepts at once
(log 20). -/
def Obligations.InputMayFollowItsCommand : Prop :=
  ∀ (s : State) (bs ins : List Byte) (c : Instr) (moves program : List Move),
    s.status.busy = false → s.sinkReady = true → s.outPend = none → s.inPort = ⟨[], false⟩ →
    (∀ b ∈ bs, (codeAt s.code b).clen ≠ 0#8) →
    moves.filter (fun m => decide (m ≠ .engine)) = program →
    program = Program.cmd c ++ Program.push ins ++ Program.close ++ Program.wait
      ∨ (program = Program.push ins ++ Program.close ++ Program.cmd c ++ Program.wait ∧ ins.length ≤ Config.inDepth) →
      (c = .compress → s.status.cv = true → ins = bs →
        ∃ u, Reaches { s with agenda := moves } u
          ∧ u = { s with
              agenda := []
              status := { s.status with busy := false, done := true, inwait := false }
              bytecnt := BitVec.ofNat 32 bs.length
              bitcnt := BitVec.ofNat 64 (streamOf s.code bs).length
              packer := ⟨0#8, 0#3⟩
              reader.rbits := 0#4
              engine := none
              sink := s.sink ++ packedBytes (streamOf s.code bs) })
        ∧ (c = .expand → s.status.tv = true → ArenaInv s [s.root] → CodesMatch s → ins = packedBytes (streamOf s.code bs) →
          bs.length < 2 ^ 32 → s.len = BitVec.ofNat 32 bs.length →
          ∃ u, Reaches { s with agenda := moves } u
            ∧ u = { s with
                agenda := []
                status := { s.status with busy := false, done := true, inwait := false, partialWalk := false }
                bytecnt := s.len
                bitcnt := BitVec.ofNat 64 (streamOf s.code bs).length
                packer := ⟨0#8, 0#3⟩
                reader := ⟨u.reader.rbyte, 0#4⟩
                walk := u.walk
                inPort.closed := u.inPort.closed
                engine := none
                sink := s.sink ++ bs })
        ∧ (c = .expandx → s.status.tv = true → ArenaInv s [s.root] → CodesMatch s → ins = packedBytes (streamOf s.code bs) →
          ∀ z : Sym, (codeAt s.code z).clen ≠ 0#8 → (∀ b ∈ codeBits (codeAt s.code z), b = false) →
          ∃ u, Reaches { s with agenda := moves } u
            ∧ (let p := padding (streamOf s.code bs).length
               let d := (codeAt s.code z).clen.toNat
               u = { s with
                 agenda := []
                 status := { s.status with busy := false, done := true, inwait := false, partialWalk := decide (p % d ≠ 0) }
                 bytecnt := BitVec.ofNat 32 (bs.length + p / d)
                 bitcnt := BitVec.ofNat 64 ((streamOf s.code bs).length + p)
                 packer := ⟨0#8, 0#3⟩
                 reader := ⟨u.reader.rbyte, 0#4⟩
                 walk := u.walk
                 engine := none
                 sink := s.sink ++ bs ++ List.replicate (p / d) z }))

/-- R76: a Push is accepted when IN is open and INBUF has room, and the byte goes to its end; otherwise it waits, and the byte is
not lost. A Close always takes effect. Both end INWAIT. -/
def Obligations.PushesAreAcceptedOrWait : Prop :=
  ∀ (s : State) (b : Byte) (rest : List Move),
    (s.agenda = .host (.push b) :: rest → s.inPort.closed = false → s.inPort.buf.length < Config.inDepth →
      step s = .next { s with agenda := rest, inPort.buf := s.inPort.buf ++ [b], status.inwait := false })
      ∧ (s.agenda = .host (.push b) :: rest → s.inPort.closed = true ∨ Config.inDepth ≤ s.inPort.buf.length →
        ∃ t, step s = .next t ∧ t.agenda = s.agenda)
      ∧ (s.agenda = .host .close :: rest →
        step s = .next { s with agenda := rest, inPort.closed := true, status.inwait := false })

/-- R256: when the sink takes every byte at once (log 20) and IN is closed, every command completes. -/
def Obligations.EveryCommandCompletes : Prop :=
  ∀ s : State, LifecycleInv s → TreeInv s → s.agenda = [] → s.sinkReady = true → s.inPort.closed = true →
    ∃ t, Reaches s t ∧ t.status.busy = false
end

