-- ==== Sys2Proof/Laws/State.lean ====
section
/-! SUPPORT. What each shared update of State does to each field: one lemma per field per update, so that no later proof unfolds a
record update. -/

namespace Sys2Proof.Machine

/-! ## `goTo` (R31, log 10) -/

@[simp] theorem goTo_status (c : Instr) (p : Point) (s : State) : (goTo c p s).status = { s.status with inwait := heldAtIn p s.reader s.inPort } := rfl
@[simp] theorem goTo_errcode (c : Instr) (p : Point) (s : State) : (goTo c p s).errcode = s.errcode := rfl
@[simp] theorem goTo_ie (c : Instr) (p : Point) (s : State) : (goTo c p s).ie = s.ie := rfl
@[simp] theorem goTo_len (c : Instr) (p : Point) (s : State) : (goTo c p s).len = s.len := rfl
@[simp] theorem goTo_bytecnt (c : Instr) (p : Point) (s : State) : (goTo c p s).bytecnt = s.bytecnt := rfl
@[simp] theorem goTo_bitcnt (c : Instr) (p : Point) (s : State) : (goTo c p s).bitcnt = s.bitcnt := rfl
@[simp] theorem goTo_nleaf (c : Instr) (p : Point) (s : State) : (goTo c p s).nleaf = s.nleaf := rfl
@[simp] theorem goTo_nnode (c : Instr) (p : Point) (s : State) : (goTo c p s).nnode = s.nnode := rfl
@[simp] theorem goTo_root (c : Instr) (p : Point) (s : State) : (goTo c p s).root = s.root := rfl
@[simp] theorem goTo_freq (c : Instr) (p : Point) (s : State) : (goTo c p s).freq = s.freq := rfl
@[simp] theorem goTo_node (c : Instr) (p : Point) (s : State) : (goTo c p s).node = s.node := rfl
@[simp] theorem goTo_code (c : Instr) (p : Point) (s : State) : (goTo c p s).code = s.code := rfl
@[simp] theorem goTo_forest (c : Instr) (p : Point) (s : State) : (goTo c p s).forest = s.forest := rfl
@[simp] theorem goTo_packer (c : Instr) (p : Point) (s : State) : (goTo c p s).packer = s.packer := rfl
@[simp] theorem goTo_reader (c : Instr) (p : Point) (s : State) : (goTo c p s).reader = s.reader := rfl
@[simp] theorem goTo_walk (c : Instr) (p : Point) (s : State) : (goTo c p s).walk = s.walk := rfl
@[simp] theorem goTo_stack (c : Instr) (p : Point) (s : State) : (goTo c p s).stack = s.stack := rfl
@[simp] theorem goTo_engine (c : Instr) (p : Point) (s : State) : (goTo c p s).engine = some (c, p) := rfl
@[simp] theorem goTo_inPort (c : Instr) (p : Point) (s : State) : (goTo c p s).inPort = s.inPort := rfl
@[simp] theorem goTo_outPend (c : Instr) (p : Point) (s : State) : (goTo c p s).outPend = s.outPend := rfl
@[simp] theorem goTo_agenda (c : Instr) (p : Point) (s : State) : (goTo c p s).agenda = s.agenda := rfl
@[simp] theorem goTo_sinkReady (c : Instr) (p : Point) (s : State) : (goTo c p s).sinkReady = s.sinkReady := rfl
@[simp] theorem goTo_sink (c : Instr) (p : Point) (s : State) : (goTo c p s).sink = s.sink := rfl
@[simp] theorem goTo_traceSent (c : Instr) (p : Point) (s : State) : (goTo c p s).traceSent = s.traceSent := rfl
@[simp] theorem goTo_traceSeen (c : Instr) (p : Point) (s : State) : (goTo c p s).traceSeen = s.traceSeen := rfl
@[simp] theorem goTo_readLog (c : Instr) (p : Point) (s : State) : (goTo c p s).readLog = s.readLog := rfl
@[simp] theorem goTo_draws (c : Instr) (p : Point) (s : State) : (goTo c p s).draws = s.draws := rfl

/-! ## `ignoreWrite` (R104) -/

@[simp] theorem ignoreWrite_status (s : State) : (ignoreWrite s).status = { s.status with ovr := true } := rfl
@[simp] theorem ignoreWrite_errcode (s : State) : (ignoreWrite s).errcode = s.errcode := rfl
@[simp] theorem ignoreWrite_ie (s : State) : (ignoreWrite s).ie = s.ie := rfl
@[simp] theorem ignoreWrite_len (s : State) : (ignoreWrite s).len = s.len := rfl
@[simp] theorem ignoreWrite_bytecnt (s : State) : (ignoreWrite s).bytecnt = s.bytecnt := rfl
@[simp] theorem ignoreWrite_bitcnt (s : State) : (ignoreWrite s).bitcnt = s.bitcnt := rfl
@[simp] theorem ignoreWrite_nleaf (s : State) : (ignoreWrite s).nleaf = s.nleaf := rfl
@[simp] theorem ignoreWrite_nnode (s : State) : (ignoreWrite s).nnode = s.nnode := rfl
@[simp] theorem ignoreWrite_root (s : State) : (ignoreWrite s).root = s.root := rfl
@[simp] theorem ignoreWrite_freq (s : State) : (ignoreWrite s).freq = s.freq := rfl
@[simp] theorem ignoreWrite_node (s : State) : (ignoreWrite s).node = s.node := rfl
@[simp] theorem ignoreWrite_code (s : State) : (ignoreWrite s).code = s.code := rfl
@[simp] theorem ignoreWrite_forest (s : State) : (ignoreWrite s).forest = s.forest := rfl
@[simp] theorem ignoreWrite_packer (s : State) : (ignoreWrite s).packer = s.packer := rfl
@[simp] theorem ignoreWrite_reader (s : State) : (ignoreWrite s).reader = s.reader := rfl
@[simp] theorem ignoreWrite_walk (s : State) : (ignoreWrite s).walk = s.walk := rfl
@[simp] theorem ignoreWrite_stack (s : State) : (ignoreWrite s).stack = s.stack := rfl
@[simp] theorem ignoreWrite_engine (s : State) : (ignoreWrite s).engine = s.engine := rfl
@[simp] theorem ignoreWrite_inPort (s : State) : (ignoreWrite s).inPort = s.inPort := rfl
@[simp] theorem ignoreWrite_outPend (s : State) : (ignoreWrite s).outPend = s.outPend := rfl
@[simp] theorem ignoreWrite_agenda (s : State) : (ignoreWrite s).agenda = s.agenda := rfl
@[simp] theorem ignoreWrite_sinkReady (s : State) : (ignoreWrite s).sinkReady = s.sinkReady := rfl
@[simp] theorem ignoreWrite_sink (s : State) : (ignoreWrite s).sink = s.sink := rfl
@[simp] theorem ignoreWrite_traceSent (s : State) : (ignoreWrite s).traceSent = s.traceSent := rfl
@[simp] theorem ignoreWrite_traceSeen (s : State) : (ignoreWrite s).traceSeen = s.traceSeen := rfl
@[simp] theorem ignoreWrite_readLog (s : State) : (ignoreWrite s).readLog = s.readLog := rfl
@[simp] theorem ignoreWrite_draws (s : State) : (ignoreWrite s).draws = s.draws := rfl

/-! ## `acceptCommand` (R101) -/

@[simp] theorem acceptCommand_status (c : Instr) (s : State) : (acceptCommand c s).status = { s.status with busy := true, done := false, inwait := false } := rfl
@[simp] theorem acceptCommand_errcode (c : Instr) (s : State) : (acceptCommand c s).errcode = s.errcode := rfl
@[simp] theorem acceptCommand_ie (c : Instr) (s : State) : (acceptCommand c s).ie = s.ie := rfl
@[simp] theorem acceptCommand_len (c : Instr) (s : State) : (acceptCommand c s).len = s.len := rfl
@[simp] theorem acceptCommand_bytecnt (c : Instr) (s : State) : (acceptCommand c s).bytecnt = s.bytecnt := rfl
@[simp] theorem acceptCommand_bitcnt (c : Instr) (s : State) : (acceptCommand c s).bitcnt = s.bitcnt := rfl
@[simp] theorem acceptCommand_nleaf (c : Instr) (s : State) : (acceptCommand c s).nleaf = s.nleaf := rfl
@[simp] theorem acceptCommand_nnode (c : Instr) (s : State) : (acceptCommand c s).nnode = s.nnode := rfl
@[simp] theorem acceptCommand_root (c : Instr) (s : State) : (acceptCommand c s).root = s.root := rfl
@[simp] theorem acceptCommand_freq (c : Instr) (s : State) : (acceptCommand c s).freq = s.freq := rfl
@[simp] theorem acceptCommand_node (c : Instr) (s : State) : (acceptCommand c s).node = s.node := rfl
@[simp] theorem acceptCommand_code (c : Instr) (s : State) : (acceptCommand c s).code = s.code := rfl
@[simp] theorem acceptCommand_forest (c : Instr) (s : State) : (acceptCommand c s).forest = s.forest := rfl
@[simp] theorem acceptCommand_packer (c : Instr) (s : State) : (acceptCommand c s).packer = s.packer := rfl
@[simp] theorem acceptCommand_reader (c : Instr) (s : State) : (acceptCommand c s).reader = s.reader := rfl
@[simp] theorem acceptCommand_walk (c : Instr) (s : State) : (acceptCommand c s).walk = s.walk := rfl
@[simp] theorem acceptCommand_stack (c : Instr) (s : State) : (acceptCommand c s).stack = s.stack := rfl
@[simp] theorem acceptCommand_engine (c : Instr) (s : State) : (acceptCommand c s).engine = some (c, .start) := rfl
@[simp] theorem acceptCommand_inPort (c : Instr) (s : State) : (acceptCommand c s).inPort = s.inPort := rfl
@[simp] theorem acceptCommand_outPend (c : Instr) (s : State) : (acceptCommand c s).outPend = s.outPend := rfl
@[simp] theorem acceptCommand_agenda (c : Instr) (s : State) : (acceptCommand c s).agenda = s.agenda := rfl
@[simp] theorem acceptCommand_sinkReady (c : Instr) (s : State) : (acceptCommand c s).sinkReady = s.sinkReady := rfl
@[simp] theorem acceptCommand_sink (c : Instr) (s : State) : (acceptCommand c s).sink = s.sink := rfl
@[simp] theorem acceptCommand_traceSent (c : Instr) (s : State) : (acceptCommand c s).traceSent = s.traceSent := rfl
@[simp] theorem acceptCommand_traceSeen (c : Instr) (s : State) : (acceptCommand c s).traceSeen = s.traceSeen := rfl
@[simp] theorem acceptCommand_readLog (c : Instr) (s : State) : (acceptCommand c s).readLog = s.readLog := rfl
@[simp] theorem acceptCommand_draws (c : Instr) (s : State) : (acceptCommand c s).draws = s.draws := rfl

/-! ## `sessionEnd` (R81) -/

@[simp] theorem sessionEnd_status (s : State) : (sessionEnd s).status = s.status := rfl
@[simp] theorem sessionEnd_errcode (s : State) : (sessionEnd s).errcode = s.errcode := rfl
@[simp] theorem sessionEnd_ie (s : State) : (sessionEnd s).ie = s.ie := rfl
@[simp] theorem sessionEnd_len (s : State) : (sessionEnd s).len = s.len := rfl
@[simp] theorem sessionEnd_bytecnt (s : State) : (sessionEnd s).bytecnt = s.bytecnt := rfl
@[simp] theorem sessionEnd_bitcnt (s : State) : (sessionEnd s).bitcnt = s.bitcnt := rfl
@[simp] theorem sessionEnd_nleaf (s : State) : (sessionEnd s).nleaf = s.nleaf := rfl
@[simp] theorem sessionEnd_nnode (s : State) : (sessionEnd s).nnode = s.nnode := rfl
@[simp] theorem sessionEnd_root (s : State) : (sessionEnd s).root = s.root := rfl
@[simp] theorem sessionEnd_freq (s : State) : (sessionEnd s).freq = s.freq := rfl
@[simp] theorem sessionEnd_node (s : State) : (sessionEnd s).node = s.node := rfl
@[simp] theorem sessionEnd_code (s : State) : (sessionEnd s).code = s.code := rfl
@[simp] theorem sessionEnd_forest (s : State) : (sessionEnd s).forest = s.forest := rfl
@[simp] theorem sessionEnd_packer (s : State) : (sessionEnd s).packer = ⟨0#8, 0#3⟩ := rfl
@[simp] theorem sessionEnd_reader (s : State) : (sessionEnd s).reader = { s.reader with rbits := 0#4 } := rfl
@[simp] theorem sessionEnd_walk (s : State) : (sessionEnd s).walk = s.walk := rfl
@[simp] theorem sessionEnd_stack (s : State) : (sessionEnd s).stack = s.stack := rfl
@[simp] theorem sessionEnd_engine (s : State) : (sessionEnd s).engine = s.engine := rfl
@[simp] theorem sessionEnd_inPort (s : State) : (sessionEnd s).inPort = ⟨[], false⟩ := rfl
@[simp] theorem sessionEnd_outPend (s : State) : (sessionEnd s).outPend = s.outPend := rfl
@[simp] theorem sessionEnd_agenda (s : State) : (sessionEnd s).agenda = s.agenda := rfl
@[simp] theorem sessionEnd_sinkReady (s : State) : (sessionEnd s).sinkReady = s.sinkReady := rfl
@[simp] theorem sessionEnd_sink (s : State) : (sessionEnd s).sink = s.sink := rfl
@[simp] theorem sessionEnd_traceSent (s : State) : (sessionEnd s).traceSent = s.traceSent := rfl
@[simp] theorem sessionEnd_traceSeen (s : State) : (sessionEnd s).traceSeen = s.traceSeen := rfl
@[simp] theorem sessionEnd_readLog (s : State) : (sessionEnd s).readLog = s.readLog := rfl
@[simp] theorem sessionEnd_draws (s : State) : (sessionEnd s).draws = s.draws := rfl

/-! ## `completeCommand` (R102) -/

@[simp] theorem completeCommand_status (c : Instr) (s : State) : (completeCommand c s).status = { s.status with inwait := false, busy := false, done := true } := by
  cases h : endsSession c <;> simp [completeCommand, sessionEnd, h]
@[simp] theorem completeCommand_errcode (c : Instr) (s : State) : (completeCommand c s).errcode = s.errcode := by
  cases h : endsSession c <;> simp [completeCommand, sessionEnd, h]
@[simp] theorem completeCommand_ie (c : Instr) (s : State) : (completeCommand c s).ie = s.ie := by
  cases h : endsSession c <;> simp [completeCommand, sessionEnd, h]
@[simp] theorem completeCommand_len (c : Instr) (s : State) : (completeCommand c s).len = s.len := by
  cases h : endsSession c <;> simp [completeCommand, sessionEnd, h]
@[simp] theorem completeCommand_bytecnt (c : Instr) (s : State) : (completeCommand c s).bytecnt = s.bytecnt := by
  cases h : endsSession c <;> simp [completeCommand, sessionEnd, h]
@[simp] theorem completeCommand_bitcnt (c : Instr) (s : State) : (completeCommand c s).bitcnt = s.bitcnt := by
  cases h : endsSession c <;> simp [completeCommand, sessionEnd, h]
@[simp] theorem completeCommand_nleaf (c : Instr) (s : State) : (completeCommand c s).nleaf = s.nleaf := by
  cases h : endsSession c <;> simp [completeCommand, sessionEnd, h]
@[simp] theorem completeCommand_nnode (c : Instr) (s : State) : (completeCommand c s).nnode = s.nnode := by
  cases h : endsSession c <;> simp [completeCommand, sessionEnd, h]
@[simp] theorem completeCommand_root (c : Instr) (s : State) : (completeCommand c s).root = s.root := by
  cases h : endsSession c <;> simp [completeCommand, sessionEnd, h]
@[simp] theorem completeCommand_freq (c : Instr) (s : State) : (completeCommand c s).freq = s.freq := by
  cases h : endsSession c <;> simp [completeCommand, sessionEnd, h]
@[simp] theorem completeCommand_node (c : Instr) (s : State) : (completeCommand c s).node = s.node := by
  cases h : endsSession c <;> simp [completeCommand, sessionEnd, h]
@[simp] theorem completeCommand_code (c : Instr) (s : State) : (completeCommand c s).code = s.code := by
  cases h : endsSession c <;> simp [completeCommand, sessionEnd, h]
@[simp] theorem completeCommand_forest (c : Instr) (s : State) : (completeCommand c s).forest = s.forest := by
  cases h : endsSession c <;> simp [completeCommand, sessionEnd, h]
@[simp] theorem completeCommand_packer (c : Instr) (s : State) : (completeCommand c s).packer = if endsSession c then ⟨0#8, 0#3⟩ else s.packer := by
  cases h : endsSession c <;> simp [completeCommand, sessionEnd, h]
@[simp] theorem completeCommand_reader (c : Instr) (s : State) : (completeCommand c s).reader = if endsSession c then { s.reader with rbits := 0#4 } else s.reader := by
  cases h : endsSession c <;> simp [completeCommand, sessionEnd, h]
@[simp] theorem completeCommand_walk (c : Instr) (s : State) : (completeCommand c s).walk = s.walk := by
  cases h : endsSession c <;> simp [completeCommand, sessionEnd, h]
@[simp] theorem completeCommand_stack (c : Instr) (s : State) : (completeCommand c s).stack = s.stack := by
  cases h : endsSession c <;> simp [completeCommand, sessionEnd, h]
@[simp] theorem completeCommand_engine (c : Instr) (s : State) : (completeCommand c s).engine = none := by
  cases h : endsSession c <;> simp [completeCommand, sessionEnd, h]
@[simp] theorem completeCommand_inPort (c : Instr) (s : State) : (completeCommand c s).inPort = if endsSession c then ⟨[], false⟩ else s.inPort := by
  cases h : endsSession c <;> simp [completeCommand, sessionEnd, h]
@[simp] theorem completeCommand_outPend (c : Instr) (s : State) : (completeCommand c s).outPend = s.outPend := by
  cases h : endsSession c <;> simp [completeCommand, sessionEnd, h]
@[simp] theorem completeCommand_agenda (c : Instr) (s : State) : (completeCommand c s).agenda = s.agenda := by
  cases h : endsSession c <;> simp [completeCommand, sessionEnd, h]
@[simp] theorem completeCommand_sinkReady (c : Instr) (s : State) : (completeCommand c s).sinkReady = s.sinkReady := by
  cases h : endsSession c <;> simp [completeCommand, sessionEnd, h]
@[simp] theorem completeCommand_sink (c : Instr) (s : State) : (completeCommand c s).sink = s.sink := by
  cases h : endsSession c <;> simp [completeCommand, sessionEnd, h]
@[simp] theorem completeCommand_traceSent (c : Instr) (s : State) : (completeCommand c s).traceSent = s.traceSent := by
  cases h : endsSession c <;> simp [completeCommand, sessionEnd, h]
@[simp] theorem completeCommand_traceSeen (c : Instr) (s : State) : (completeCommand c s).traceSeen = s.traceSeen := by
  cases h : endsSession c <;> simp [completeCommand, sessionEnd, h]
@[simp] theorem completeCommand_readLog (c : Instr) (s : State) : (completeCommand c s).readLog = s.readLog := by
  cases h : endsSession c <;> simp [completeCommand, sessionEnd, h]
@[simp] theorem completeCommand_draws (c : Instr) (s : State) : (completeCommand c s).draws = s.draws := by
  cases h : endsSession c <;> simp [completeCommand, sessionEnd, h]

/-! ## `raiseError` (R214) -/

@[simp] theorem raiseError_status (e : ErrCode) (s : State) : (raiseError e s).status = { s.status with err := true } := rfl
@[simp] theorem raiseError_errcode (e : ErrCode) (s : State) : (raiseError e s).errcode = if s.status.err then s.errcode else e := rfl
@[simp] theorem raiseError_ie (e : ErrCode) (s : State) : (raiseError e s).ie = s.ie := rfl
@[simp] theorem raiseError_len (e : ErrCode) (s : State) : (raiseError e s).len = s.len := rfl
@[simp] theorem raiseError_bytecnt (e : ErrCode) (s : State) : (raiseError e s).bytecnt = s.bytecnt := rfl
@[simp] theorem raiseError_bitcnt (e : ErrCode) (s : State) : (raiseError e s).bitcnt = s.bitcnt := rfl
@[simp] theorem raiseError_nleaf (e : ErrCode) (s : State) : (raiseError e s).nleaf = s.nleaf := rfl
@[simp] theorem raiseError_nnode (e : ErrCode) (s : State) : (raiseError e s).nnode = s.nnode := rfl
@[simp] theorem raiseError_root (e : ErrCode) (s : State) : (raiseError e s).root = s.root := rfl
@[simp] theorem raiseError_freq (e : ErrCode) (s : State) : (raiseError e s).freq = s.freq := rfl
@[simp] theorem raiseError_node (e : ErrCode) (s : State) : (raiseError e s).node = s.node := rfl
@[simp] theorem raiseError_code (e : ErrCode) (s : State) : (raiseError e s).code = s.code := rfl
@[simp] theorem raiseError_forest (e : ErrCode) (s : State) : (raiseError e s).forest = s.forest := rfl
@[simp] theorem raiseError_packer (e : ErrCode) (s : State) : (raiseError e s).packer = s.packer := rfl
@[simp] theorem raiseError_reader (e : ErrCode) (s : State) : (raiseError e s).reader = s.reader := rfl
@[simp] theorem raiseError_walk (e : ErrCode) (s : State) : (raiseError e s).walk = s.walk := rfl
@[simp] theorem raiseError_stack (e : ErrCode) (s : State) : (raiseError e s).stack = s.stack := rfl
@[simp] theorem raiseError_engine (e : ErrCode) (s : State) : (raiseError e s).engine = s.engine := rfl
@[simp] theorem raiseError_inPort (e : ErrCode) (s : State) : (raiseError e s).inPort = s.inPort := rfl
@[simp] theorem raiseError_outPend (e : ErrCode) (s : State) : (raiseError e s).outPend = s.outPend := rfl
@[simp] theorem raiseError_agenda (e : ErrCode) (s : State) : (raiseError e s).agenda = s.agenda := rfl
@[simp] theorem raiseError_sinkReady (e : ErrCode) (s : State) : (raiseError e s).sinkReady = s.sinkReady := rfl
@[simp] theorem raiseError_sink (e : ErrCode) (s : State) : (raiseError e s).sink = s.sink := rfl
@[simp] theorem raiseError_traceSent (e : ErrCode) (s : State) : (raiseError e s).traceSent = s.traceSent := rfl
@[simp] theorem raiseError_traceSeen (e : ErrCode) (s : State) : (raiseError e s).traceSeen = s.traceSeen := rfl
@[simp] theorem raiseError_readLog (e : ErrCode) (s : State) : (raiseError e s).readLog = s.readLog := rfl
@[simp] theorem raiseError_draws (e : ErrCode) (s : State) : (raiseError e s).draws = s.draws := rfl

/-! ## `failCommand` (R214, R245) -/

@[simp] theorem failCommand_status (c : Instr) (e : ErrCode) (s : State) : (failCommand c e s).status = { s.status with err := true, inwait := false } := by
  simp [failCommand, heldAtIn, readsIn]
@[simp] theorem failCommand_errcode (c : Instr) (e : ErrCode) (s : State) : (failCommand c e s).errcode = if s.status.err then s.errcode else e := rfl
@[simp] theorem failCommand_ie (c : Instr) (e : ErrCode) (s : State) : (failCommand c e s).ie = s.ie := rfl
@[simp] theorem failCommand_len (c : Instr) (e : ErrCode) (s : State) : (failCommand c e s).len = s.len := rfl
@[simp] theorem failCommand_bytecnt (c : Instr) (e : ErrCode) (s : State) : (failCommand c e s).bytecnt = s.bytecnt := rfl
@[simp] theorem failCommand_bitcnt (c : Instr) (e : ErrCode) (s : State) : (failCommand c e s).bitcnt = s.bitcnt := rfl
@[simp] theorem failCommand_nleaf (c : Instr) (e : ErrCode) (s : State) : (failCommand c e s).nleaf = s.nleaf := rfl
@[simp] theorem failCommand_nnode (c : Instr) (e : ErrCode) (s : State) : (failCommand c e s).nnode = s.nnode := rfl
@[simp] theorem failCommand_root (c : Instr) (e : ErrCode) (s : State) : (failCommand c e s).root = s.root := rfl
@[simp] theorem failCommand_freq (c : Instr) (e : ErrCode) (s : State) : (failCommand c e s).freq = s.freq := rfl
@[simp] theorem failCommand_node (c : Instr) (e : ErrCode) (s : State) : (failCommand c e s).node = s.node := rfl
@[simp] theorem failCommand_code (c : Instr) (e : ErrCode) (s : State) : (failCommand c e s).code = s.code := rfl
@[simp] theorem failCommand_forest (c : Instr) (e : ErrCode) (s : State) : (failCommand c e s).forest = s.forest := rfl
@[simp] theorem failCommand_packer (c : Instr) (e : ErrCode) (s : State) : (failCommand c e s).packer = s.packer := rfl
@[simp] theorem failCommand_reader (c : Instr) (e : ErrCode) (s : State) : (failCommand c e s).reader = s.reader := rfl
@[simp] theorem failCommand_walk (c : Instr) (e : ErrCode) (s : State) : (failCommand c e s).walk = s.walk := rfl
@[simp] theorem failCommand_stack (c : Instr) (e : ErrCode) (s : State) : (failCommand c e s).stack = s.stack := rfl
@[simp] theorem failCommand_engine (c : Instr) (e : ErrCode) (s : State) : (failCommand c e s).engine = some (c, .complete) := rfl
@[simp] theorem failCommand_inPort (c : Instr) (e : ErrCode) (s : State) : (failCommand c e s).inPort = s.inPort := rfl
@[simp] theorem failCommand_outPend (c : Instr) (e : ErrCode) (s : State) : (failCommand c e s).outPend = s.outPend := rfl
@[simp] theorem failCommand_agenda (c : Instr) (e : ErrCode) (s : State) : (failCommand c e s).agenda = s.agenda := rfl
@[simp] theorem failCommand_sinkReady (c : Instr) (e : ErrCode) (s : State) : (failCommand c e s).sinkReady = s.sinkReady := rfl
@[simp] theorem failCommand_sink (c : Instr) (e : ErrCode) (s : State) : (failCommand c e s).sink = s.sink := rfl
@[simp] theorem failCommand_traceSent (c : Instr) (e : ErrCode) (s : State) : (failCommand c e s).traceSent = s.traceSent := rfl
@[simp] theorem failCommand_traceSeen (c : Instr) (e : ErrCode) (s : State) : (failCommand c e s).traceSeen = s.traceSeen := rfl
@[simp] theorem failCommand_readLog (c : Instr) (e : ErrCode) (s : State) : (failCommand c e s).readLog = s.readLog := rfl
@[simp] theorem failCommand_draws (c : Instr) (e : ErrCode) (s : State) : (failCommand c e s).draws = s.draws := rfl

/-! ## `acknowledge` (R106) -/

@[simp] theorem acknowledge_status (s : State) : (acknowledge s).status = { s.status with done := false, err := false, ovr := false } := rfl
@[simp] theorem acknowledge_errcode (s : State) : (acknowledge s).errcode = .none := rfl
@[simp] theorem acknowledge_ie (s : State) : (acknowledge s).ie = s.ie := rfl
@[simp] theorem acknowledge_len (s : State) : (acknowledge s).len = s.len := rfl
@[simp] theorem acknowledge_bytecnt (s : State) : (acknowledge s).bytecnt = s.bytecnt := rfl
@[simp] theorem acknowledge_bitcnt (s : State) : (acknowledge s).bitcnt = s.bitcnt := rfl
@[simp] theorem acknowledge_nleaf (s : State) : (acknowledge s).nleaf = s.nleaf := rfl
@[simp] theorem acknowledge_nnode (s : State) : (acknowledge s).nnode = s.nnode := rfl
@[simp] theorem acknowledge_root (s : State) : (acknowledge s).root = s.root := rfl
@[simp] theorem acknowledge_freq (s : State) : (acknowledge s).freq = s.freq := rfl
@[simp] theorem acknowledge_node (s : State) : (acknowledge s).node = s.node := rfl
@[simp] theorem acknowledge_code (s : State) : (acknowledge s).code = s.code := rfl
@[simp] theorem acknowledge_forest (s : State) : (acknowledge s).forest = s.forest := rfl
@[simp] theorem acknowledge_packer (s : State) : (acknowledge s).packer = s.packer := rfl
@[simp] theorem acknowledge_reader (s : State) : (acknowledge s).reader = s.reader := rfl
@[simp] theorem acknowledge_walk (s : State) : (acknowledge s).walk = s.walk := rfl
@[simp] theorem acknowledge_stack (s : State) : (acknowledge s).stack = s.stack := rfl
@[simp] theorem acknowledge_engine (s : State) : (acknowledge s).engine = s.engine := rfl
@[simp] theorem acknowledge_inPort (s : State) : (acknowledge s).inPort = s.inPort := rfl
@[simp] theorem acknowledge_outPend (s : State) : (acknowledge s).outPend = s.outPend := rfl
@[simp] theorem acknowledge_agenda (s : State) : (acknowledge s).agenda = s.agenda := rfl
@[simp] theorem acknowledge_sinkReady (s : State) : (acknowledge s).sinkReady = s.sinkReady := rfl
@[simp] theorem acknowledge_sink (s : State) : (acknowledge s).sink = s.sink := rfl
@[simp] theorem acknowledge_traceSent (s : State) : (acknowledge s).traceSent = s.traceSent := rfl
@[simp] theorem acknowledge_traceSeen (s : State) : (acknowledge s).traceSeen = s.traceSeen := rfl
@[simp] theorem acknowledge_readLog (s : State) : (acknowledge s).readLog = s.readLog := rfl
@[simp] theorem acknowledge_draws (s : State) : (acknowledge s).draws = s.draws := rfl

/-! ## `rejectIllegal` (R103) -/

@[simp] theorem rejectIllegal_status (s : State) : (rejectIllegal s).status = { s.status with done := true, err := true } := rfl
@[simp] theorem rejectIllegal_errcode (s : State) : (rejectIllegal s).errcode = if s.status.err then s.errcode else .illegalCmd := rfl
@[simp] theorem rejectIllegal_ie (s : State) : (rejectIllegal s).ie = s.ie := rfl
@[simp] theorem rejectIllegal_len (s : State) : (rejectIllegal s).len = s.len := rfl
@[simp] theorem rejectIllegal_bytecnt (s : State) : (rejectIllegal s).bytecnt = s.bytecnt := rfl
@[simp] theorem rejectIllegal_bitcnt (s : State) : (rejectIllegal s).bitcnt = s.bitcnt := rfl
@[simp] theorem rejectIllegal_nleaf (s : State) : (rejectIllegal s).nleaf = s.nleaf := rfl
@[simp] theorem rejectIllegal_nnode (s : State) : (rejectIllegal s).nnode = s.nnode := rfl
@[simp] theorem rejectIllegal_root (s : State) : (rejectIllegal s).root = s.root := rfl
@[simp] theorem rejectIllegal_freq (s : State) : (rejectIllegal s).freq = s.freq := rfl
@[simp] theorem rejectIllegal_node (s : State) : (rejectIllegal s).node = s.node := rfl
@[simp] theorem rejectIllegal_code (s : State) : (rejectIllegal s).code = s.code := rfl
@[simp] theorem rejectIllegal_forest (s : State) : (rejectIllegal s).forest = s.forest := rfl
@[simp] theorem rejectIllegal_packer (s : State) : (rejectIllegal s).packer = s.packer := rfl
@[simp] theorem rejectIllegal_reader (s : State) : (rejectIllegal s).reader = s.reader := rfl
@[simp] theorem rejectIllegal_walk (s : State) : (rejectIllegal s).walk = s.walk := rfl
@[simp] theorem rejectIllegal_stack (s : State) : (rejectIllegal s).stack = s.stack := rfl
@[simp] theorem rejectIllegal_engine (s : State) : (rejectIllegal s).engine = s.engine := rfl
@[simp] theorem rejectIllegal_inPort (s : State) : (rejectIllegal s).inPort = s.inPort := rfl
@[simp] theorem rejectIllegal_outPend (s : State) : (rejectIllegal s).outPend = s.outPend := rfl
@[simp] theorem rejectIllegal_agenda (s : State) : (rejectIllegal s).agenda = s.agenda := rfl
@[simp] theorem rejectIllegal_sinkReady (s : State) : (rejectIllegal s).sinkReady = s.sinkReady := rfl
@[simp] theorem rejectIllegal_sink (s : State) : (rejectIllegal s).sink = s.sink := rfl
@[simp] theorem rejectIllegal_traceSent (s : State) : (rejectIllegal s).traceSent = s.traceSent := rfl
@[simp] theorem rejectIllegal_traceSeen (s : State) : (rejectIllegal s).traceSeen = s.traceSeen := rfl
@[simp] theorem rejectIllegal_readLog (s : State) : (rejectIllegal s).readLog = s.readLog := rfl
@[simp] theorem rejectIllegal_draws (s : State) : (rejectIllegal s).draws = s.draws := rfl

/-! ## `resetBlock` (R240) -/

@[simp] theorem resetBlock_status (s : State) : (resetBlock s).status = State.reset.status := rfl
@[simp] theorem resetBlock_errcode (s : State) : (resetBlock s).errcode = State.reset.errcode := rfl
@[simp] theorem resetBlock_ie (s : State) : (resetBlock s).ie = State.reset.ie := rfl
@[simp] theorem resetBlock_len (s : State) : (resetBlock s).len = State.reset.len := rfl
@[simp] theorem resetBlock_bytecnt (s : State) : (resetBlock s).bytecnt = State.reset.bytecnt := rfl
@[simp] theorem resetBlock_bitcnt (s : State) : (resetBlock s).bitcnt = State.reset.bitcnt := rfl
@[simp] theorem resetBlock_nleaf (s : State) : (resetBlock s).nleaf = State.reset.nleaf := rfl
@[simp] theorem resetBlock_nnode (s : State) : (resetBlock s).nnode = State.reset.nnode := rfl
@[simp] theorem resetBlock_root (s : State) : (resetBlock s).root = State.reset.root := rfl
@[simp] theorem resetBlock_freq (s : State) : (resetBlock s).freq = State.reset.freq := rfl
@[simp] theorem resetBlock_node (s : State) : (resetBlock s).node = State.reset.node := rfl
@[simp] theorem resetBlock_code (s : State) : (resetBlock s).code = State.reset.code := rfl
@[simp] theorem resetBlock_forest (s : State) : (resetBlock s).forest = State.reset.forest := rfl
@[simp] theorem resetBlock_packer (s : State) : (resetBlock s).packer = State.reset.packer := rfl
@[simp] theorem resetBlock_reader (s : State) : (resetBlock s).reader = State.reset.reader := rfl
@[simp] theorem resetBlock_walk (s : State) : (resetBlock s).walk = State.reset.walk := rfl
@[simp] theorem resetBlock_stack (s : State) : (resetBlock s).stack = State.reset.stack := rfl
@[simp] theorem resetBlock_engine (s : State) : (resetBlock s).engine = State.reset.engine := rfl
@[simp] theorem resetBlock_inPort (s : State) : (resetBlock s).inPort = State.reset.inPort := rfl
@[simp] theorem resetBlock_outPend (s : State) : (resetBlock s).outPend = State.reset.outPend := rfl
@[simp] theorem resetBlock_agenda (s : State) : (resetBlock s).agenda = s.agenda := rfl
@[simp] theorem resetBlock_sinkReady (s : State) : (resetBlock s).sinkReady = s.sinkReady := rfl
@[simp] theorem resetBlock_sink (s : State) : (resetBlock s).sink = s.sink := rfl
@[simp] theorem resetBlock_traceSent (s : State) : (resetBlock s).traceSent = s.traceSent := rfl
@[simp] theorem resetBlock_traceSeen (s : State) : (resetBlock s).traceSeen = s.traceSeen := rfl
@[simp] theorem resetBlock_readLog (s : State) : (resetBlock s).readLog = s.readLog := rfl
@[simp] theorem resetBlock_draws (s : State) : (resetBlock s).draws = s.draws := rfl

/-! ## `pushByte` (R76) -/

@[simp] theorem pushByte_status (b : Byte) (s : State) : (pushByte b s).status = { s.status with inwait := false } := rfl
@[simp] theorem pushByte_errcode (b : Byte) (s : State) : (pushByte b s).errcode = s.errcode := rfl
@[simp] theorem pushByte_ie (b : Byte) (s : State) : (pushByte b s).ie = s.ie := rfl
@[simp] theorem pushByte_len (b : Byte) (s : State) : (pushByte b s).len = s.len := rfl
@[simp] theorem pushByte_bytecnt (b : Byte) (s : State) : (pushByte b s).bytecnt = s.bytecnt := rfl
@[simp] theorem pushByte_bitcnt (b : Byte) (s : State) : (pushByte b s).bitcnt = s.bitcnt := rfl
@[simp] theorem pushByte_nleaf (b : Byte) (s : State) : (pushByte b s).nleaf = s.nleaf := rfl
@[simp] theorem pushByte_nnode (b : Byte) (s : State) : (pushByte b s).nnode = s.nnode := rfl
@[simp] theorem pushByte_root (b : Byte) (s : State) : (pushByte b s).root = s.root := rfl
@[simp] theorem pushByte_freq (b : Byte) (s : State) : (pushByte b s).freq = s.freq := rfl
@[simp] theorem pushByte_node (b : Byte) (s : State) : (pushByte b s).node = s.node := rfl
@[simp] theorem pushByte_code (b : Byte) (s : State) : (pushByte b s).code = s.code := rfl
@[simp] theorem pushByte_forest (b : Byte) (s : State) : (pushByte b s).forest = s.forest := rfl
@[simp] theorem pushByte_packer (b : Byte) (s : State) : (pushByte b s).packer = s.packer := rfl
@[simp] theorem pushByte_reader (b : Byte) (s : State) : (pushByte b s).reader = s.reader := rfl
@[simp] theorem pushByte_walk (b : Byte) (s : State) : (pushByte b s).walk = s.walk := rfl
@[simp] theorem pushByte_stack (b : Byte) (s : State) : (pushByte b s).stack = s.stack := rfl
@[simp] theorem pushByte_engine (b : Byte) (s : State) : (pushByte b s).engine = s.engine := rfl
@[simp] theorem pushByte_inPort (b : Byte) (s : State) : (pushByte b s).inPort = { s.inPort with buf := s.inPort.buf ++ [b] } := rfl
@[simp] theorem pushByte_outPend (b : Byte) (s : State) : (pushByte b s).outPend = s.outPend := rfl
@[simp] theorem pushByte_agenda (b : Byte) (s : State) : (pushByte b s).agenda = s.agenda := rfl
@[simp] theorem pushByte_sinkReady (b : Byte) (s : State) : (pushByte b s).sinkReady = s.sinkReady := rfl
@[simp] theorem pushByte_sink (b : Byte) (s : State) : (pushByte b s).sink = s.sink := rfl
@[simp] theorem pushByte_traceSent (b : Byte) (s : State) : (pushByte b s).traceSent = s.traceSent := rfl
@[simp] theorem pushByte_traceSeen (b : Byte) (s : State) : (pushByte b s).traceSeen = s.traceSeen := rfl
@[simp] theorem pushByte_readLog (b : Byte) (s : State) : (pushByte b s).readLog = s.readLog := rfl
@[simp] theorem pushByte_draws (b : Byte) (s : State) : (pushByte b s).draws = s.draws := rfl

/-! ## `closeIn` (R76) -/

@[simp] theorem closeIn_status (s : State) : (closeIn s).status = { s.status with inwait := false } := rfl
@[simp] theorem closeIn_errcode (s : State) : (closeIn s).errcode = s.errcode := rfl
@[simp] theorem closeIn_ie (s : State) : (closeIn s).ie = s.ie := rfl
@[simp] theorem closeIn_len (s : State) : (closeIn s).len = s.len := rfl
@[simp] theorem closeIn_bytecnt (s : State) : (closeIn s).bytecnt = s.bytecnt := rfl
@[simp] theorem closeIn_bitcnt (s : State) : (closeIn s).bitcnt = s.bitcnt := rfl
@[simp] theorem closeIn_nleaf (s : State) : (closeIn s).nleaf = s.nleaf := rfl
@[simp] theorem closeIn_nnode (s : State) : (closeIn s).nnode = s.nnode := rfl
@[simp] theorem closeIn_root (s : State) : (closeIn s).root = s.root := rfl
@[simp] theorem closeIn_freq (s : State) : (closeIn s).freq = s.freq := rfl
@[simp] theorem closeIn_node (s : State) : (closeIn s).node = s.node := rfl
@[simp] theorem closeIn_code (s : State) : (closeIn s).code = s.code := rfl
@[simp] theorem closeIn_forest (s : State) : (closeIn s).forest = s.forest := rfl
@[simp] theorem closeIn_packer (s : State) : (closeIn s).packer = s.packer := rfl
@[simp] theorem closeIn_reader (s : State) : (closeIn s).reader = s.reader := rfl
@[simp] theorem closeIn_walk (s : State) : (closeIn s).walk = s.walk := rfl
@[simp] theorem closeIn_stack (s : State) : (closeIn s).stack = s.stack := rfl
@[simp] theorem closeIn_engine (s : State) : (closeIn s).engine = s.engine := rfl
@[simp] theorem closeIn_inPort (s : State) : (closeIn s).inPort = { s.inPort with closed := true } := rfl
@[simp] theorem closeIn_outPend (s : State) : (closeIn s).outPend = s.outPend := rfl
@[simp] theorem closeIn_agenda (s : State) : (closeIn s).agenda = s.agenda := rfl
@[simp] theorem closeIn_sinkReady (s : State) : (closeIn s).sinkReady = s.sinkReady := rfl
@[simp] theorem closeIn_sink (s : State) : (closeIn s).sink = s.sink := rfl
@[simp] theorem closeIn_traceSent (s : State) : (closeIn s).traceSent = s.traceSent := rfl
@[simp] theorem closeIn_traceSeen (s : State) : (closeIn s).traceSeen = s.traceSeen := rfl
@[simp] theorem closeIn_readLog (s : State) : (closeIn s).readLog = s.readLog := rfl
@[simp] theorem closeIn_draws (s : State) : (closeIn s).draws = s.draws := rfl

/-! ## `offerOut` (R79) -/

@[simp] theorem offerOut_status (v : Byte) (s : State) : (offerOut v s).status = s.status := rfl
@[simp] theorem offerOut_errcode (v : Byte) (s : State) : (offerOut v s).errcode = s.errcode := rfl
@[simp] theorem offerOut_ie (v : Byte) (s : State) : (offerOut v s).ie = s.ie := rfl
@[simp] theorem offerOut_len (v : Byte) (s : State) : (offerOut v s).len = s.len := rfl
@[simp] theorem offerOut_bytecnt (v : Byte) (s : State) : (offerOut v s).bytecnt = s.bytecnt := rfl
@[simp] theorem offerOut_bitcnt (v : Byte) (s : State) : (offerOut v s).bitcnt = s.bitcnt := rfl
@[simp] theorem offerOut_nleaf (v : Byte) (s : State) : (offerOut v s).nleaf = s.nleaf := rfl
@[simp] theorem offerOut_nnode (v : Byte) (s : State) : (offerOut v s).nnode = s.nnode := rfl
@[simp] theorem offerOut_root (v : Byte) (s : State) : (offerOut v s).root = s.root := rfl
@[simp] theorem offerOut_freq (v : Byte) (s : State) : (offerOut v s).freq = s.freq := rfl
@[simp] theorem offerOut_node (v : Byte) (s : State) : (offerOut v s).node = s.node := rfl
@[simp] theorem offerOut_code (v : Byte) (s : State) : (offerOut v s).code = s.code := rfl
@[simp] theorem offerOut_forest (v : Byte) (s : State) : (offerOut v s).forest = s.forest := rfl
@[simp] theorem offerOut_packer (v : Byte) (s : State) : (offerOut v s).packer = s.packer := rfl
@[simp] theorem offerOut_reader (v : Byte) (s : State) : (offerOut v s).reader = s.reader := rfl
@[simp] theorem offerOut_walk (v : Byte) (s : State) : (offerOut v s).walk = s.walk := rfl
@[simp] theorem offerOut_stack (v : Byte) (s : State) : (offerOut v s).stack = s.stack := rfl
@[simp] theorem offerOut_engine (v : Byte) (s : State) : (offerOut v s).engine = s.engine := rfl
@[simp] theorem offerOut_inPort (v : Byte) (s : State) : (offerOut v s).inPort = s.inPort := rfl
@[simp] theorem offerOut_outPend (v : Byte) (s : State) : (offerOut v s).outPend = some v := rfl
@[simp] theorem offerOut_agenda (v : Byte) (s : State) : (offerOut v s).agenda = s.agenda := rfl
@[simp] theorem offerOut_sinkReady (v : Byte) (s : State) : (offerOut v s).sinkReady = s.sinkReady := rfl
@[simp] theorem offerOut_sink (v : Byte) (s : State) : (offerOut v s).sink = s.sink := rfl
@[simp] theorem offerOut_traceSent (v : Byte) (s : State) : (offerOut v s).traceSent = s.traceSent := rfl
@[simp] theorem offerOut_traceSeen (v : Byte) (s : State) : (offerOut v s).traceSeen = s.traceSeen := rfl
@[simp] theorem offerOut_readLog (v : Byte) (s : State) : (offerOut v s).readLog = s.readLog := rfl
@[simp] theorem offerOut_draws (v : Byte) (s : State) : (offerOut v s).draws = s.draws := rfl

/-! ## `acceptOut` (R79) -/

@[simp] theorem acceptOut_status (v : Byte) (s : State) : (acceptOut v s).status = s.status := rfl
@[simp] theorem acceptOut_errcode (v : Byte) (s : State) : (acceptOut v s).errcode = s.errcode := rfl
@[simp] theorem acceptOut_ie (v : Byte) (s : State) : (acceptOut v s).ie = s.ie := rfl
@[simp] theorem acceptOut_len (v : Byte) (s : State) : (acceptOut v s).len = s.len := rfl
@[simp] theorem acceptOut_bytecnt (v : Byte) (s : State) : (acceptOut v s).bytecnt = s.bytecnt := rfl
@[simp] theorem acceptOut_bitcnt (v : Byte) (s : State) : (acceptOut v s).bitcnt = s.bitcnt := rfl
@[simp] theorem acceptOut_nleaf (v : Byte) (s : State) : (acceptOut v s).nleaf = s.nleaf := rfl
@[simp] theorem acceptOut_nnode (v : Byte) (s : State) : (acceptOut v s).nnode = s.nnode := rfl
@[simp] theorem acceptOut_root (v : Byte) (s : State) : (acceptOut v s).root = s.root := rfl
@[simp] theorem acceptOut_freq (v : Byte) (s : State) : (acceptOut v s).freq = s.freq := rfl
@[simp] theorem acceptOut_node (v : Byte) (s : State) : (acceptOut v s).node = s.node := rfl
@[simp] theorem acceptOut_code (v : Byte) (s : State) : (acceptOut v s).code = s.code := rfl
@[simp] theorem acceptOut_forest (v : Byte) (s : State) : (acceptOut v s).forest = s.forest := rfl
@[simp] theorem acceptOut_packer (v : Byte) (s : State) : (acceptOut v s).packer = s.packer := rfl
@[simp] theorem acceptOut_reader (v : Byte) (s : State) : (acceptOut v s).reader = s.reader := rfl
@[simp] theorem acceptOut_walk (v : Byte) (s : State) : (acceptOut v s).walk = s.walk := rfl
@[simp] theorem acceptOut_stack (v : Byte) (s : State) : (acceptOut v s).stack = s.stack := rfl
@[simp] theorem acceptOut_engine (v : Byte) (s : State) : (acceptOut v s).engine = s.engine := rfl
@[simp] theorem acceptOut_inPort (v : Byte) (s : State) : (acceptOut v s).inPort = s.inPort := rfl
@[simp] theorem acceptOut_outPend (v : Byte) (s : State) : (acceptOut v s).outPend = none := rfl
@[simp] theorem acceptOut_agenda (v : Byte) (s : State) : (acceptOut v s).agenda = s.agenda := rfl
@[simp] theorem acceptOut_sinkReady (v : Byte) (s : State) : (acceptOut v s).sinkReady = s.sinkReady := rfl
@[simp] theorem acceptOut_sink (v : Byte) (s : State) : (acceptOut v s).sink = s.sink ++ [v] := rfl
@[simp] theorem acceptOut_traceSent (v : Byte) (s : State) : (acceptOut v s).traceSent = s.traceSent := rfl
@[simp] theorem acceptOut_traceSeen (v : Byte) (s : State) : (acceptOut v s).traceSeen = s.traceSeen := rfl
@[simp] theorem acceptOut_readLog (v : Byte) (s : State) : (acceptOut v s).readLog = s.readLog := rfl
@[simp] theorem acceptOut_draws (v : Byte) (s : State) : (acceptOut v s).draws = s.draws := rfl

/-! ## `sendTrace` (R82) -/

@[simp] theorem sendTrace_status (ev : MergeEvent) (s : State) : (sendTrace ev s).status = s.status := rfl
@[simp] theorem sendTrace_errcode (ev : MergeEvent) (s : State) : (sendTrace ev s).errcode = s.errcode := rfl
@[simp] theorem sendTrace_ie (ev : MergeEvent) (s : State) : (sendTrace ev s).ie = s.ie := rfl
@[simp] theorem sendTrace_len (ev : MergeEvent) (s : State) : (sendTrace ev s).len = s.len := rfl
@[simp] theorem sendTrace_bytecnt (ev : MergeEvent) (s : State) : (sendTrace ev s).bytecnt = s.bytecnt := rfl
@[simp] theorem sendTrace_bitcnt (ev : MergeEvent) (s : State) : (sendTrace ev s).bitcnt = s.bitcnt := rfl
@[simp] theorem sendTrace_nleaf (ev : MergeEvent) (s : State) : (sendTrace ev s).nleaf = s.nleaf := rfl
@[simp] theorem sendTrace_nnode (ev : MergeEvent) (s : State) : (sendTrace ev s).nnode = s.nnode := rfl
@[simp] theorem sendTrace_root (ev : MergeEvent) (s : State) : (sendTrace ev s).root = s.root := rfl
@[simp] theorem sendTrace_freq (ev : MergeEvent) (s : State) : (sendTrace ev s).freq = s.freq := rfl
@[simp] theorem sendTrace_node (ev : MergeEvent) (s : State) : (sendTrace ev s).node = s.node := rfl
@[simp] theorem sendTrace_code (ev : MergeEvent) (s : State) : (sendTrace ev s).code = s.code := rfl
@[simp] theorem sendTrace_forest (ev : MergeEvent) (s : State) : (sendTrace ev s).forest = s.forest := rfl
@[simp] theorem sendTrace_packer (ev : MergeEvent) (s : State) : (sendTrace ev s).packer = s.packer := rfl
@[simp] theorem sendTrace_reader (ev : MergeEvent) (s : State) : (sendTrace ev s).reader = s.reader := rfl
@[simp] theorem sendTrace_walk (ev : MergeEvent) (s : State) : (sendTrace ev s).walk = s.walk := rfl
@[simp] theorem sendTrace_stack (ev : MergeEvent) (s : State) : (sendTrace ev s).stack = s.stack := rfl
@[simp] theorem sendTrace_engine (ev : MergeEvent) (s : State) : (sendTrace ev s).engine = s.engine := rfl
@[simp] theorem sendTrace_inPort (ev : MergeEvent) (s : State) : (sendTrace ev s).inPort = s.inPort := rfl
@[simp] theorem sendTrace_outPend (ev : MergeEvent) (s : State) : (sendTrace ev s).outPend = s.outPend := rfl
@[simp] theorem sendTrace_agenda (ev : MergeEvent) (s : State) : (sendTrace ev s).agenda = s.agenda := rfl
@[simp] theorem sendTrace_sinkReady (ev : MergeEvent) (s : State) : (sendTrace ev s).sinkReady = s.sinkReady := rfl
@[simp] theorem sendTrace_sink (ev : MergeEvent) (s : State) : (sendTrace ev s).sink = s.sink := rfl
@[simp] theorem sendTrace_traceSent (ev : MergeEvent) (s : State) : (sendTrace ev s).traceSent = s.traceSent ++ [ev] := rfl
@[simp] theorem sendTrace_traceSeen (ev : MergeEvent) (s : State) : (sendTrace ev s).traceSeen = if Config.traceTaken s.draws then s.traceSeen ++ [ev] else s.traceSeen := rfl
@[simp] theorem sendTrace_readLog (ev : MergeEvent) (s : State) : (sendTrace ev s).readLog = s.readLog := rfl
@[simp] theorem sendTrace_draws (ev : MergeEvent) (s : State) : (sendTrace ev s).draws = s.draws + 1 := rfl

end Sys2Proof.Machine
end

