-- ==== Sys2Proof/Laws/Engine.lean ====
section
/-! SUPPORT. The engine's micro-step at each place of a body, said once; an idle engine has none (R223). -/

namespace Sys2Proof.Machine

variable {s : State} {c : Instr}

theorem engineStep_idle (h : s.engine = none) : engineStep s = none := by simp [engineStep, h]

theorem engineStep_start (h : s.engine = some (c, .start)) : engineStep s = some (startBody c s) := by simp [engineStep, h]

theorem engineStep_buildLoop (h : s.engine = some (c, .buildLoop)) : engineStep s = some (buildLoop c s) := by
  simp [engineStep, h]

theorem engineStep_deriveVisit {v : Visit} (h : s.engine = some (c, .deriveVisit v)) :
    engineStep s = some (deriveVisit c v s) := by simp [engineStep, h]

theorem engineStep_deriveDone (h : s.engine = some (c, .deriveDone)) : engineStep s = some (deriveDone c s) := by
  simp [engineStep, h]

theorem engineStep_compressRead (h : s.engine = some (c, .compressRead)) : engineStep s = compressRead c s := by
  simp [engineStep, h]

theorem engineStep_compressPack {b : Byte} {i : BitVec 8} (h : s.engine = some (c, .compressPack b i)) :
    engineStep s = some (compressPack c b i s) := by simp [engineStep, h]

theorem engineStep_compressPackOut {b : Byte} {i : BitVec 8} (h : s.engine = some (c, .compressPackOut b i)) :
    engineStep s = compressPackOut c b i s := by simp [engineStep, h]

theorem engineStep_compressFlush (h : s.engine = some (c, .compressFlush)) : engineStep s = some (compressFlush c s) := by
  simp [engineStep, h]

theorem engineStep_compressFlushOut (h : s.engine = some (c, .compressFlushOut)) : engineStep s = compressFlushOut c s := by
  simp [engineStep, h]

theorem engineStep_walkTop (h : s.engine = some (c, .walkTop)) : engineStep s = some (walkTop c s) := by simp [engineStep, h]

theorem engineStep_walkRead (h : s.engine = some (c, .walkRead)) : engineStep s = walkRead c s := by simp [engineStep, h]

theorem engineStep_walkOut (h : s.engine = some (c, .walkOut)) : engineStep s = walkOut c s := by simp [engineStep, h]

theorem engineStep_raising {e : ErrCode} (h : s.engine = some (c, .raising e)) :
    engineStep s = some (failCommand c e s) := by simp [engineStep, h]

theorem engineStep_complete (h : s.engine = some (c, .complete)) : engineStep s = some (completeCommand c s) := by
  simp [engineStep, h]

/-- What the engine never changes: IE, LEN, OVR, what the host has planned and read, and what the sink has accepted. -/
theorem engineStep_frame {s t : State} (h : engineStep s = some t) :
    t.ie = s.ie ∧ t.len = s.len ∧ t.status.ovr = s.status.ovr ∧ t.agenda = s.agenda ∧ t.sinkReady = s.sinkReady
      ∧ t.sink = s.sink ∧ t.readLog = s.readLog := by
  unfold engineStep at h
  split at h
  case h_1 => simp at h
  case h_2 c _ =>
    simp only [Option.some.injEq] at h; subst h
    cases c <;> simp only [startBody, nopBody, fclrBody, buildStart, deriveStart, compressStart, expandStart, expandxStart, walkStart] <;>
      (repeat' split) <;> simp
  all_goals
    try simp only [buildLoop, deriveVisit, nextVisit, deriveDone, compressRead, compressPack, compressPackOut, bitPacked, compressFlush,
      compressFlushOut, walkTop, walkRead, walkExhausted, takeBit, walkBit, walkOut, mergeStep, finishTree] at h
    (repeat' split at h) <;> simp only [Option.some.injEq, reduceCtorEq] at h <;> subst h <;> simp

theorem raises_iff : raises s = true ↔ Raises s := by
  unfold raises Raises
  split <;> simp_all

theorem engineTurn_of_none (h : engineStep s = none) : engineTurn s = s := by simp [engineTurn, h]

theorem engineTurn_of_some {t : State} (h : engineStep s = some t) (hr : ¬Raises s) : engineTurn s = t := by
  simp [engineTurn, h, mt raises_iff.mp hr]

/-- R102: the completion overwrites where the engine stands and INWAIT. -/
theorem completeCommand_goTo (c d : Instr) (p : Point) (s : State) : completeCommand c (goTo d p s) = completeCommand c s := by
  cases h : endsSession c <;> simp [completeCommand, sessionEnd, goTo, h]

/-- R213: an error's turn is its raise and the completion. -/
theorem engineTurn_raising {e : ErrCode} (h : s.engine = some (c, .raising e)) :
    engineTurn s = completeCommand c (raiseError e s) := by
  have hr : raises s = true := raises_iff.mpr ⟨c, e, h⟩
  rw [engineTurn, engineStep_raising h]
  simp only [hr, if_true, engineStep_complete (failCommand_engine c e s), Option.getD_some]
  rw [failCommand, completeCommand_goTo]

/-- Everything a turn can do: nothing, one micro-step, or a raise and the completion. -/
theorem engineTurn_cases (s : State) :
    (engineStep s = none ∧ engineTurn s = s) ∨ (¬Raises s ∧ engineStep s = some (engineTurn s))
      ∨ ∃ c e, s.engine = some (c, .raising e) ∧ engineTurn s = completeCommand c (raiseError e s) := by
  by_cases hr : Raises s
  · obtain ⟨c, e, h⟩ := hr
    exact .inr (.inr ⟨c, e, h, engineTurn_raising h⟩)
  · cases h : engineStep s with
    | none => exact .inl ⟨rfl, engineTurn_of_none h⟩
    | some t => exact .inr (.inl ⟨hr, by rw [engineTurn_of_some h hr]⟩)

/-- What every micro-step keeps, every turn keeps. -/
theorem engineTurn_keeps {P : State → Prop} (hP : ∀ s t, P s → engineStep s = some t → P t) (s : State) (h : P s) :
    P (engineTurn s) := by
  unfold engineTurn
  split
  · exact h
  · rename_i t ht
    split
    · cases hu : engineStep t with
      | none => exact hP s t h ht
      | some u => exact hP t u (hP s t h ht) hu
    · exact hP s t h ht

/-- What a turn never changes, as `engineStep_frame` says of a micro-step. -/
theorem engineTurn_frame (s : State) :
    (engineTurn s).ie = s.ie ∧ (engineTurn s).len = s.len ∧ (engineTurn s).status.ovr = s.status.ovr
      ∧ (engineTurn s).agenda = s.agenda ∧ (engineTurn s).sinkReady = s.sinkReady ∧ (engineTurn s).sink = s.sink
      ∧ (engineTurn s).readLog = s.readLog :=
  engineTurn_keeps (P := fun u => u.ie = s.ie ∧ u.len = s.len ∧ u.status.ovr = s.status.ovr ∧ u.agenda = s.agenda
      ∧ u.sinkReady = s.sinkReady ∧ u.sink = s.sink ∧ u.readLog = s.readLog)
    (fun u t hu ht => by have := engineStep_frame ht; simp_all) s (by simp)

@[simp] theorem engineRun_zero (s : State) : engineRun 0 s = s := rfl

theorem engineRun_succ (k : Nat) (s : State) : engineRun (k + 1) s = engineRun k (engineTurn s) := rfl

theorem engineRun_add (j k : Nat) (s : State) : engineRun (j + k) s = engineRun k (engineRun j s) := by
  induction j generalizing s with
  | zero => simp
  | succ j ih => rw [Nat.add_right_comm, engineRun_succ, engineRun_succ, ih]

end Sys2Proof.Machine
end

