-- ==== Sys2Proof/Laws/Ops.lean ====
section
/-! SUPPORT. What each shared operation does as a whole, for a proof to cite: the block is untouched by what the host sees, and a
command written while BUSY = 1 leaves everything but OVR alone. -/

namespace Sys2Proof.Machine

/-- R65: a read changes nothing but what the host has seen and the free values' counter. -/
theorem hostRead_frame (a : Addr) (s : State) :
    ∃ l d, hostRead a s = { s with readLog := l, draws := d } := by
  unfold hostRead
  split
  · exact ⟨_, _, rfl⟩
  · exact ⟨_, s.draws, rfl⟩

/-- R65, R104: a write outside CMD changes at most IE, LEN, FREQ or OVR. -/
theorem hostWrite_frame (r : PortReg) (v : Word) (s : State) :
    ∃ e l f o, hostWrite r v s = { s with ie := e, len := l, freq := f, status.ovr := o } := by
  have same : ∃ e l f o, s = { s with ie := e, len := l, freq := f, status.ovr := o } :=
    ⟨s.ie, s.len, s.freq, s.status.ovr, rfl⟩
  cases r <;> try exact same
  case ie => exact ⟨ieOf v, s.len, s.freq, s.status.ovr, rfl⟩
  case len =>
    simp only [hostWrite]
    split
    · exact ⟨s.ie, s.len, s.freq, true, rfl⟩
    · exact ⟨s.ie, v, s.freq, s.status.ovr, rfl⟩
  case freq x =>
    simp only [hostWrite]
    split
    · exact ⟨s.ie, s.len, s.freq, true, rfl⟩
    · exact ⟨s.ie, s.len, setFreq s.freq x v, s.status.ovr, rfl⟩

/-- R100, R101: a command is accepted, or ignored because BUSY = 1. -/
theorem offerCommand_cases (c : Instr) (s : State) :
    (s.status.busy = true ∧ offerCommand c s = ignoreWrite s) ∨ (s.status.busy = false ∧ offerCommand c s = acceptCommand c s) := by
  cases h : s.status.busy <;> simp [offerCommand, h]

/-- R100, R103: an illegal word is rejected, or ignored because BUSY = 1. -/
theorem offerIllegal_cases (s : State) :
    (s.status.busy = true ∧ offerIllegal s = ignoreWrite s) ∨ (s.status.busy = false ∧ offerIllegal s = rejectIllegal s) := by
  cases h : s.status.busy <;> simp [offerIllegal, h]

/-- R31: a place that reads no IN is never held there. -/
theorem heldAtIn_false {p : Point} {r : BitReader} (i : InPort) (h : readsIn p r = false) : heldAtIn p r i = false := by
  simp [heldAtIn, h]

/-- R76: after a byte's arrival the engine is not held at IN. -/
@[simp] theorem heldAtIn_push (p : Point) (r : BitReader) (i : InPort) (b : Byte) :
    heldAtIn p r { i with buf := i.buf ++ [b] } = false := by
  simp [heldAtIn]

/-- R76: once IN is closed the engine is not held there. -/
@[simp] theorem heldAtIn_close (p : Point) (r : BitReader) (i : InPort) : heldAtIn p r { i with closed := true } = false := by
  simp [heldAtIn]

/-- R214: the first error wins. -/
theorem raiseError_twice (e f : ErrCode) (s : State) : (raiseError f (raiseError e s)).errcode = (raiseError e s).errcode := by
  simp

end Sys2Proof.Machine
end

