-- ==== Sys2Proof/Laws/PerInstr.lean ====
section
/-! SUPPORT. What holds of each command as syntax: it is well formed and its word's reserved bits are zero
(spec/30_encoding.md R90). -/

namespace Sys2Proof.Laws.Reserved

/-- R90: the command is well formed, and bits 31:8 of its word are zero. -/
def Statement (i : Instr) : Prop := i.wellFormed = true ∧ (encode i).extractLsb' 8 24 = 0#24

theorem nop : Statement .nop := by unfold Statement; decide
theorem srst : Statement .srst := by unfold Statement; decide
theorem ack : Statement .ack := by unfold Statement; decide
theorem fclr : Statement .fclr := by unfold Statement; decide
theorem build : Statement .build := by unfold Statement; decide
theorem derive : Statement .derive := by unfold Statement; decide
theorem compress : Statement .compress := by unfold Statement; decide
theorem expand : Statement .expand := by unfold Statement; decide
theorem expandx : Statement .expandx := by unfold Statement; decide

end Sys2Proof.Laws.Reserved
end

