-- ==== Sys2Proof/Laws/Step.lean ====
section
/-! SUPPORT. Everything one step can do, said once: an invariant that each of these effects keeps is kept by every step. -/

namespace Sys2Proof.Machine

/-- `s` with its next move taken off the agenda. -/
def popped (s : State) : State := { s with agenda := s.agenda.tail }

/-- The effects a step can have on `s`. -/
inductive StepEffect (s : State) : State → Prop where
  /-- The engine's turn, the agenda's next move waiting or none left. -/
  | turn : StepEffect s (engineTurn s)
  /-- A move that names the engine. -/
  | engine (h : s.agenda.head? = some .engine) : StepEffect s (engineTurn (popped s))
  /-- A sink that accepts at once takes the byte. -/
  | took (v : Byte) (h : s.outPend = some v) : StepEffect s (acceptOut v s)
  /-- The host's accept. -/
  | accept (v : Byte) (h : s.outPend = some v) : StepEffect s (acceptOut v (popped s))
  | read (a : Addr) (h : accessOk a 4 = true) (hn : s.agenda.head? = some (.host (.read a 4))) :
      StepEffect s (hostRead a (popped s))
  | write (a : Addr) (v : Word) (h : accessOk a 4 = true) (hc : decodeAddr a ≠ .cmd)
      (hn : s.agenda.head? = some (.host (.write a 4 v))) :
      StepEffect s (hostWrite (decodeAddr a) v (popped s))
  | push (b : Byte) (h : canPush s = true) (hn : s.agenda.head? = some (.host (.push b))) : StepEffect s (pushByte b (popped s))
  | close (hn : s.agenda.head? = some (.host .close)) : StepEffect s (closeIn (popped s))
  | sinkMode (r : Bool) : StepEffect s { popped s with sinkReady := r }
  /-- The hardware reset, or SRST. -/
  | reset (h : ResetsNext s) : StepEffect s (resetBlock (popped s))
  /-- A wait whose condition holds. -/
  | waited : StepEffect s (popped s)
  /-- A command word accepted or ignored (R100, R101). -/
  | command (c : Instr) (h : setsBusy c = true) (hn : s.agenda.head? = some (cmdWrite (encode c))) :
      StepEffect s (offerCommand c (popped s))
  /-- ACK (R106), or ACK ignored (R100). -/
  | ack (h : s.agenda.head? = some (cmdWrite (encode .ack))) :
      StepEffect s (if s.status.busy then ignoreWrite (popped s) else acknowledge (popped s))
  /-- An illegal word (R103), or one ignored (R100). -/
  | illegal (w : Word) (h : ∀ i, decode w ≠ .command i) (hn : s.agenda.head? = some (cmdWrite w)) :
      StepEffect s (offerIllegal (popped s))

/-- R92: CMD is at 0x0004 and nowhere else. -/
theorem decodeAddr_cmd {a : Addr} {n : Nat} (hok : accessOk a n = true) (h : decodeAddr a = .cmd) : a = 0x0004#16 ∧ n = 4 := by
  simp only [accessOk, Bool.and_eq_true, beq_iff_eq] at hok
  refine ⟨BitVec.eq_of_toNat_eq ?_, hok.2⟩
  simp only [decodeAddr] at h
  split at h
  · unfold controlReg at h
    split at h <;> simp_all
    omega
  · repeat' split at h
    all_goals simp at h

/-- R93: a word that decodes to a command is that command's word. -/
theorem encode_of_decode {w : Word} {i : Instr} (h : decode w = .command i) : w = encode i := by
  unfold decode at h
  split at h
  · simp at h
  · rename_i hz
    have hz : w.extractLsb' 8 24 = 0#24 := by simpa using hz
    have hw : w = w.extractLsb' 8 24 ++ w.extractLsb' 0 8 := by
      apply BitVec.eq_of_getLsbD_eq
      intro k hk
      simp only [BitVec.getLsbD_append, BitVec.getLsbD_extractLsb']
      by_cases hk8 : k < 8
      · simp [hk8]
      · simp [hk8, show k - 8 < 24 by omega, show 8 + (k - 8) = k by omega]
    split at h
    · rename_i j hj
      simp only [Decoded.command.injEq] at h
      subst h
      rw [hw, hz, encode]
      congr 1
      unfold opcodeCommand at hj
      repeat' split at hj
      all_goals first | (simp only [Option.some.injEq] at hj; subst hj; assumption) | simp at hj
    · simp at h

theorem restTurn_effect (s : State) : StepEffect s (restTurn s) := by
  unfold restTurn
  split
  · split
    · exact .took _ ‹_›
    · exact .turn
  · exact .turn

/-- Everything a step can do. -/
theorem step_effect {s t : State} (h : step s = .next t) : StepEffect s t := by
  have cmdEffect (i : Instr) (hn : s.agenda.head? = some (cmdWrite (encode i))) (hx : exec i (popped s) = .next t) :
      StepEffect s t := by
    cases i <;> simp only [exec, execNop, execSrst, execAck, execFclr, execBuild, execDerive, execCompress, execExpand,
      execExpandx, Host.Outcome.next.injEq] at hx <;> subst hx
    case srst => exact .reset (.inr hn)
    case ack => exact .ack hn
    all_goals exact .command _ rfl hn
  have rest (h : Host.Outcome.next (restTurn s) = (.next t : Host.Outcome State Fault Refusal)) : StepEffect s t := by
    rw [← Host.Outcome.next.inj h]; exact restTurn_effect s
  have hpop {m : Move} {l : List Move} (ha : s.agenda = m :: l) : { s with agenda := l } = popped s := by simp [popped, ha]
  unfold step turn at h
  split at h
  · rename_i w u hi
    split at hi
    · simp at hi
    · simp at hi
    · rename_i a l ha
      rw [hpop ha] at hi
      cases a <;> simp only [hostTurn] at hi <;> (try split at hi) <;> (try split at hi) <;>
        simp only [reduceCtorEq, Turn.issue.injEq] at hi
      rename_i addr size v hok hc
      obtain ⟨rfl, rfl⟩ := hi
      obtain ⟨rfl, rfl⟩ := decodeAddr_cmd hok hc
      split at h
      · rename_i i hd
        exact cmdEffect i (by rw [ha, ← encode_of_decode hd]; rfl) h
      · rw [← Host.Outcome.next.inj h]; exact .illegal v (by simp_all) (by rw [ha]; rfl)
      · rw [← Host.Outcome.next.inj h]; exact .illegal v (by simp_all) (by rw [ha]; rfl)
  · rename_i o hi
    subst h
    split at hi
    · exact rest (by simpa using hi)
    · rename_i l ha
      rw [hpop ha, Turn.settled.injEq] at hi
      rw [← Host.Outcome.next.inj hi]
      exact .engine (by simp [ha])
    · rename_i a l ha
      rw [hpop ha] at hi
      cases a with
      | read addr size =>
        simp only [hostTurn] at hi
        split at hi
        · rename_i hok
          have : size = 4 := by simp [accessOk] at hok; exact hok.2
          subst this
          rw [Turn.settled.injEq] at hi
          rw [← Host.Outcome.next.inj hi]
          exact .read addr hok (by simp [ha])
        · simp at hi
      | write addr size v =>
        simp only [hostTurn] at hi
        split at hi
        · rename_i hok
          have : size = 4 := by simp [accessOk] at hok; exact hok.2
          subst this
          split at hi
          · simp at hi
          · rw [Turn.settled.injEq] at hi
            rw [← Host.Outcome.next.inj hi]
            exact .write addr v hok ‹_› (by simp [ha])
        · simp at hi
      | push b =>
        simp only [hostTurn, Turn.settled.injEq] at hi
        split at hi
        · rw [← Host.Outcome.next.inj hi]; exact .push b ‹_› (by simp [ha])
        · exact rest hi
      | close =>
        simp only [hostTurn, Turn.settled.injEq] at hi
        rw [← Host.Outcome.next.inj hi]; exact .close (by simp [ha])
      | accept =>
        simp only [hostTurn] at hi
        split at hi
        · rw [Turn.settled.injEq] at hi
          rw [← Host.Outcome.next.inj hi]; exact .accept _ ‹_›
        · exact rest (by simpa using hi)
      | sinkMode r =>
        simp only [hostTurn, Turn.settled.injEq] at hi
        rw [← Host.Outcome.next.inj hi]; exact .sinkMode r
      | hardReset =>
        simp only [hostTurn, Turn.settled.injEq] at hi
        rw [← Host.Outcome.next.inj hi]; exact .reset (.inl (by simp [ha]))
      | waitIdle =>
        simp only [hostTurn, Turn.settled.injEq] at hi
        split at hi
        · exact rest hi
        · rw [← Host.Outcome.next.inj hi]; exact .waited
      | waitIrq =>
        simp only [hostTurn, Turn.settled.injEq] at hi
        split at hi
        · rw [← Host.Outcome.next.inj hi]; exact .waited
        · exact rest hi

end Sys2Proof.Machine
end

