-- ==== Sys2Proof/Laws/Tables.lean ====
section
/-! SUPPORT. Read after write for the three tables, and what a cleared table and the leaves' arena hold. -/

namespace Sys2Proof.Machine

theorem freqAt_setFreq_self (freq : Vector Word 256) (x : Sym) (v : Word) : freqAt (setFreq freq x v) x = v := by
  simp [freqAt, setFreq]

theorem freqAt_setFreq_other {x y : Sym} (freq : Vector Word 256) (v : Word) (h : x ≠ y) :
    freqAt (setFreq freq x v) y = freqAt freq y := by
  have hn : x.toNat ≠ y.toNat := fun e => h (BitVec.eq_of_toNat_eq e)
  simp [freqAt, setFreq, hn]

theorem codeAt_setCode_self (code : Vector Code 256) (x : Sym) (e : Code) : codeAt (setCode code x e) x = e := by
  simp [codeAt, setCode]

theorem codeAt_setCode_other {x y : Sym} (code : Vector Code 256) (e : Code) (h : x ≠ y) :
    codeAt (setCode code x e) y = codeAt code y := by
  have hn : x.toNat ≠ y.toNat := fun h' => h (BitVec.eq_of_toNat_eq h')
  simp [codeAt, setCode, hn]

/-- R74: an entry within the arena reads back; there is no entry 511. -/
theorem nodeAt_setNode_self (node : Vector Node 511) (n : NodeIdx) (e : Node) (h : n ≠ 511#9) :
    nodeAt (setNode node n e) n = e := by
  have hlt : n.toNat < 511 := by
    have := n.isLt
    have : n.toNat ≠ 511 := fun h' => h (BitVec.eq_of_toNat_eq (by simpa using h'))
    omega
  simp [nodeAt, setNode, hlt]

theorem nodeAt_setNode_other {n m : NodeIdx} (node : Vector Node 511) (e : Node) (h : n ≠ m) :
    nodeAt (setNode node n e) m = nodeAt node m := by
  have hn : n.toNat ≠ m.toNat := fun h' => h (BitVec.eq_of_toNat_eq h')
  simp [nodeAt, setNode, hn]

/-- R42: entry 511 is never allocated. -/
@[simp] theorem nodeAt_unused (node : Vector Node 511) : nodeAt node 511#9 = Node.zero := by
  simp [nodeAt]

@[simp] theorem nodeAt_clearedNodes (n : NodeIdx) : nodeAt clearedNodes n = Node.zero := by
  simp only [nodeAt, clearedNodes, Vector.getElem?_replicate]
  split <;> rfl

@[simp] theorem codeAt_clearedCodes (x : Sym) : codeAt clearedCodes x = Code.zero := by
  simp [codeAt, clearedCodes]

@[simp] theorem freqAt_clearedFreqs (x : Sym) : freqAt clearedFreqs x = 0#32 := by
  simp [freqAt, clearedFreqs]

/-- The leaves' arena holds the list from entry 0 on, and all-zero entries after it. -/
theorem nodeAt_arenaOf (l : List Node) (n : NodeIdx) (h : n ≠ 511#9) :
    nodeAt (arenaOf l) n = l.getD n.toNat Node.zero := by
  have hlt : n.toNat < 511 := by
    have := n.isLt
    have : n.toNat ≠ 511 := fun h' => h (BitVec.eq_of_toNat_eq (by simpa using h'))
    omega
  simp only [nodeAt, arenaOf, Vector.getElem?_mk, List.getElem?_toArray, List.getElem?_take, hlt, if_true,
    List.getElem?_append, List.getElem?_replicate, List.getD_eq_getElem?_getD]
  split
  · rfl
  · rename_i hl
    rw [List.getElem?_eq_none (by omega)]
    split <;> rfl

/-- R132: the present symbols are exactly those with a count above 0. -/
theorem mem_presentSymbols (freq : Vector Word 256) (x : Sym) : x ∈ presentSymbols freq ↔ 0#32 < freqAt freq x := by
  simp only [presentSymbols, List.mem_filter, List.mem_map, List.mem_range, decide_eq_true_eq]
  exact ⟨And.right, fun h => ⟨⟨x.toNat, x.isLt, by simp⟩, h⟩⟩

theorem length_presentSymbols_le (freq : Vector Word 256) : (presentSymbols freq).length ≤ 256 := by
  simpa [presentSymbols] using List.length_filter_le (fun x => decide (0#32 < freqAt freq x)) ((List.range 256).map (BitVec.ofNat 8))

end Sys2Proof.Machine
end

