-- ==== Sys2Proof/Tests/Slice0.lean ====
section
/-! SUPPORT. Tests of the model, and for every statement with hypotheses a witness that meets them. Each expected value is the spec's:
an encoding of spec/30_encoding.md, a rule, or a vector of spec/95_test_vectors.md, named in the comment. -/

namespace Sys2Proof.Tests

set_option Elab.async false

open Sys2Proof Sys2Proof.Machine

/-! ## Decoding: the words of R92, bit by bit, and the words R94 calls illegal (CV-1, CV-2, CV-3) -/

theorem test_decode_nop : decode 0b00000000000000000000000000000000#32 = .command .nop := by decide
theorem test_decode_srst : decode 0b00000000000000000000000000000001#32 = .command .srst := by decide
theorem test_decode_ack : decode 0b00000000000000000000000000000010#32 = .command .ack := by decide
theorem test_decode_fclr : decode 0b00000000000000000000000000000011#32 = .command .fclr := by decide
theorem test_decode_build : decode 0b00000000000000000000000000010000#32 = .command .build := by decide
theorem test_decode_derive : decode 0b00000000000000000000000000010001#32 = .command .derive := by decide
theorem test_decode_compress : decode 0b00000000000000000000000000100000#32 = .command .compress := by decide
theorem test_decode_expand : decode 0b00000000000000000000000000110000#32 = .command .expand := by decide
theorem test_decode_expandx : decode 0b00000000000000000000000000110001#32 = .command .expandx := by decide
theorem test_decode_reserved_bit : decode 0x00000100#32 = .illegalReservedBits := by decide
theorem test_decode_top_bit : decode 0x80000010#32 = .illegalReservedBits := by decide
theorem test_decode_gap : decode 0x00000012#32 = .illegalOpcode := by decide
theorem test_decodeTableWord_build : decodeTableWord 32 0x10 = some .build := by decide
theorem test_decodeTableWord_illegal : decodeTableWord 32 0x12 = none := by decide

/-! ## Well-formedness: the two ways an access can be ill formed (R61, CV-19) -/

theorem test_access_ok : accessOk 0x0504#16 4 = true := by decide
theorem test_access_misaligned_refused : accessOk 0x0002#16 4 = false := by decide
theorem test_access_halfword_refused : accessOk 0x0504#16 2 = false := by decide
theorem test_every_command_wellFormed : ∀ i : Instr, i.wellFormed = true := by intro i; cases i <;> rfl

/-! ## Small states -/

/-- Whether an outcome is a next state that satisfies `p`. -/
def nextIs (o : Host.Outcome State Fault Refusal) (p : State → Bool) : Bool :=
  match o with
  | .next t => p t
  | .fault _ => false
  | .refused _ => false

/-- BV-4 and DV-4: the symbols 0 and 255 with count 5 each, their tree and their codes; the sink is ready. -/
def tree2 : State :=
  { State.reset with
    status := ⟨false, true, false, false, true, true, false, false⟩
    nleaf := 2#9
    nnode := 3#10
    root := 2#9
    freq := setFreq (setFreq clearedFreqs 0#8 5#32) 255#8 5#32
    node := arenaOf [⟨.leaf, 0#8, 5#40, 0#9, 0#9⟩, ⟨.leaf, 255#8, 5#40, 0#9, 0#9⟩, ⟨.internal, 0#8, 10#40, 0#9, 1#9⟩]
    code := setCode (setCode clearedCodes 0#8 ⟨1#8, 0#256⟩) 255#8 ⟨1#8, 1#256⟩
    sinkReady := true }

/-- BV-2 and DV-2: the single symbol 65 with count 3. -/
def tree1 : State :=
  { State.reset with
    status := ⟨false, true, false, false, true, true, false, false⟩
    nleaf := 1#9
    nnode := 1#10
    freq := setFreq clearedFreqs 65#8 3#32
    node := arenaOf [⟨.leaf, 65#8, 3#40, 0#9, 0#9⟩]
    code := setCode clearedCodes 65#8 ⟨1#8, 0#256⟩
    sinkReady := true }

/-- `s` with the engine at place `p` of the body of `c`. -/
def at_ (s : State) (c : Instr) (p : Point) : State :=
  { s with engine := some (c, p), status.busy := true, status.done := false }

/-- BV-4 halfway: BUILD's loop with the two leaves in the forest. -/
def merge2 : State :=
  { at_ tree2 .build .buildLoop with
    status := ⟨true, false, false, false, false, false, false, false⟩
    nnode := 2#10
    root := 0#9
    node := arenaOf [⟨.leaf, 0#8, 5#40, 0#9, 0#9⟩, ⟨.leaf, 255#8, 5#40, 0#9, 0#9⟩]
    code := clearedCodes
    forest := [0#9, 1#9] }

/-- CX-15: COMPRESS held at an empty, open IN. -/
def heldIn : State := { at_ tree2 .compress .compressRead with status.inwait := true }

/-- EXPANDX with the symbol 255 offered on OUT. -/
def heldOut : State := { at_ tree2 .expandx .walkOut with outPend := some 255#8, walk := ⟨1#9, 1#8, 0#32, 0#32⟩ }

/-- A state whose next move writes the word `w` to address `a`. -/
def writing (s : State) (a : Addr) (w : Word) : State := { s with agenda := [.host (.write a 4 w)] }

/-! ## One step of each command (CV-4 to CV-12, CX, EX, P4) -/

theorem test_nop_sets_busy : nextIs (exec .nop State.reset) (fun t => t.status.busy && !t.status.done) = true := by
  decide +kernel
theorem test_nop_busy_sets_ovr : nextIs (exec .nop heldIn) (fun t => statusWord t.status == 0xB9#32) = true := by decide +kernel
theorem test_srst_clears_tree : nextIs (exec .srst tree2) (fun t => statusWord t.status == 0#32 && t.nleaf == 0#9) = true := by
  decide +kernel
theorem test_ack_clears_error :
    nextIs (exec .ack { tree2 with status.err := true, status.ovr := true, errcode := .unknownSymbol })
      (fun t => statusWord t.status == 0x30#32 && t.errcode == .none) = true := by decide +kernel
theorem test_fclr_body : freqAt (fclrBody (at_ tree2 .fclr .start)).freq 255#8 = 0#32 := by decide +kernel
theorem test_build_merge :
    nodeAt (mergeStep merge2).node 2#9 = ⟨.internal, 0#8, 10#40, 0#9, 1#9⟩ ∧ (mergeStep merge2).forest = [2#9] := by
  decide +kernel
/-- BV-7, merge 0: positions (2, 0). -/
theorem test_build_select : select [2#40, 3#40, 1#40, 3#40] = (2, 0) := by decide
theorem test_derive_right_child_waits :
    (deriveVisit .derive ⟨2#9, 0#8, 0#256⟩ (at_ tree2 .derive (.deriveVisit ⟨2#9, 0#8, 0#256⟩))).stack = [⟨1#9, 1#8, 1#256⟩] := by
  decide +kernel
/-- DV-4: the code of 255 is "1". -/
theorem test_derive_leaf :
    codeAt (deriveVisit .derive ⟨1#9, 1#8, 1#256⟩ { at_ tree2 .derive .start with code := clearedCodes }).code 255#8 = ⟨1#8, 1#256⟩ := by
  decide +kernel
/-- R80: the eighth bit fills the byte, which is offered on OUT (CX-4: 0x55). -/
theorem test_compress_full_byte :
    (compressPack .compress 255#8 0#8 { at_ tree2 .compress .start with packer := ⟨0x2A#8, 7#3⟩ }).outPend = some 0x55#8 := by
  decide +kernel
/-- CX-3: the flush of "01" is 0x40. -/
theorem test_compress_flush :
    (compressFlush .compress { at_ tree2 .compress .start with packer := ⟨1#8, 2#3⟩ }).outPend = some 0x40#8 := by decide +kernel
/-- EX-14: the second bit of 0x40 is 1 and goes right. -/
theorem test_expandx_right :
    (walkRead .expandx { at_ tree2 .expandx .walkRead with reader := ⟨0x40#8, 7#4⟩, walk := ⟨2#9, 0#8, 0#32, 0#32⟩ }).map
      (fun t => t.walk.cur) = some 1#9 := by decide +kernel
/-- EX-8: a 1 bit at a single-leaf root. -/
theorem test_expandx_corrupt :
    (walkRead .expandx { at_ tree1 .expandx .walkRead with inPort := ⟨[0x80#8], true⟩ }).map
      (fun t => (t.engine, t.bitcnt)) = some (some (.expandx, .raising .corruptTree), 1#64) := by decide +kernel
theorem test_expand_ends_at_len :
    (walkTop .expand { at_ tree2 .expand .walkTop with walk := ⟨2#9, 0#8, 4#32, 4#32⟩ }).engine = some (.expand, .complete) := by
  decide +kernel
/-- EX-3: the bits run out before LEN. -/
theorem test_expand_truncated :
    (walkRead .expand { at_ tree2 .expand .walkRead with inPort := ⟨[], true⟩ }).map (fun t => t.engine)
      = some (some (.expand, .raising .truncated)) := by decide +kernel

/-- R245, R214: the raise, a micro-step of its own: ERR, with BUSY = 1 and DONE = 0. -/
theorem test_raise_micro_step :
    (engineStep (at_ tree2 .derive (.raising .noTree))).map (fun t => (statusWord t.status, t.errcode))
      = some (0x35#32, .noTree) := by decide +kernel
/-- R213: an error completion sets ERR and DONE, and ends BUSY, in one step of the machine. -/
theorem test_error_completion_is_one_step :
    nextIs (step (at_ tree2 .derive (.raising .noTree))) (fun t => statusWord t.status == 0x36#32 && t.errcode == .noTree)
      = true := by decide +kernel

/-! ## The port and a step (CV-9, CV-12, CV-13, CV-16, CV-19, BV-4) -/

theorem test_step_runs_fetched_word : nextIs (step (State.reset.withFetchWord 32 0x20)) (fun t => t.engine == some (.compress, .start)) = true := by
  decide +kernel
theorem test_step_illegal_word : nextIs (step (State.reset.withFetchWord 32 0x100)) (fun t => statusWord t.status == 0x06#32) = true := by
  decide +kernel
theorem test_node_words :
    portValue tree2 (decodeAddr 0x1010#16) = 0x400000FF#32 ∧ portValue tree2 (decodeAddr 0x102C#16) = 0x00010000#32 := by
  decide +kernel
/-- DV-4: the root of the two-leaf tree is Internal and allocated; index 511 reads 0. -/
theorem test_node_kind_valid :
    portValue tree2 (decodeAddr 0x1020#16) = 0xC0000000#32 ∧ portValue tree2 (decodeAddr 0x2FF0#16) = 0#32 := by decide +kernel
theorem test_code_words : portValue tree2 (decodeAddr 0x7FC0#16) = 1#32 ∧ portValue tree2 (decodeAddr 0x7FC4#16) = 1#32 := by
  decide +kernel
theorem test_id : portValue heldIn (decodeAddr 0x0000#16) = 0x48554646#32 := by decide +kernel
theorem test_freq_write : freqAt (hostWrite (decodeAddr 0x0504#16) 7#32 State.reset).freq 65#8 = 7#32 := by decide +kernel
theorem test_ie_write : portValue (hostWrite (decodeAddr 0x0010#16) 0xFFFFFFFF#32 State.reset) .ie = 3#32 := by decide +kernel

/-! ## The invariants hold of the small states -/

/-- R41: an arena that was filled from entry 0 on has nothing above. -/
theorem unallocated_of_arenaOf {s : State} (l : List Node) (hs : s.node = arenaOf l) (hl : s.nnode.toNat = l.length) :
    ∀ n, n < 511 → s.nnode.toNat ≤ n → nodeNo s n = Node.zero := by
  intro n hn hle
  have hmod : n % 512 = n := Nat.mod_eq_of_lt (by omega)
  have hne : (BitVec.ofNat 9 n : NodeIdx) ≠ 511#9 := by
    intro h
    have := congrArg BitVec.toNat h
    simp only [BitVec.toNat_ofNat] at this
    omega
  rw [nodeNo, hs, nodeAt_arenaOf l _ hne, BitVec.toNat_ofNat, List.getD_eq_getElem?_getD,
    List.getElem?_eq_none (by show l.length ≤ n % 512; omega)]
  rfl

theorem tree2_arena : ArenaInv tree2 [tree2.root] where
  leafCount := by decide +kernel
  leaf := by decide +kernel
  sorted := by decide +kernel
  internal := by decide +kernel
  free := unallocated_of_arenaOf _ rfl rfl
  once := by decide +kernel
  rootsIn := by decide +kernel
  count := by decide +kernel
  sum := by decide +kernel

theorem tree1_arena : ArenaInv tree1 [tree1.root] where
  leafCount := by decide +kernel
  leaf := by decide +kernel
  sorted := by decide +kernel
  internal := by decide +kernel
  free := unallocated_of_arenaOf _ rfl rfl
  once := by decide +kernel
  rootsIn := by decide +kernel
  count := by decide +kernel
  sum := by decide +kernel

theorem merge2_arena : ArenaInv merge2 merge2.forest where
  leafCount := by decide +kernel
  leaf := by decide +kernel
  sorted := by decide +kernel
  internal := by decide +kernel
  free := unallocated_of_arenaOf _ rfl rfl
  once := by decide +kernel
  rootsIn := by decide +kernel
  count := by decide +kernel
  sum := by decide +kernel

theorem tree2_codes : CodesMatch tree2 where
  coded := by unfold CodeOfLeaf; decide +kernel
  uncoded := by decide +kernel

/-- A state meets the lifecycle invariant when the decidable reading of its fields says so. -/
theorem lifecycle_of {s : State} (h1 : s.status.busy = s.engine.isSome) (h2 : s.status.busy = true → s.status.done = false)
    (h3 : s.engine.all (fun x => placeFits x.1 x.2) = true) (h4 : s.engine.all (fun x => validAt s.status x.2) = true)
    (h5 : s.status.inwait = s.engine.any fun x => heldAtIn x.2 s.reader s.inPort)
    (h6 : s.outPend.isSome = true → s.engine.any (fun x => mayOffer x.2) = true) (h7 : s.status.cv = true → s.status.tv = true)
    (h8 : s.status.err = true ↔ s.errcode ≠ .none) (h9 : s.reader.rbits.toNat ≤ 8) : LifecycleInv s :=
  ⟨h1, h2, fun x hx => by simpa [Option.all, Option.mem_def.mp hx] using h3,
    fun x hx => by simpa [Option.all, Option.mem_def.mp hx] using h4, h5, h6, h7, h8, h9⟩

theorem tree2_lifecycle : LifecycleInv tree2 := by apply lifecycle_of <;> decide +kernel
theorem heldIn_lifecycle : LifecycleInv heldIn := by apply lifecycle_of <;> decide +kernel
theorem heldOut_lifecycle : LifecycleInv heldOut := by apply lifecycle_of <;> decide +kernel
theorem merge2_lifecycle : LifecycleInv merge2 := by apply lifecycle_of <;> decide +kernel

theorem tree2_tree : TreeInv tree2 := ⟨fun _ => tree2_arena, fun h => absurd h (by decide +kernel)⟩
theorem merge2_tree : TreeInv merge2 := ⟨fun h => absurd h (by decide +kernel), fun _ => ⟨merge2_arena, by decide +kernel⟩⟩
theorem tree2_code : CodeInv tree2 :=
  ⟨fun _ => tree2_codes, fun c v h => by simp [tree2, State.reset] at h, fun c h => by simp [tree2, State.reset] at h⟩

/-! ## Witnesses: states that meet the hypotheses of the statements -/

theorem witness_DecodeAndEncodeAgree : Instr.wellFormed .build = true ∧ decode 0x10#32 = .command .build := by decide
theorem witness_StepRunsTheDecodedCommand :
    (writing State.reset 4#16 0x31#32).agenda = .host (.write 4#16 4 0x31#32) :: [] ∧ decode 0x31#32 = .command .expandx
      ∧ decodeTableWord 32 0x31 = some .expandx := ⟨rfl, by decide, by decide⟩
theorem witness_OnlyBadAccessesAreRefused :
    step { State.reset with agenda := [.host (.read 2#16 4)] } = .refused .portAccess
      ∧ step { State.reset with agenda := [.host (.write 4#16 2 0#32)] } = .refused .portAccess
      ∧ ∃ t, step State.reset = .next t := ⟨rfl, rfl, _, rfl⟩
theorem witness_ObservationDoesNotInfluence :
    (∃ t, step heldIn = .next t) ∧ step { State.reset with agenda := [.host (.read 2#16 4)] } = .refused .portAccess :=
  ⟨⟨_, rfl⟩, rfl⟩
theorem witness_IllegalWordEndsAsError :
    (writing tree2 4#16 0x100#32).agenda = .host (.write 4#16 4 0x100#32) :: [] ∧ (∀ i, decode 0x100#32 ≠ .command i)
      ∧ (writing tree2 4#16 0x100#32).status.busy = false := ⟨rfl, by intro i; cases i <;> decide, rfl⟩
theorem witness_BusyCommandsAreIgnored :
    (writing heldIn 4#16 4#32).status.busy = true ∧ (writing heldIn 4#16 4#32).agenda = .host (.write 4#16 4 4#32) :: []
      ∧ ∀ i, decode 4#32 ≠ .command i := ⟨rfl, rfl, by intro i; cases i <;> decide⟩
theorem witness_AcceptanceStartsTheBody : tree2.status.busy = false := rfl
theorem witness_CompletionStepEndsTheCommand :
    (at_ tree2 .compress .complete).engine = some (.compress, .complete) ∧ (at_ tree2 .nop .complete).engine = some (.nop, .complete) :=
  ⟨rfl, rfl⟩
theorem witness_RaisingAnErrorIsPrecise :
    (at_ tree2 .compress (.raising .unknownSymbol)).engine = some (.compress, .raising .unknownSymbol)
      ∧ (at_ tree2 .build (.raising .emptyInput)).engine = some (.build, .raising .emptyInput) := ⟨rfl, rfl⟩
theorem witness_AcknowledgeClearsTheError : tree2.status.busy = false ∧ heldIn.status.busy = true := ⟨rfl, rfl⟩
theorem witness_ResetStateIsAsSpecified : ({ tree2 with agenda := [.host .hardReset] } : State).agenda = .host .hardReset :: [] := rfl
theorem witness_NopOnlySetsDone : tree2.status.busy = false ∧ heldIn.status.busy = true := ⟨rfl, rfl⟩
theorem witness_FclrClearsOnlyTheFrequencies : tree2.status.busy = false ∧ tree2.status.err = false := ⟨rfl, rfl⟩
theorem witness_FailedPreconditionsChangeNothingElse :
    State.reset.status.busy = false ∧ State.reset.status.tv = false ∧ State.reset.status.cv = false := ⟨rfl, rfl, rfl⟩
theorem witness_EveryStepKeepsTheLifecycle : LifecycleInv heldIn ∧ ∃ t, step heldIn = .next t := ⟨heldIn_lifecycle, _, rfl⟩
theorem witness_EveryStepKeepsTheTree : LifecycleInv merge2 ∧ TreeInv merge2 ∧ ∃ t, step merge2 = .next t :=
  ⟨merge2_lifecycle, merge2_tree, _, rfl⟩
theorem witness_EveryStepKeepsTheCodes : LifecycleInv tree2 ∧ TreeInv tree2 ∧ CodeInv tree2 ∧ ∃ t, step tree2 = .next t :=
  ⟨tree2_lifecycle, tree2_tree, tree2_code, _, rfl⟩
theorem witness_EngineIsHeldOnlyAtTheStreams :
    LifecycleInv heldIn ∧ engineStep heldIn = none ∧ heldIn.status.inwait = true
      ∧ LifecycleInv heldOut ∧ engineStep heldOut = none ∧ heldOut.outPend = some 255#8 :=
  ⟨heldIn_lifecycle, by decide +kernel, rfl, heldOut_lifecycle, by decide +kernel, rfl⟩
theorem witness_ErrorsAndOverrunsAreSticky :
    let s : State := { tree2 with status.err := true, status.ovr := true, errcode := .noCode, agenda := Program.cmd .nop }
    (∃ t, step s = .next t) ∧ ¬ResetsNext s ∧ ¬AcksNext s ∧ s.status.err = true ∧ s.status.ovr = true :=
  ⟨⟨_, rfl⟩, by unfold ResetsNext; decide +kernel, by unfold AcksNext; decide +kernel, rfl, rfl⟩

/-- One change for each clause: the tree by BUILD, the codes and CV by DERIVE, the counters and PARTIAL by EXPANDX, FREQ, LEN and IE
by a host write. -/
theorem witness_EveryRegisterHasItsWriters :
    (LifecycleInv merge2 ∧ ¬ResetsNext merge2 ∧ nextIs (step merge2) (fun t => t.nnode != merge2.nnode) = true)
      ∧ (let s := { at_ tree2 .derive .deriveDone with status.cv := false }
         LifecycleInv s ∧ ¬ResetsNext s ∧ nextIs (step s) (fun t => t.status.cv != s.status.cv) = true)
      ∧ (let s := { heldOut with outPend := none }
         LifecycleInv s ∧ ¬ResetsNext s ∧ nextIs (step s) (fun t => t.bytecnt != s.bytecnt) = true)
      ∧ (let s : State := { at_ tree2 .expandx .walkRead with inPort := ⟨[], true⟩, walk := ⟨2#9, 1#8, 0#32, 0#32⟩ }
         LifecycleInv s ∧ ¬ResetsNext s ∧ nextIs (step s) (fun t => t.status.partialWalk != s.status.partialWalk) = true)
      ∧ (let s := writing tree2 (Program.freqAddr 255#8) 9#32
         LifecycleInv s ∧ ¬ResetsNext s ∧ nextIs (step s) (fun t => t.freq != s.freq) = true)
      ∧ (let s := writing tree2 0x0014#16 9#32
         LifecycleInv s ∧ ¬ResetsNext s ∧ nextIs (step s) (fun t => t.len != s.len) = true)
      ∧ (let s := writing tree2 0x0010#16 3#32
         LifecycleInv s ∧ ¬ResetsNext s ∧ nextIs (step s) (fun t => t.ie != s.ie) = true) := by
  simp only [ResetsNext]
  refine ⟨⟨merge2_lifecycle, ?_, ?_⟩, ⟨?_, ?_, ?_⟩, ⟨?_, ?_, ?_⟩, ⟨?_, ?_, ?_⟩, ⟨?_, ?_, ?_⟩, ⟨?_, ?_, ?_⟩, ⟨?_, ?_, ?_⟩⟩ <;>
    first | decide +kernel | (apply lifecycle_of <;> decide +kernel)

/-- One change for each clause about STATUS and ERRCODE, in their order: BUSY rises and falls, DONE rises (at completion, at an
illegal word) and falls (at acceptance, at ACK), ERR and ERRCODE rise and fall, OVR rises and falls, INWAIT rises and falls. -/
theorem witness_EveryRegisterHasItsWriters_status :
    (let s := writing tree2 4#16 (encode .build)
     LifecycleInv s ∧ ¬ResetsNext s ∧ s.status.busy = false ∧ nextIs (step s) (fun t => t.status.busy) = true)
      ∧ (let s := at_ tree2 .nop .complete
         LifecycleInv s ∧ ¬ResetsNext s ∧ s.status.busy = true ∧ s.status.done = false
           ∧ nextIs (step s) (fun t => !t.status.busy && t.status.done) = true)
      ∧ (let s := writing State.reset 4#16 0x12#32
         LifecycleInv s ∧ ¬ResetsNext s ∧ s.status.done = false ∧ s.status.err = false
           ∧ nextIs (step s) (fun t => t.status.done && t.status.err && t.errcode == .illegalCmd) = true)
      ∧ (let s := { writing tree2 4#16 (encode .nop) with status.done := true }
         LifecycleInv s ∧ ¬ResetsNext s ∧ s.status.done = true ∧ nextIs (step s) (fun t => !t.status.done) = true)
      ∧ (let s := at_ tree2 .compress (.raising .unknownSymbol)
         LifecycleInv s ∧ ¬ResetsNext s ∧ s.status.err = false
           ∧ nextIs (step s) (fun t => t.status.err && t.errcode == .unknownSymbol) = true)
      ∧ (let s := { writing tree2 4#16 (encode .ack) with
           status.done := true, status.err := true, status.ovr := true, errcode := .truncated }
         LifecycleInv s ∧ ¬ResetsNext s ∧ s.status.done = true ∧ s.status.err = true ∧ s.status.ovr = true
           ∧ nextIs (step s) (fun t => !t.status.done && !t.status.err && !t.status.ovr && t.errcode == .none) = true)
      ∧ (let s := writing heldIn 0x0014#16 9#32
         LifecycleInv s ∧ ¬ResetsNext s ∧ s.status.ovr = false ∧ nextIs (step s) (fun t => t.status.ovr) = true)
      ∧ (let s := at_ tree2 .compress .start
         LifecycleInv s ∧ ¬ResetsNext s ∧ s.status.inwait = false ∧ nextIs (step s) (fun t => t.status.inwait) = true)
      ∧ (let s : State := { heldIn with agenda := [.host .close] }
         LifecycleInv s ∧ ¬ResetsNext s ∧ s.status.inwait = true ∧ nextIs (step s) (fun t => !t.status.inwait) = true) := by
  simp only [ResetsNext]
  refine ⟨⟨?_, ?_, ?_⟩, ⟨?_, ?_, ?_⟩, ⟨?_, ?_, ?_⟩, ⟨?_, ?_, ?_⟩, ⟨?_, ?_, ?_⟩,
    ⟨?_, ?_, ?_⟩, ⟨?_, ?_, ?_⟩, ⟨?_, ?_, ?_⟩, ⟨?_, ?_, ?_⟩⟩ <;>
    first | decide +kernel | (apply lifecycle_of <;> decide +kernel)

theorem witness_StreamsKeepTheirOrder :
    (LifecycleInv heldOut ∧ heldOut.outPend = some 255#8 ∧ ¬ResetsNext heldOut ∧ ∃ t, step heldOut = .next t)
      ∧ (let s : State := { tree2 with agenda := [.host (.push 7#8)] }
         LifecycleInv s ∧ nextIs (step s) (fun t => t.inPort.buf == [7#8]) = true)
      ∧ (let s : State := { at_ tree2 .compress (.raising .unknownSymbol) with inPort := ⟨[7#8, 8#8], true⟩ }
         LifecycleInv s ∧ nextIs (step s) (fun t => t.inPort.buf == []) = true) := by
  simp only [ResetsNext]
  exact ⟨⟨heldOut_lifecycle, rfl, by decide +kernel, _, rfl⟩, ⟨by apply lifecycle_of <;> decide +kernel, by decide +kernel⟩,
    by apply lifecycle_of <;> decide +kernel, by decide +kernel⟩

theorem witness_HostWritesAreAsSpecified :
    (0x0010#16).toNat % 4 = 0 ∧ (0x0014#16).toNat % 4 = 0 ∧ (Program.freqAddr 0#8).toNat % 4 = 0
      ∧ (Program.freqAddr 255#8).toNat % 4 = 0 ∧ tree2.status.busy = false ∧ heldIn.status.busy = true
      ∧ (0x07FC#16 = Program.freqAddr 255#8) ∧ ∀ x, 0x0800#16 ≠ Program.freqAddr x := by decide +kernel
theorem witness_ReadsChangeNothing :
    ({ heldIn with agenda := [.host (.read 0x0008#16 4)] } : State).agenda = .host (.read 0x0008#16 4) :: []
      ∧ (0x0008#16).toNat % 4 = 0 ∧ decodeAddr 0x0030#16 = .reserved ∧ decodeAddr 0xFFFC#16 = .reserved :=
  ⟨rfl, by decide, by decide, by decide⟩
theorem witness_WideValuesReadLowWordFirst : (510#9 : NodeIdx) ≠ 511#9 := by decide
theorem witness_IrqFollowsDoneAndErr :
    tree2.status.busy = false ∧ (at_ tree2 .nop .complete).engine = some (.nop, .complete)
      ∧ (at_ tree2 .derive (.raising .noTree)).engine = some (.derive, .raising .noTree) := ⟨rfl, rfl, rfl⟩
theorem witness_WindowWordsHoldTheirFields : (510#9 : NodeIdx) ≠ 511#9 ∧ 9 ≤ (9#4).toNat ∧ 9 ≤ (15#4).toNat := by decide
theorem witness_BuildOfNothingRaisesEmptyInput : State.reset.status.busy = false ∧ ∀ x, freqAt State.reset.freq x = 0#32 :=
  ⟨rfl, by decide +kernel⟩
theorem witness_BuildBuildsTheTree : tree2.status.busy = false ∧ 0#32 < freqAt tree2.freq 255#8 := ⟨rfl, by decide +kernel⟩
theorem witness_BuildDependsOnFreqAlone :
    tree2.status.busy = false ∧ ({ State.reset with freq := tree2.freq } : State).status.busy = false
      ∧ tree2.freq = ({ State.reset with freq := tree2.freq } : State).freq := ⟨rfl, rfl, rfl⟩
theorem witness_SelectFindsTheTwoMinima : 2 ≤ ([2#40, 3#40, 1#40, 3#40] : List Frq).length := by decide
theorem witness_MergePlacesTheChildren :
    merge2.engine = some (.build, .buildLoop) ∧ 2 ≤ merge2.forest.length ∧ merge2.nnode.toNat < 511
      ∧ select (merge2.forest.map fun m => (nodeAt merge2.node m).frq) = (0, 1) := by decide +kernel
theorem witness_DeriveDerivesTheCodes : tree2.status.busy = false ∧ tree2.status.tv = true ∧ ArenaInv tree2 [tree2.root] :=
  ⟨rfl, rfl, tree2_arena⟩
theorem witness_SingleLeafGetsTheCodeZero :
    tree1.status.busy = false ∧ tree1.status.tv = true ∧ (nodeAt tree1.node tree1.root).kind = .leaf ∧ ArenaInv tree1 [tree1.root] :=
  ⟨rfl, rfl, by decide +kernel, tree1_arena⟩
theorem witness_CodesArePrefixFree :
    ArenaInv tree2 [tree2.root] ∧ CodesMatch tree2 ∧ (0#8 : Sym) ≠ 255#8 ∧ (codeAt tree2.code 0#8).clen ≠ 0#8
      ∧ (codeAt tree2.code 255#8).clen ≠ 0#8 := ⟨tree2_arena, tree2_codes, by decide, by decide +kernel, by decide +kernel⟩
theorem witness_KraftSumIsOne : ArenaInv tree2 [tree2.root] ∧ CodesMatch tree2 ∧ 2 ≤ tree2.nleaf.toNat :=
  ⟨tree2_arena, tree2_codes, by decide⟩
theorem witness_CodeLengthsAreBounded :
    ArenaInv tree2 [tree2.root] ∧ CodesMatch tree2 ∧ (codeAt tree2.code 255#8).clen ≠ 0#8 ∧ 2 ≤ tree2.nleaf.toNat
      ∧ tree2.nleaf.toNat ≤ 2 := ⟨tree2_arena, tree2_codes, by decide +kernel, by decide, by decide⟩
theorem witness_CompressPacksTheCodes :
    let s : State := { tree2 with inPort := ⟨[0#8, 255#8], true⟩ }
    s.status.busy = false ∧ s.status.cv = true ∧ Quiet s ∧ s.inPort = ⟨[0#8, 255#8], true⟩
      ∧ ∀ b ∈ [0#8, 255#8], (codeAt s.code b).clen ≠ 0#8 := ⟨rfl, rfl, ⟨rfl, rfl, rfl⟩, rfl, by decide +kernel⟩
theorem witness_CompressStopsAtAnUnknownSymbol :
    let s : State := { tree2 with inPort := ⟨[0#8] ++ 68#8 :: [255#8], false⟩ }
    s.status.busy = false ∧ s.status.cv = true ∧ Quiet s ∧ (∀ x ∈ [0#8], (codeAt s.code x).clen ≠ 0#8)
      ∧ (codeAt s.code 68#8).clen = 0#8 := ⟨rfl, rfl, ⟨rfl, rfl, rfl⟩, by decide +kernel, by decide +kernel⟩

/-- Both ways to the next bit, at both kinds of node, for both bits. -/
theorem witness_WalkMovesOnABit :
    (let s : State := { at_ tree2 .expandx .walkRead with reader := ⟨0x40#8, 7#4⟩, walk := ⟨2#9, 0#8, 0#32, 0#32⟩ }
     s.engine = some (.expandx, .walkRead) ∧ (6#4).toNat < 8 ∧ s.reader = ⟨0x40#8, 6#4 + 1#4⟩
       ∧ (nodeAt s.node s.walk.cur).kind = .internal)
      ∧ (let s : State := { at_ tree1 .expand .walkRead with inPort := ⟨[0x80#8], true⟩ }
         s.engine = some (.expand, .walkRead) ∧ s.reader.rbits = 0#4 ∧ s.inPort.buf = 0x80#8 :: []
           ∧ (nodeAt s.node s.walk.cur).kind = .leaf ∧ (0x80#8).getLsbD (7#4).toNat = true ∧ (0x40#8).getLsbD (7#4).toNat = false) := by
  decide +kernel
theorem witness_LeafReachedIsEmitted :
    (let s : State := { at_ tree2 .expandx .walkTop with walk := ⟨1#9, 1#8, 0#32, 0#32⟩ }
     s.engine = some (.expandx, .walkTop) ∧ s.walk.depth ≠ 0#8 ∧ (nodeAt s.node s.walk.cur).kind = .leaf)
      ∧ (let s : State := { at_ tree2 .expandx .walkTop with walk := ⟨2#9, 0#8, 0#32, 0#32⟩ }
         s.walk.depth = 0#8 ∧ (engineStep s).isSome = true) := by decide +kernel
theorem witness_WalkEndsAtExhaustion :
    (let s : State := { at_ tree2 .expand .walkRead with inPort := ⟨[], true⟩ }
     s.reader.rbits = 0#4 ∧ s.inPort = ⟨[], true⟩ ∧ s.engine = some (.expand, .walkRead))
      ∧ (let s : State := { at_ tree2 .expandx .walkRead with inPort := ⟨[], true⟩ }
         s.reader.rbits = 0#4 ∧ s.inPort = ⟨[], true⟩ ∧ s.engine = some (.expandx, .walkRead) ∧ s.status.partialWalk = false) := by
  decide +kernel
theorem witness_ExpandOfLengthZeroReadsNothing : tree2.status.busy = false ∧ tree2.status.tv = true ∧ tree2.len = 0#32 :=
  ⟨rfl, rfl, rfl⟩
theorem witness_ExpandReproducesTheBytes :
    let s : State := { tree2 with inPort := ⟨packedBytes (streamOf tree2.code [0#8, 255#8]), true⟩, len := 2#32 }
    s.status.busy = false ∧ s.status.tv = true ∧ ArenaInv s [s.root] ∧ CodesMatch s ∧ Quiet s
      ∧ s.len = BitVec.ofNat 32 [0#8, 255#8].length ∧ ∀ b ∈ [0#8, 255#8], (codeAt s.code b).clen ≠ 0#8 :=
  ⟨rfl, rfl, ⟨tree2_arena.1, tree2_arena.2, tree2_arena.3, tree2_arena.4, tree2_arena.5, tree2_arena.6, tree2_arena.7,
    tree2_arena.8, tree2_arena.9⟩, ⟨tree2_codes.1, tree2_codes.2⟩, ⟨rfl, rfl, rfl⟩, rfl, by decide +kernel⟩
/-- EX-14: IN = [0x40], and the symbol with the all-zero code is 0. -/
theorem witness_ExpandxAddsTheSpuriousSymbols :
    packedBytes (streamOf tree2.code [0#8, 255#8]) = [0x40#8] ∧ (codeAt tree2.code 0#8).clen ≠ 0#8
      ∧ (∀ b ∈ codeBits (codeAt tree2.code 0#8), b = false) ∧ ∀ b ∈ [0#8, 255#8], (codeAt tree2.code b).clen ≠ 0#8 := by
  decide +kernel
theorem witness_ExpandxDecodesEveryBitPattern :
    let s : State := { tree2 with inPort := ⟨[0xA5#8], true⟩ }
    s.status.busy = false ∧ s.status.tv = true ∧ ArenaInv s [s.root] ∧ 2 ≤ s.nleaf.toNat ∧ Quiet s :=
  ⟨rfl, rfl, ⟨tree2_arena.1, tree2_arena.2, tree2_arena.3, tree2_arena.4, tree2_arena.5, tree2_arena.6, tree2_arena.7,
    tree2_arena.8, tree2_arena.9⟩, by decide, ⟨rfl, rfl, rfl⟩⟩
theorem witness_RoundTripReproducesTheInput :
    let s : State := { tree2 with inPort := ⟨[0#8, 255#8], true⟩ }
    s.status.busy = false ∧ s.sinkReady = true ∧ s.outPend = none ∧ s.inPort = ⟨[0#8, 255#8], true⟩
      ∧ ([0#8, 255#8] : List Byte) ≠ [] ∧ ∀ b ∈ [0#8, 255#8], 0#32 < freqAt s.freq b :=
  ⟨rfl, rfl, rfl, rfl, by decide, by decide +kernel⟩
/-- The program that pushes after its command, for an input of any length, and the one that pushes before it, for one byte: every
IN_DEPTH has room for that (R11). Each has a turn of the engine in between. -/
theorem witness_InputMayFollowItsCommand :
    let s : State := { tree2 with len := 2#32 }
    s.status.busy = false ∧ s.sinkReady = true ∧ s.outPend = none ∧ s.inPort = ⟨[], false⟩
      ∧ (∀ b ∈ [0#8, 255#8], (codeAt s.code b).clen ≠ 0#8) ∧ s.status.cv = true ∧ s.status.tv = true
      ∧ ArenaInv s [s.root] ∧ CodesMatch s ∧ packedBytes (streamOf s.code [0#8, 255#8]) = [0x40#8]
      ∧ s.len = BitVec.ofNat 32 [0#8, 255#8].length ∧ ([0x40#8] : List Byte).length ≤ Config.inDepth
      ∧ (codeAt s.code 0#8).clen ≠ 0#8 ∧ (∀ b ∈ codeBits (codeAt s.code 0#8), b = false)
      ∧ (Program.cmd .expand ++ [Move.engine] ++ Program.push [0x40#8] ++ Program.close ++ Program.wait).filter
            (fun m => decide (m ≠ Move.engine)) = Program.cmd .expand ++ Program.push [0x40#8] ++ Program.close ++ Program.wait
      ∧ (Program.push [0x40#8] ++ Program.close ++ [Move.engine] ++ Program.cmd .compress ++ Program.wait).filter
            (fun m => decide (m ≠ Move.engine)) = Program.push [0x40#8] ++ Program.close ++ Program.cmd .compress ++ Program.wait :=
  ⟨rfl, rfl, rfl, rfl, by decide +kernel, rfl, rfl, ⟨tree2_arena.1, tree2_arena.2, tree2_arena.3, tree2_arena.4, tree2_arena.5,
    tree2_arena.6, tree2_arena.7, tree2_arena.8, tree2_arena.9⟩, ⟨tree2_codes.1, tree2_codes.2⟩, by decide +kernel, rfl,
    by simp [Config.inDepth], by decide +kernel, by decide +kernel, by decide, by decide⟩
theorem witness_PushesAreAcceptedOrWait :
    tree2.inPort.closed = false ∧ tree2.inPort.buf.length < Config.inDepth
      ∧ ({ tree2 with inPort.closed := true } : State).inPort.closed = true :=
  ⟨rfl, by simp [tree2, State.reset, Config.inDepth], rfl⟩
theorem witness_EveryCommandCompletes :
    let s : State := { at_ tree2 .compress .compressRead with inPort := ⟨[255#8], true⟩ }
    LifecycleInv s ∧ TreeInv s ∧ s.agenda = [] ∧ s.sinkReady = true ∧ s.inPort.closed = true :=
  ⟨by apply lifecycle_of <;> decide +kernel,
    ⟨fun _ => ⟨tree2_arena.1, tree2_arena.2, tree2_arena.3, tree2_arena.4, tree2_arena.5, tree2_arena.6, tree2_arena.7,
      tree2_arena.8, tree2_arena.9⟩, fun h => absurd h (by decide +kernel)⟩, rfl, rfl, rfl⟩

end Sys2Proof.Tests
end

