-- ==== Sys2Proof/Proofs/MicroStep.lean ====
section
/-! SUPPORT. Everything a micro-step of the engine can do, said once: what the body of each command may change, and to which
place it goes on. -/

namespace Sys2Proof.Machine

/-! ## What two states share -/

/-- The tree is the same: NODE, its counters, ROOT and TV, and the TRACE events sent. -/
def SameTree (s t : State) : Prop :=
  t.node = s.node ∧ t.nleaf = s.nleaf ∧ t.nnode = s.nnode ∧ t.root = s.root ∧ t.status.tv = s.status.tv
    ∧ t.traceSent = s.traceSent

/-- The code table and CV are the same. -/
def SameCodes (s t : State) : Prop := t.code = s.code ∧ t.status.cv = s.status.cv

/-- BYTECNT and BITCNT are the same. -/
def SameCounters (s t : State) : Prop := t.bytecnt = s.bytecnt ∧ t.bitcnt = s.bitcnt

/-- BUSY, DONE, ERR and ERRCODE are the same. -/
def SameFlags (s t : State) : Prop :=
  t.status.busy = s.status.busy ∧ t.status.done = s.status.done ∧ t.status.err = s.status.err ∧ t.errcode = s.errcode

/-! ## A pass of a body -/

/-- What the body of `c` does when it goes from place `p` in `s` to place `q` in `u`: `q` is a place of the same body and finds TV
and CV as it needs them, a byte is offered only at a place for it, and each register is written by its own commands only. -/
structure BodyStep (s : State) (c : Instr) (p q : Point) (u : State) : Prop where
  fits : placeFits c q = true
  valid : validAt s.status p = true → validAt u.status q = true
  cvtv : validAt s.status p = true → (s.status.cv = true → s.status.tv = true) → u.status.cv = true → u.status.tv = true
  out : u.outPend.isSome = true → s.outPend.isSome = true ∨ mayOffer q = true
  rbits : s.reader.rbits.toNat ≤ 8 → u.reader.rbits.toNat ≤ 8
  tree : c ≠ .build → SameTree s u
  codes : c ≠ .build → c ≠ .derive → SameCodes s u
  counters : endsSession c = false → SameCounters s u
  partialWalk : c ≠ .expand → c ≠ .expandx → u.status.partialWalk = s.status.partialWalk
  freq : c ≠ .fclr → u.freq = s.freq

/-- `t` is where the body of `c` goes on from place `p` in `s`. -/
def Goes (s : State) (c : Instr) (p : Point) (t : State) : Prop :=
  ∃ q u, t = goTo c q u ∧ SameFlags s u ∧ (placeFits c p = true → BodyStep s c p q u)

/-- A place at which a command ends changes nothing: the body is empty, or a precondition failed (R212). -/
theorem Goes.ending {s : State} {c : Instr} {p q : Point} (hf : placeFits c p = true → placeFits c q = true)
    (hq : ∀ st, validAt st q = true) : Goes s c p (goTo c q s) :=
  ⟨q, s, rfl, ⟨rfl, rfl, rfl, rfl⟩, fun hp =>
    { fits := hf hp
      valid := fun _ => hq _
      cvtv := fun _ h => h
      out := .inl
      rbits := id
      tree := fun _ => ⟨rfl, rfl, rfl, rfl, rfl, rfl⟩
      codes := fun _ _ => ⟨rfl, rfl⟩
      counters := fun _ => ⟨rfl, rfl⟩
      partialWalk := fun _ _ => rfl
      freq := fun _ => rfl }⟩

/-- What COMPRESS writes: the counters, the packer, INBUF and OUT. -/
theorem Goes.compress {s : State} {c : Instr} {p q : Point} (b : Word) (n : BitVec 64) (pk : Packer) (buf : List Byte)
    (out : Option Byte) (hp : placeFits c p = true → c = .compress) (hq : placeFits .compress q = true)
    (hv : validAt s.status p = true → validAt s.status q = true)
    (ho : out.isSome = true → s.outPend.isSome = true ∨ mayOffer q = true) :
    Goes s c p (goTo c q { s with bytecnt := b, bitcnt := n, packer := pk, inPort.buf := buf, outPend := out }) :=
  ⟨q, _, rfl, ⟨rfl, rfl, rfl, rfl⟩, fun h => by
    obtain rfl := hp h
    exact
    { fits := hq
      valid := hv
      cvtv := fun _ h => h
      out := ho
      rbits := id
      tree := fun _ => ⟨rfl, rfl, rfl, rfl, rfl, rfl⟩
      codes := fun _ _ => ⟨rfl, rfl⟩
      counters := fun h => absurd h (by decide)
      partialWalk := fun _ _ => rfl
      freq := fun _ => rfl }⟩

/-- What EXPAND and EXPANDX write: the counters, the reader, the walk, PARTIAL, INBUF and OUT. -/
theorem Goes.walk {s : State} {c : Instr} {p q : Point} (b : Word) (n : BitVec 64) (rd : BitReader) (w : Walk) (pw : Bool)
    (buf : List Byte) (out : Option Byte) (hp : placeFits c p = true → c = .expand ∨ c = .expandx)
    (hq : placeFits c p = true → placeFits c q = true) (hv : validAt s.status p = true → validAt s.status q = true)
    (ho : out.isSome = true → s.outPend.isSome = true ∨ mayOffer q = true)
    (hr : s.reader.rbits.toNat ≤ 8 → rd.rbits.toNat ≤ 8) :
    Goes s c p (goTo c q { s with
      bytecnt := b
      bitcnt := n
      reader := rd
      walk := w
      status.partialWalk := pw
      inPort.buf := buf
      outPend := out }) :=
  ⟨q, _, rfl, ⟨rfl, rfl, rfl, rfl⟩, fun h =>
    { fits := hq h
      valid := fun hs => by have := hv hs; cases q <;> exact this
      cvtv := fun _ h => h
      out := ho
      rbits := hr
      tree := fun _ => ⟨rfl, rfl, rfl, rfl, rfl, rfl⟩
      codes := fun _ _ => ⟨rfl, rfl⟩
      counters := fun hc => by obtain rfl | rfl := hp h <;> exact absurd hc (by decide)
      partialWalk := fun h1 h2 => by obtain rfl | rfl := hp h <;> contradiction
      freq := fun _ => rfl }⟩

/-- What DERIVE writes: the code table, CV and its stack. -/
theorem Goes.derive {s : State} {c : Instr} {p q : Point} (cv : Bool) (code : Vector Code 256) (st : List Visit)
    (hp : placeFits c p = true → c = .derive) (hq : placeFits .derive q = true)
    (hv : validAt s.status p = true → validAt { s.status with cv := cv } q = true)
    (hcv : validAt s.status p = true → cv = true → s.status.tv = true) :
    Goes s c p (goTo c q { s with status.cv := cv, code := code, stack := st }) :=
  ⟨q, _, rfl, ⟨rfl, rfl, rfl, rfl⟩, fun h => by
    obtain rfl := hp h
    exact
    { fits := hq
      valid := hv
      cvtv := fun h _ => hcv h
      out := .inl
      rbits := id
      tree := fun _ => ⟨rfl, rfl, rfl, rfl, rfl, rfl⟩
      codes := fun _ h => absurd rfl h
      counters := fun _ => ⟨rfl, rfl⟩
      partialWalk := fun _ _ => rfl
      freq := fun _ => rfl }⟩

/-- What BUILD writes: the tree with its counters and events, the code table, TV, CV and the forest. -/
theorem Goes.build {s : State} {c : Instr} {p q : Point} (tv cv : Bool) (code : Vector Code 256) (node : Vector Node 511)
    (nleaf : BitVec 9) (nnode : BitVec 10) (root : NodeIdx) (f : List NodeIdx) (sent seen : List MergeEvent) (d : Nat)
    (hp : placeFits c p = true → c = .build) (hq : placeFits .build q = true)
    (hv : validAt s.status p = true → validAt { s.status with tv := tv, cv := cv } q = true)
    (hcv : validAt s.status p = true → cv = true → tv = true) :
    Goes s c p (goTo c q { s with
      status.tv := tv
      status.cv := cv
      code := code
      node := node
      nleaf := nleaf
      nnode := nnode
      root := root
      forest := f
      traceSent := sent
      traceSeen := seen
      draws := d }) :=
  ⟨q, _, rfl, ⟨rfl, rfl, rfl, rfl⟩, fun h => by
    obtain rfl := hp h
    exact
    { fits := hq
      valid := hv
      cvtv := fun h _ => hcv h
      out := .inl
      rbits := id
      tree := fun h => absurd rfl h
      codes := fun h => absurd rfl h
      counters := fun _ => ⟨rfl, rfl⟩
      partialWalk := fun _ _ => rfl
      freq := fun _ => rfl }⟩

/-- FCLR writes FREQ (R112). -/
theorem fclrBody_goes (s : State) : Goes s .fclr .start (fclrBody s) :=
  ⟨.complete, _, rfl, ⟨rfl, rfl, rfl, rfl⟩, fun _ =>
    { fits := rfl
      valid := fun _ => rfl
      cvtv := fun _ h => h
      out := .inl
      rbits := id
      tree := fun _ => ⟨rfl, rfl, rfl, rfl, rfl, rfl⟩
      codes := fun _ _ => ⟨rfl, rfl⟩
      counters := fun _ => ⟨rfl, rfl⟩
      partialWalk := fun _ _ => rfl
      freq := fun h => absurd rfl h }⟩

/-! ## The places of the bodies -/

theorem buildStart_goes (s : State) : Goes s .build .start (buildStart s) := by
  unfold buildStart
  dsimp only
  split
  · exact .build false false _ _ _ _ _ _ _ _ _ (fun _ => rfl) rfl (fun _ => rfl) (by simp)
  · exact .build false false _ _ _ _ _ _ _ _ _ (fun _ => rfl) rfl (fun _ => rfl) (by simp)

theorem buildLoop_goes (c : Instr) (s : State) : Goes s c .buildLoop (buildLoop c s) := by
  unfold buildLoop
  split
  · exact .build s.status.tv s.status.cv s.code _ _ _ _ _ _ _ _ (by simp [placeFits]) rfl id (by simp +contextual [validAt])
  · exact .build true s.status.cv s.code _ _ _ _ _ _ _ _ (by simp [placeFits]) rfl (fun _ => rfl) (fun _ _ => rfl)

theorem deriveStart_goes (s : State) : Goes s .derive .start (deriveStart s) := by
  unfold deriveStart
  split
  · rename_i htv
    dsimp only
    split
    · exact .derive false _ _ (fun _ => rfl) rfl (by simp [validAt, htv]) (by simp)
    · exact .derive false _ _ (fun _ => rfl) rfl (by simp [validAt, htv]) (by simp)
  · exact .ending (fun _ => rfl) (fun _ => rfl)

theorem nextVisit_goes (c : Instr) (v : Visit) (s : State) (code : Vector Code 256) :
    Goes s c (.deriveVisit v) (nextVisit c { s with code := code }) := by
  unfold nextVisit
  split
  · exact .derive s.status.cv _ _ (by simp [placeFits]) rfl id (by simp +contextual [validAt])
  · exact .derive s.status.cv _ _ (by simp [placeFits]) rfl id (by simp +contextual [validAt])

theorem deriveVisit_goes (c : Instr) (v : Visit) (s : State) : Goes s c (.deriveVisit v) (deriveVisit c v s) := by
  unfold deriveVisit
  dsimp only
  split
  · exact nextVisit_goes c v s _
  · exact .derive s.status.cv _ _ (by simp [placeFits]) rfl id (by simp +contextual [validAt])

theorem deriveDone_goes (c : Instr) (s : State) : Goes s c .deriveDone (deriveDone c s) :=
  .derive true _ _ (by simp [placeFits]) rfl (fun _ => rfl) (by simp +contextual [validAt])

theorem compressStart_goes (s : State) : Goes s .compress .start (compressStart s) := by
  unfold compressStart
  split
  · rename_i hcv
    exact .compress _ _ _ _ _ (fun _ => rfl) rfl (fun _ => hcv) .inl
  · exact .ending (fun _ => rfl) (fun _ => rfl)

theorem compressRead_goes {c : Instr} {s t : State} (h : compressRead c s = some t) : Goes s c .compressRead t := by
  unfold compressRead at h
  split at h
  · split at h
    · rw [← Option.some.inj h]
      exact .compress _ _ _ _ _ (by simp [placeFits]) rfl id .inl
    · simp at h
  · rw [← Option.some.inj h]
    dsimp only
    split
    · exact .compress _ _ _ _ _ (by simp [placeFits]) rfl (fun _ => rfl) .inl
    · exact .compress _ _ _ _ _ (by simp [placeFits]) rfl id .inl

/-- The places at which a bit has just been packed: the next bit or the next byte follows (R165). -/
theorem bitPacked_goes {c : Instr} {p : Point} {s : State} (b : Byte) (i : BitVec 8) (pk : Packer)
    (hp : placeFits c p = true → c = .compress) (hv : validAt s.status p = true → s.status.cv = true) :
    Goes s c p (bitPacked c b i { s with packer := pk }) := by
  unfold bitPacked
  dsimp only
  split
  · exact .compress _ _ _ _ _ hp rfl hv .inl
  · exact .compress _ _ _ _ _ hp rfl hv .inl

theorem compressPack_goes (c : Instr) (b : Byte) (i : BitVec 8) (s : State) :
    Goes s c (.compressPack b i) (compressPack c b i s) := by
  unfold compressPack
  dsimp only
  split
  · exact .compress _ _ _ _ _ (by simp [placeFits]) rfl id (fun _ => .inr rfl)
  · exact bitPacked_goes b i _ (by simp [placeFits]) id

theorem compressPackOut_goes {c : Instr} {b : Byte} {i : BitVec 8} {s t : State} (h : compressPackOut c b i s = some t) :
    Goes s c (.compressPackOut b i) t := by
  unfold compressPackOut at h
  split at h
  · simp at h
  · rw [← Option.some.inj h]
    exact bitPacked_goes b i _ (by simp [placeFits]) id

theorem compressFlush_goes (c : Instr) (s : State) : Goes s c .compressFlush (compressFlush c s) := by
  unfold compressFlush
  split
  · exact .compress _ _ _ _ _ (by simp [placeFits]) rfl (fun _ => rfl) .inl
  · exact .compress _ _ _ _ _ (by simp [placeFits]) rfl id (fun _ => .inr rfl)

theorem compressFlushOut_goes {c : Instr} {s t : State} (h : compressFlushOut c s = some t) : Goes s c .compressFlushOut t := by
  unfold compressFlushOut at h
  split at h
  · simp at h
  · rw [← Option.some.inj h]
    exact .compress _ _ _ _ _ (by simp [placeFits]) rfl (fun _ => rfl) .inl

theorem walkStart_goes {c : Instr} (hc : c = .expand ∨ c = .expandx) (s : State) : Goes s c .start (walkStart c s) := by
  unfold walkStart
  split
  · rename_i htv
    exact .walk _ _ _ _ _ _ _ (fun _ => hc) (by simpa [placeFits] using fun _ => hc) (fun _ => htv) .inl (by simp)
  · exact .ending (by obtain rfl | rfl := hc <;> simp [placeFits, raisedBy]) (fun _ => rfl)

/-- The walk's places belong to EXPAND and EXPANDX, and to each of them alike. -/
theorem walkTop_goes (c : Instr) (s : State) : Goes s c .walkTop (walkTop c s) := by
  have hp : placeFits c .walkTop = true → c = .expand ∨ c = .expandx := by simp [placeFits]
  unfold walkTop
  dsimp only
  split
  · exact .walk _ _ _ _ _ _ _ hp id id (fun _ => .inr rfl) id
  · split
    · exact .ending (fun h => by obtain rfl | rfl := hp h <;> rfl) (fun _ => rfl)
    · exact .walk _ _ _ _ _ _ _ hp id id .inl id

theorem walkOut_goes {c : Instr} {s t : State} (h : walkOut c s = some t) : Goes s c .walkOut t := by
  unfold walkOut at h
  split at h
  · simp at h
  · rw [← Option.some.inj h]
    exact .walk _ _ _ _ _ _ _ (by simp [placeFits]) id id .inl id

theorem walkExhausted_goes (c : Instr) (s : State) : Goes s c .walkRead (walkExhausted c s) := by
  have hp : placeFits c .walkRead = true → c = .expand ∨ c = .expandx := by simp [placeFits]
  unfold walkExhausted
  split
  · rename_i hb
    exact .ending (fun h => by obtain rfl | rfl := hp h <;> simp_all [placeFits, raisedBy, bounded]) (fun _ => rfl)
  · exact .walk _ _ _ _ _ _ _ hp (fun h => by obtain rfl | rfl := hp h <;> rfl) (fun _ => rfl) .inl id

/-- A bit is taken from a reader that holds at most eight (R78), and the walk moves on it (R188, R189). -/
theorem takeBit_goes (c : Instr) (r : BitReader) (s : State) (buf : List Byte) (h0 : r.rbits ≠ 0#4)
    (hr : s.reader.rbits.toNat ≤ 8 → r.rbits.toNat ≤ 8) :
    Goes s c .walkRead (takeBit c r { s with inPort.buf := buf }) := by
  have hp : placeFits c .walkRead = true → c = .expand ∨ c = .expandx := by simp [placeFits]
  have hk : s.reader.rbits.toNat ≤ 8 → (r.rbits - 1#4).toNat ≤ 8 := fun h => by have := hr h; bv_omega
  unfold takeBit walkBit
  dsimp only
  split
  · split
    · exact .walk _ _ _ _ _ _ _ hp (fun h => by obtain rfl | rfl := hp h <;> rfl) (fun _ => rfl) .inl hk
    · exact .walk _ _ _ _ _ _ _ hp id id .inl hk
  · exact .walk _ _ _ _ _ _ _ hp id id .inl hk

theorem walkRead_goes {c : Instr} {s t : State} (h : walkRead c s = some t) : Goes s c .walkRead t := by
  unfold walkRead at h
  split at h
  · split at h
    · split at h
      · rw [← Option.some.inj h]
        exact walkExhausted_goes c s
      · simp at h
    · rw [← Option.some.inj h]
      exact takeBit_goes c _ s _ (by simp) (fun _ => by simp)
  · rw [← Option.some.inj h]
    exact takeBit_goes c _ s s.inPort.buf ‹_› id

theorem startBody_goes (c : Instr) (s : State) : Goes s c .start (startBody c s) := by
  cases c with
  | nop => exact .ending id (fun _ => rfl)
  | srst => exact .ending id (fun _ => rfl)
  | ack => exact .ending id (fun _ => rfl)
  | fclr => exact fclrBody_goes s
  | build => exact buildStart_goes s
  | derive => exact deriveStart_goes s
  | compress => exact compressStart_goes s
  | expand => exact walkStart_goes (.inl rfl) s
  | expandx => exact walkStart_goes (.inr rfl) s

/-! ## The micro-step -/

/-- The effects a micro-step can have on `s`. -/
inductive MicroEffect (s : State) : State → Prop where
  /-- An error is raised (R214). -/
  | raise (c : Instr) (e : ErrCode) (h : s.engine = some (c, .raising e)) : MicroEffect s (failCommand c e s)
  /-- The command completes (R102). -/
  | complete (c : Instr) (h : s.engine = some (c, .complete)) : MicroEffect s (completeCommand c s)
  /-- The body goes on. -/
  | body (c : Instr) (p : Point) {t : State} (h : s.engine = some (c, p)) (hp : p ≠ .complete ∧ ∀ e, p ≠ .raising e)
      (g : Goes s c p t) : MicroEffect s t

/-- Everything a micro-step can do. -/
theorem engineStep_effect {s t : State} (h : engineStep s = some t) : MicroEffect s t := by
  match he : s.engine with
  | none => simp [engineStep_idle he] at h
  | some (c, p) =>
    cases p with
    | start => rw [engineStep_start he, Option.some.injEq] at h; exact h ▸ .body c _ he (by simp) (startBody_goes c s)
    | buildLoop => rw [engineStep_buildLoop he, Option.some.injEq] at h; exact h ▸ .body c _ he (by simp) (buildLoop_goes c s)
    | deriveVisit v =>
      rw [engineStep_deriveVisit he, Option.some.injEq] at h
      exact h ▸ .body c _ he (by simp) (deriveVisit_goes c v s)
    | deriveDone => rw [engineStep_deriveDone he, Option.some.injEq] at h; exact h ▸ .body c _ he (by simp) (deriveDone_goes c s)
    | compressRead => rw [engineStep_compressRead he] at h; exact .body c _ he (by simp) (compressRead_goes h)
    | compressPack b i =>
      rw [engineStep_compressPack he, Option.some.injEq] at h; exact h ▸ .body c _ he (by simp) (compressPack_goes c b i s)
    | compressPackOut b i => rw [engineStep_compressPackOut he] at h; exact .body c _ he (by simp) (compressPackOut_goes h)
    | compressFlush =>
      rw [engineStep_compressFlush he, Option.some.injEq] at h
      exact h ▸ .body c _ he (by simp) (compressFlush_goes c s)
    | compressFlushOut => rw [engineStep_compressFlushOut he] at h; exact .body c _ he (by simp) (compressFlushOut_goes h)
    | walkTop => rw [engineStep_walkTop he, Option.some.injEq] at h; exact h ▸ .body c _ he (by simp) (walkTop_goes c s)
    | walkRead => rw [engineStep_walkRead he] at h; exact .body c _ he (by simp) (walkRead_goes h)
    | walkOut => rw [engineStep_walkOut he] at h; exact .body c _ he (by simp) (walkOut_goes h)
    | raising e => rw [engineStep_raising he, Option.some.injEq] at h; exact h ▸ .raise c e he
    | complete => rw [engineStep_complete he, Option.some.injEq] at h; exact h ▸ .complete c he

end Sys2Proof.Machine
end

