-- ==== Sys2Proof/Proofs/Lifecycle.lean ====
section
/-! PROOF. Every step keeps the lifecycle invariant (O19). -/

namespace Sys2Proof.Machine

/-! ## What the invariant says of a state -/

/-- A running command has BUSY = 1 (R24). -/
theorem LifecycleInv.busy_of_engine {s : State} {c : Instr} {p : Point} (hs : LifecycleInv s) (h : s.engine = some (c, p)) :
    s.status.busy = true := by simp [hs.busy, h]

/-- At BUSY = 0 the engine is idle (R24). -/
theorem LifecycleInv.idle {s : State} (hs : LifecycleInv s) (h : s.status.busy = false) : s.engine = none := by
  simpa [h] using hs.busy.symm

theorem LifecycleInv.fits_at {s : State} {c : Instr} {p : Point} (hs : LifecycleInv s) (h : s.engine = some (c, p)) :
    placeFits c p = true := hs.fits (c, p) h

theorem LifecycleInv.valid_at {s : State} {c : Instr} {p : Point} (hs : LifecycleInv s) (h : s.engine = some (c, p)) :
    validAt s.status p = true := hs.valid (c, p) h

/-- At BUSY = 0 nothing is offered on OUT (R79). -/
theorem LifecycleInv.no_out_idle {s : State} (hs : LifecycleInv s) (h : s.status.busy = false) : s.outPend = none := by
  simpa [hs.idle h] using hs.out

/-- At BUSY = 0 the engine waits for no byte (R31). -/
theorem LifecycleInv.no_inwait_idle {s : State} (hs : LifecycleInv s) (h : s.status.busy = false) : s.status.inwait = false := by
  simp [hs.inwait, hs.idle h]

/-- R79, R247: a micro-step is taken only when no byte waits on OUT. -/
theorem LifecycleInv.no_out_of_engineStep {s t : State} (hs : LifecycleInv s) (h : engineStep s = some t) : s.outPend = none := by
  by_contra hne
  obtain ⟨v, hv⟩ := Option.ne_none_iff_exists'.mp hne
  have hoff := hs.out (by simp [hv])
  match he : s.engine with
  | none => simp [he] at hoff
  | some (c, p) =>
    simp only [he, Option.any_some] at hoff
    cases p <;> simp only [mayOffer, Bool.false_eq_true] at hoff
    case compressPackOut b i => simp [engineStep_compressPackOut he, compressPackOut, hv] at h
    case compressFlushOut => simp [engineStep_compressFlushOut he, compressFlushOut, hv] at h
    case walkOut => simp [engineStep_walkOut he, walkOut, hv] at h

/-- R31, R247: while INWAIT = 1 the engine takes no micro-step. -/
theorem LifecycleInv.held_of_inwait {s : State} (hs : LifecycleInv s) (h : s.status.inwait = true) : engineStep s = none := by
  rw [hs.inwait] at h
  match he : s.engine with
  | none => simp [he] at h
  | some (c, p) =>
    simp only [he, Option.any_some, heldAtIn, Bool.and_eq_true, List.isEmpty_iff, Bool.not_eq_true'] at h
    obtain ⟨⟨hr, hb⟩, hc⟩ := h
    cases p <;> simp only [readsIn, Bool.false_eq_true] at hr
    case compressRead => simp [engineStep_compressRead he, compressRead, hb, hc]
    case walkRead => simp [engineStep_walkRead he, walkRead, hb, hc, beq_iff_eq.mp hr]

/-- The invariant speaks of these registers only. -/
theorem LifecycleInv.congr {s t : State} (hs : LifecycleInv s) (h1 : t.status = s.status) (h2 : t.errcode = s.errcode)
    (h3 : t.engine = s.engine) (h4 : t.reader = s.reader) (h5 : t.inPort = s.inPort) (h6 : t.outPend = s.outPend) :
    LifecycleInv t where
  busy := by rw [h1, h3]; exact hs.busy
  done := by rw [h1]; exact hs.done
  fits := by rw [h3]; exact hs.fits
  valid := by rw [h1, h3]; exact hs.valid
  inwait := by rw [h1, h3, h4, h5]; exact hs.inwait
  out := by rw [h6, h3]; exact hs.out
  cvtv := by rw [h1]; exact hs.cvtv
  err := by rw [h1, h2]; exact hs.err
  rbits := by rw [h4]; exact hs.rbits

theorem LifecycleInv.popped {s : State} (hs : LifecycleInv s) : LifecycleInv (popped s) := hs.congr rfl rfl rfl rfl rfl rfl

/-! ## The micro-step -/

/-- R210: an error is raised by a command with a body, and it is no `none`. -/
theorem raisedBy_spec {e : ErrCode} {c : Instr} (h : raisedBy e c = true) : setsBusy c = true ∧ e ≠ .none := by
  revert h
  cases e <;> cases c <;> decide

/-- `validAt` reads TV and CV only. -/
theorem validAt_congr {st st' : Status} (htv : st'.tv = st.tv) (hcv : st'.cv = st.cv) (p : Point) :
    validAt st' p = validAt st p := by
  cases p <;> simp [validAt, htv, hcv]

theorem LifecycleInv.failCommand {s : State} {c : Instr} {e : ErrCode} (hs : LifecycleInv s) (h : s.engine = some (c, .raising e)) :
    LifecycleInv (failCommand c e s) := by
  obtain ⟨hc, he⟩ := raisedBy_spec (hs.fits_at h)
  exact
  { busy := by simp [hs.busy_of_engine h]
    done := by simpa using hs.done
    fits := by simpa [placeFits] using hc
    valid := by simp [validAt]
    inwait := by simp [heldAtIn, readsIn]
    out := by simpa [h, mayOffer] using hs.out
    cvtv := by simpa using hs.cvtv
    err := by
      have := hs.err
      cases hse : s.status.err <;> simp_all
    rbits := by simpa using hs.rbits }

theorem LifecycleInv.completeCommand {s : State} {c : Instr} (hs : LifecycleInv s) (h : s.engine = some (c, .complete)) :
    LifecycleInv (completeCommand c s) where
  busy := by simp
  done := by simp
  fits := by simp
  valid := by simp
  inwait := by simp
  out := by simpa [h, mayOffer] using hs.out
  cvtv := by simpa using hs.cvtv
  err := by simpa using hs.err
  rbits := by
    rw [completeCommand_reader]
    split
    · simp
    · exact hs.rbits

theorem LifecycleInv.goes {s t : State} {c : Instr} {p : Point} (hs : LifecycleInv s) (h : s.engine = some (c, p))
    (hout : s.outPend = none) (g : Goes s c p t) : LifecycleInv t := by
  obtain ⟨q, u, rfl, ⟨hbusy, hdone, herr, hcode⟩, hB⟩ := g
  have B := hB (hs.fits_at h)
  have hv := hs.valid_at h
  exact
  { busy := by simp [hbusy, hs.busy_of_engine h]
    done := by simpa [hbusy, hdone] using hs.done
    fits := by simpa using B.fits
    valid := by rintro _ ⟨rfl⟩; exact (validAt_congr rfl rfl q).trans (B.valid hv)
    inwait := by simp
    out := by simpa [hout] using B.out
    cvtv := by simpa using B.cvtv hv hs.cvtv
    err := by simpa [herr, hcode] using hs.err
    rbits := by simpa using B.rbits hs.rbits }

theorem LifecycleInv.engineStep {s t : State} (hs : LifecycleInv s) (h : engineStep s = some t) : LifecycleInv t := by
  cases engineStep_effect h with
  | raise c e he => exact hs.failCommand he
  | complete c he => exact hs.completeCommand he
  | body c p he _ g => exact hs.goes he (hs.no_out_of_engineStep h) g

theorem LifecycleInv.engineTurn {s : State} (hs : LifecycleInv s) : LifecycleInv (engineTurn s) :=
  engineTurn_keeps (fun _ _ h => h.engineStep) s hs

/-! ## The host's moves -/

theorem LifecycleInv.ignoreWrite {s : State} (hs : LifecycleInv s) : LifecycleInv (ignoreWrite s) where
  busy := hs.busy
  done := hs.done
  fits := hs.fits
  valid := fun x hx => (validAt_congr rfl rfl x.2).trans (hs.valid x hx)
  inwait := hs.inwait
  out := hs.out
  cvtv := hs.cvtv
  err := hs.err
  rbits := hs.rbits

theorem LifecycleInv.acceptCommand {s : State} {c : Instr} (hs : LifecycleInv s) (hb : s.status.busy = false)
    (hc : setsBusy c = true) : LifecycleInv (acceptCommand c s) where
  busy := by simp
  done := by simp
  fits := by simpa [placeFits] using hc
  valid := by simp [validAt]
  inwait := by simp [heldAtIn, readsIn]
  out := by simp [hs.no_out_idle hb]
  cvtv := by simpa using hs.cvtv
  err := by simpa using hs.err
  rbits := by simpa using hs.rbits

theorem LifecycleInv.acknowledge {s : State} (hs : LifecycleInv s) (hb : s.status.busy = false) : LifecycleInv (acknowledge s) where
  busy := by simpa using hs.busy
  done := by simp
  fits := by simp [hs.idle hb]
  valid := by simp [hs.idle hb]
  inwait := by simpa using hs.inwait
  out := by simpa using hs.out
  cvtv := by simpa using hs.cvtv
  err := by simp
  rbits := by simpa using hs.rbits

theorem LifecycleInv.rejectIllegal {s : State} (hs : LifecycleInv s) (hb : s.status.busy = false) :
    LifecycleInv (rejectIllegal s) where
  busy := by simpa using hs.busy
  done := by simp [hb]
  fits := by simp [hs.idle hb]
  valid := by simp [hs.idle hb]
  inwait := by simpa using hs.inwait
  out := by simpa using hs.out
  cvtv := by simpa using hs.cvtv
  err := by
    have := hs.err
    cases hse : s.status.err <;> simp_all
  rbits := by simpa using hs.rbits

/-- Where the engine stands stays possible when a byte arrives or IN is closed (R76), which ends INWAIT. -/
theorem LifecycleInv.inPort {s : State} {i : InPort} (hs : LifecycleInv s) (hi : ∀ p, heldAtIn p s.reader i = false) :
    LifecycleInv { s with inPort := i, status.inwait := false } where
  busy := hs.busy
  done := hs.done
  fits := hs.fits
  valid := fun x hx => (validAt_congr rfl rfl x.2).trans (hs.valid x hx)
  inwait := by cases h : s.engine <;> simp [hi]
  out := hs.out
  cvtv := hs.cvtv
  err := hs.err
  rbits := hs.rbits

theorem LifecycleInv.acceptOut {s : State} (v : Byte) (hs : LifecycleInv s) : LifecycleInv (acceptOut v s) where
  busy := hs.busy
  done := hs.done
  fits := hs.fits
  valid := hs.valid
  inwait := hs.inwait
  out := by simp
  cvtv := hs.cvtv
  err := hs.err
  rbits := hs.rbits

theorem LifecycleInv.hostRead {s : State} (a : Addr) (hs : LifecycleInv s) : LifecycleInv (hostRead a s) := by
  obtain ⟨l, d, h⟩ := hostRead_frame a s
  rw [h]
  exact hs.congr rfl rfl rfl rfl rfl rfl

/-- A write outside CMD changes no more than `ignoreWrite` and the host's own registers do. -/
theorem LifecycleInv.hostWrite {s : State} (r : PortReg) (v : Word) (hs : LifecycleInv s) : LifecycleInv (hostWrite r v s) := by
  obtain ⟨e, l, f, o, h⟩ := hostWrite_frame r v s
  rw [h]
  exact
  { busy := hs.busy
    done := hs.done
    fits := hs.fits
    valid := fun x hx => (validAt_congr rfl rfl x.2).trans (hs.valid x hx)
    inwait := hs.inwait
    out := hs.out
    cvtv := hs.cvtv
    err := hs.err
    rbits := hs.rbits }

theorem lifecycleInv_resetBlock (s : State) : LifecycleInv (resetBlock s) where
  busy := rfl
  done := fun _ => rfl
  fits := by simp [State.reset]
  valid := by simp [State.reset]
  inwait := rfl
  out := by simp [State.reset]
  cvtv := by simp [State.reset]
  err := by simp [State.reset]
  rbits := by simp [State.reset]

theorem LifecycleInv.offerCommand {s : State} {c : Instr} (hs : LifecycleInv s) (hc : setsBusy c = true) :
    LifecycleInv (offerCommand c s) := by
  obtain ⟨-, h⟩ | ⟨hb, h⟩ := offerCommand_cases c s <;> rw [h]
  · exact hs.ignoreWrite
  · exact hs.acceptCommand hb hc

theorem LifecycleInv.offerIllegal {s : State} (hs : LifecycleInv s) : LifecycleInv (offerIllegal s) := by
  obtain ⟨-, h⟩ | ⟨hb, h⟩ := offerIllegal_cases s <;> rw [h]
  · exact hs.ignoreWrite
  · exact hs.rejectIllegal hb

theorem LifecycleInv.stepEffect {s t : State} (hs : LifecycleInv s) (h : StepEffect s t) : LifecycleInv t := by
  cases h with
  | turn => exact hs.engineTurn
  | engine => exact hs.popped.engineTurn
  | took v => exact hs.acceptOut v
  | accept v => exact hs.popped.acceptOut v
  | read a => exact hs.popped.hostRead a
  | write a v => exact hs.popped.hostWrite _ v
  | push b => exact hs.popped.inPort (by simp)
  | close => exact hs.popped.inPort (by simp)
  | sinkMode r => exact hs.congr rfl rfl rfl rfl rfl rfl
  | reset => exact lifecycleInv_resetBlock _
  | waited => exact hs.popped
  | command c hc => exact hs.popped.offerCommand hc
  | ack =>
    split
    · exact hs.popped.ignoreWrite
    · exact hs.popped.acknowledge (Bool.eq_false_of_not_eq_true ‹_›)
  | illegal => exact hs.popped.offerIllegal

/-- Settles O19: each effect of a step keeps the invariant, the engine's because it goes on only to places of its own body. -/
theorem everyStepKeepsTheLifecycle : Obligations.EveryStepKeepsTheLifecycle := by
  unfold Obligations.EveryStepKeepsTheLifecycle
  exact fun _ _ hs h => hs.stepEffect (step_effect h)

end Sys2Proof.Machine
end

