-- ==== Sys2Proof/Proofs/HostFrame.lean ====
section
/-! SUPPORT. What a move of the host leaves unchanged, and the induction over a step that follows: an invariant of the tables is
kept when the engine's micro-steps keep it. -/

namespace Sys2Proof.Machine

/-- What no move of the host but a reset changes: the tree, the codes, the forest and the stack. An idle engine may start. -/
structure HostFrame (s t : State) : Prop where
  tree : SameTree s t
  codes : SameCodes s t
  forest : t.forest = s.forest
  stack : t.stack = s.stack
  engine : t.engine = s.engine ∨ ∃ c, t.engine = some (c, .start)

/-- The registers of which only the engine and a reset are writers, the engine's place and the stream ports excepted. -/
def tables (s : State) :=
  (s.node, s.nleaf, s.nnode, s.root, s.status.tv, s.traceSent, s.code, s.status.cv, s.bytecnt, s.bitcnt, s.status.partialWalk,
    s.forest, s.stack)

theorem same_of_tables {s t : State} (h : tables t = tables s) :
    SameTree s t ∧ SameCodes s t ∧ SameCounters s t ∧ t.status.partialWalk = s.status.partialWalk := by
  simp only [tables, Prod.mk.injEq] at h
  obtain ⟨h1, h2, h3, h4, h5, h6, h7, h8, h9, h10, h11, -⟩ := h
  exact ⟨⟨h1, h2, h3, h4, h5, h6⟩, ⟨h7, h8⟩, ⟨h9, h10⟩, h11⟩

theorem HostFrame.of_tables {s t : State} (h : tables t = tables s)
    (he : t.engine = s.engine ∨ ∃ c, t.engine = some (c, .start)) : HostFrame s t := by
  obtain ⟨htree, hcodes, -, -⟩ := same_of_tables h
  simp only [tables, Prod.mk.injEq] at h
  obtain ⟨-, -, -, -, -, -, -, -, -, -, -, hforest, hstack⟩ := h
  exact ⟨htree, hcodes, hforest, hstack, he⟩

theorem hostFrame_popped (s : State) : HostFrame s (popped s) := .of_tables rfl (.inl rfl)

theorem hostFrame_ignored (s : State) : HostFrame s (ignoreWrite (popped s)) := .of_tables rfl (.inl rfl)

/-- Everything a step can do to the tables: the engine's turn, a reset, or nothing. -/
theorem StepEffect.frame {s t : State} (h : StepEffect s t) :
    t = engineTurn s ∨ t = engineTurn (popped s) ∨ (ResetsNext s ∧ t = resetBlock (popped s)) ∨ HostFrame s t := by
  cases h with
  | turn => exact .inl rfl
  | engine => exact .inr (.inl rfl)
  | reset h => exact .inr (.inr (.inl ⟨h, rfl⟩))
  | took | accept | push | close | sinkMode | waited => exact .inr (.inr (.inr (.of_tables rfl (.inl rfl))))
  | read a =>
    obtain ⟨l, d, h⟩ := hostRead_frame a (popped s)
    rw [h]
    exact .inr (.inr (.inr (.of_tables rfl (.inl rfl))))
  | write a v =>
    obtain ⟨e, l, f, o, h⟩ := hostWrite_frame (decodeAddr a) v (popped s)
    rw [h]
    exact .inr (.inr (.inr (.of_tables rfl (.inl rfl))))
  | command c =>
    obtain ⟨-, h⟩ | ⟨-, h⟩ := offerCommand_cases c (popped s) <;> rw [h]
    · exact .inr (.inr (.inr (hostFrame_ignored s)))
    · exact .inr (.inr (.inr (.of_tables rfl (.inr ⟨c, rfl⟩))))
  | ack =>
    split
    · exact .inr (.inr (.inr (hostFrame_ignored s)))
    · exact .inr (.inr (.inr (.of_tables rfl (.inl rfl))))
  | illegal =>
    obtain ⟨-, h⟩ | ⟨-, h⟩ := offerIllegal_cases (popped s) <;> rw [h]
    · exact .inr (.inr (.inr (hostFrame_ignored s)))
    · exact .inr (.inr (.inr (.of_tables rfl (.inl rfl))))

/-- An invariant of the tables is kept by every step, if it holds after a reset and the engine's micro-steps keep it. -/
theorem step_keeps {P : State → Prop} {s t : State} (hs : LifecycleInv s) (hP : P s) (h : step s = .next t)
    (reset : ∀ u, P (resetBlock u)) (frame : ∀ u v, HostFrame u v → P u → P v)
    (micro : ∀ u v, LifecycleInv u → P u → engineStep u = some v → P v) : P t := by
  have turn {u : State} (hu : LifecycleInv u) (hPu : P u) : P (engineTurn u) :=
    (engineTurn_keeps (P := fun v => LifecycleInv v ∧ P v) (fun v w hv hw => ⟨hv.1.engineStep hw, micro v w hv.1 hv.2 hw⟩)
      u ⟨hu, hPu⟩).2
  obtain rfl | rfl | ⟨-, rfl⟩ | hf := (step_effect h).frame
  · exact turn hs hP
  · exact turn hs.popped (frame _ _ (hostFrame_popped s) hP)
  · exact reset _
  · exact frame _ _ hf hP

end Sys2Proof.Machine
end

