-- ==== Sys2Proof/Proofs/Arena.lean ====
section
/-! SUPPORT. The arena (R43): what it depends on, its bounds, the forest of leaves BUILD begins with, and one merge. -/

namespace Sys2Proof.Machine

/-! ## Indices -/

/-- A number below 512 is the index it names. -/
theorem toNat_ofNat_idx {n : Nat} (h : n < 512) : (BitVec.ofNat 9 n).toNat = n := by
  simp [Nat.mod_eq_of_lt h]

theorem ofNat_toNat_idx (n : NodeIdx) : BitVec.ofNat 9 n.toNat = n := by simp

/-- An index and the number it names. -/
theorem nodeNo_toNat (s : State) (n : NodeIdx) : nodeNo s n.toNat = nodeAt s.node n := by simp [nodeNo]

/-! ## What the arena depends on -/

theorem ArenaInv.congr {s t : State} {roots : List NodeIdx} (h : ArenaInv s roots) (hnode : t.node = s.node)
    (hleaf : t.nleaf = s.nleaf) (hnnode : t.nnode = s.nnode) : ArenaInv t roots := by
  cases s
  cases t
  subst hnode hleaf hnnode
  exact ⟨h.leafCount, h.leaf, h.sorted, h.internal, h.free, h.once, h.rootsIn, h.count, h.sum⟩

theorem ArenaInv.tree {s t : State} {roots : List NodeIdx} (h : ArenaInv s roots) (ht : SameTree s t) : ArenaInv t roots := by
  obtain ⟨hnode, hleaf, hnnode, -⟩ := ht
  exact h.congr hnode hleaf hnnode

/-- The order of the roots does not matter. -/
theorem ArenaInv.perm {s : State} {roots roots' : List NodeIdx} (h : ArenaInv s roots) (p : roots.Perm roots') :
    ArenaInv s roots' where
  leafCount := h.leafCount
  leaf := h.leaf
  sorted := h.sorted
  internal := h.internal
  free := h.free
  once n hn := by rw [← p.count_eq]; exact h.once n hn
  rootsIn r hr := h.rootsIn r (p.mem_iff.mpr hr)
  count := by rw [← p.length_eq]; exact h.count
  sum := by rw [← (p.map _).sum_eq]; exact h.sum

/-! ## Bounds -/

section
variable {s : State} {roots : List NodeIdx} (h : ArenaInv s roots)
include h

/-- R41: a leaf is allocated. -/
theorem ArenaInv.nleaf_le : s.nleaf.toNat ≤ s.nnode.toNat := by
  by_contra hlt
  have hle := h.leafCount
  obtain ⟨-, -, -, hpos, -⟩ := h.leaf s.nnode.toNat (by omega)
  simp [h.free s.nnode.toNat (by omega) le_rfl, Node.zero] at hpos

/-- R74: the arena has room for every node of a forest. -/
theorem ArenaInv.nnode_le : s.nnode.toNat + roots.length ≤ 512 := by
  have := h.count
  have := h.leafCount
  omega

/-- R9: the leaves' counts sum to less than 2^40. -/
theorem ArenaInv.leafSum_lt : ((List.range s.nleaf.toNat).map fun n => (nodeNo s n).frq.toNat).sum < 2 ^ 40 := by
  have hle : ((List.range s.nleaf.toNat).map fun n => (nodeNo s n).frq.toNat).sum
      ≤ ((List.range s.nleaf.toNat).map fun n => (nodeNo s n).frq.toNat).length • (2 ^ 32 - 1) := by
    refine List.sum_le_card_nsmul _ _ fun x hx => ?_
    obtain ⟨n, hn, rfl⟩ := List.mem_map.mp hx
    obtain ⟨-, -, -, -, hlt⟩ := h.leaf n (List.mem_range.mp hn)
    omega
  have := h.leafCount
  simp only [List.length_map, List.length_range, smul_eq_mul] at hle
  omega

/-- R43 (a): a child is allocated before its parent. -/
theorem ArenaInv.lt_of_mem_childList {x : NodeIdx} (hx : x ∈ childList s) : x.toNat + 1 < s.nnode.toNat := by
  obtain ⟨n, hn, hc⟩ := List.mem_flatMap.mp hx
  rw [List.mem_range'_1] at hn
  obtain ⟨-, -, hl, hr, -⟩ := h.internal n (by omega) (by omega)
  obtain rfl | rfl : x = _ ∨ x = _ := by simpa using hc
  · omega
  · omega

/-- R43 (b): the roots are distinct. -/
theorem ArenaInv.roots_nodup : roots.Nodup := by
  rw [List.nodup_iff_count_le_one]
  intro r
  by_cases hr : r ∈ roots
  · have := h.once r.toNat (h.rootsIn r hr)
    simp only [BitVec.ofNat_toNat, BitVec.setWidth_eq] at this
    omega
  · simp [List.count_eq_zero_of_not_mem hr]

end

/-! ## The leaves (R132) -/

theorem presentSymbols_sorted (freq : Vector Word 256) : (presentSymbols freq).Pairwise fun x y => x.toNat < y.toNat := by
  refine List.Pairwise.filter _ (List.pairwise_map.mpr (List.pairwise_lt_range.imp_of_mem fun {a b} ha hb hab => ?_))
  rw [List.mem_range] at ha hb
  simpa [Nat.mod_eq_of_lt ha, Nat.mod_eq_of_lt hb] using hab

theorem initialForest_nodup {l : Nat} (h : l ≤ 256) : (initialForest l).Nodup := by
  refine List.Nodup.map_on (fun a ha b hb hab => ?_) List.nodup_range
  rw [List.mem_range] at ha hb
  simpa [toNat_ofNat_idx (show a < 512 by omega), toNat_ofNat_idx (show b < 512 by omega)] using congrArg BitVec.toNat hab

/-- The entries of the leaves' arena, by number. -/
theorem nodeNo_of_arenaOf {s : State} {l : List Node} (hs : s.node = arenaOf l) {n : Nat} (hn : n < 511) :
    nodeNo s n = l.getD n Node.zero := by
  have hne : (BitVec.ofNat 9 n : NodeIdx) ≠ 511#9 := fun h => by
    have := congrArg BitVec.toNat h
    simp at this
    omega
  rw [nodeNo, hs, nodeAt_arenaOf l _ hne, toNat_ofNat_idx (by omega)]

/-- R132: the leaves of a frequency vector are a forest. -/
theorem ArenaInv.leaves {s : State} (freq : Vector Word 256) (hnode : s.node = arenaOf ((presentSymbols freq).map (leafOf freq)))
    (hleaf : s.nleaf = BitVec.ofNat 9 (presentSymbols freq).length)
    (hnnode : s.nnode = BitVec.ofNat 10 (presentSymbols freq).length) :
    ArenaInv s (initialForest (presentSymbols freq).length) := by
  have hle := length_presentSymbols_le freq
  have hl : s.nleaf.toNat = (presentSymbols freq).length := by rw [hleaf, toNat_ofNat_idx (by omega)]
  have hn : s.nnode.toNat = (presentSymbols freq).length := by
    rw [hnnode, BitVec.toNat_ofNat, Nat.mod_eq_of_lt (by omega)]
  have entry (n : Nat) (h : n < (presentSymbols freq).length) : nodeNo s n = leafOf freq (presentSymbols freq)[n] := by
    rw [nodeNo_of_arenaOf hnode (by omega)]
    simp [List.getD_eq_getElem?_getD, h]
  have present (n : Nat) (h : n < (presentSymbols freq).length) : 0#32 < freqAt freq (presentSymbols freq)[n] :=
    (mem_presentSymbols freq _).mp (List.getElem_mem h)
  exact
  { leafCount := by omega
    leaf := fun n h => by
      rw [hl] at h
      have hp := present n h
      have hlt := (freqAt freq (presentSymbols freq)[n]).isLt
      rw [entry n h]
      simp only [leafOf, BitVec.toNat_setWidth, true_and]
      rw [Nat.mod_eq_of_lt (by omega)]
      exact ⟨by simpa [BitVec.lt_def] using hp, hlt⟩
    sorted := fun n h m hm => by
      rw [hl] at h
      rw [entry n h, entry m (by omega)]
      exact List.pairwise_iff_getElem.mp (presentSymbols_sorted freq) m n (by omega) h hm
    internal := fun n h h' => by omega
    free := fun n h h' => by
      rw [nodeNo_of_arenaOf hnode h, List.getD_eq_getElem?_getD, List.getElem?_eq_none (by simp; omega)]
      rfl
    once := fun n h => by
      have hm : BitVec.ofNat 9 n ∈ initialForest (presentSymbols freq).length :=
        List.mem_map.mpr ⟨n, List.mem_range.mpr (by omega), rfl⟩
      simp [childList, hl, hn, List.count_eq_one_of_mem (initialForest_nodup hle) hm]
    rootsIn := fun r hr => by
      obtain ⟨n, hlt, rfl⟩ := List.mem_map.mp hr
      rw [List.mem_range] at hlt
      rw [toNat_ofNat_idx (by omega)]
      omega
    count := by simp [initialForest, hl, hn]; omega
    sum := by simp [initialForest, hl, nodeNo, Function.comp_def] }

/-! ## Allocating a node (R139) -/

/-- `t` has the arena of `s` with the next free entry allocated to `e`. -/
structure Allocates (s t : State) (e : Node) : Prop where
  node : t.node = setNode s.node (BitVec.ofNat 9 s.nnode.toNat) e
  nleaf : t.nleaf = s.nleaf
  nnode : t.nnode = s.nnode + 1#10

section
variable {s t : State} {e : Node} (h : Allocates s t e) (hroom : s.nnode.toNat < 511)
include h hroom

theorem Allocates.nnode_toNat : t.nnode.toNat = s.nnode.toNat + 1 := by
  rw [h.nnode]
  bv_omega

theorem Allocates.nodeNo_new : nodeNo t s.nnode.toNat = e := by
  rw [nodeNo, h.node, nodeAt_setNode_self]
  intro heq
  have := congrArg BitVec.toNat heq
  rw [toNat_ofNat_idx (by omega)] at this
  simp at this
  omega

theorem Allocates.nodeAt_old {x : NodeIdx} (hx : x.toNat ≠ s.nnode.toNat) : nodeAt t.node x = nodeAt s.node x := by
  rw [h.node, nodeAt_setNode_other]
  rintro rfl
  exact hx (toNat_ofNat_idx (by omega))

theorem Allocates.nodeNo_old {n : Nat} (hn : n < 512) (hne : n ≠ s.nnode.toNat) : nodeNo t n = nodeNo s n :=
  h.nodeAt_old hroom (by rwa [toNat_ofNat_idx hn])

/-- The new node's children are the last. -/
theorem Allocates.childList_eq (hle : s.nleaf.toNat ≤ s.nnode.toNat) : childList t = childList s ++ [e.left, e.right] := by
  rw [childList, childList, h.nleaf, h.nnode_toNat hroom,
    show s.nnode.toNat + 1 - s.nleaf.toNat = (s.nnode.toNat - s.nleaf.toNat) + 1 by omega, List.range'_1_concat,
    List.flatMap_append, show s.nleaf.toNat + (s.nnode.toNat - s.nleaf.toNat) = s.nnode.toNat by omega]
  congr 1
  · refine List.flatMap_congr fun n hn => ?_
    rw [List.mem_range'_1] at hn
    rw [h.nodeNo_old hroom (by omega) (by omega)]
  · simp [h.nodeNo_new hroom]

/-- The counts of the leaves are as before. -/
theorem Allocates.leafSum_eq (hle : s.nleaf.toNat ≤ s.nnode.toNat) :
    ((List.range t.nleaf.toNat).map fun n => (nodeNo t n).frq.toNat).sum
      = ((List.range s.nleaf.toNat).map fun n => (nodeNo s n).frq.toNat).sum := by
  rw [h.nleaf]
  refine congrArg List.sum (List.map_congr_left fun n hn => ?_)
  have := List.mem_range.mp hn
  rw [h.nodeNo_old hroom (by omega) (by omega)]

end

/-! ## One merge (R136 to R139) -/

section
variable {s t : State} {a b l r : NodeIdx} {rest : List NodeIdx} (h : ArenaInv s (a :: b :: rest)) (hlr : [l, r].Perm [a, b])
include h

/-- R74: with two roots left there is a free entry. -/
theorem ArenaInv.merge_room : s.nnode.toNat < 511 := by
  have := h.nnode_le
  simp only [List.length_cons] at this
  omega

/-- R9: the sum of two roots' frequencies does not overflow. -/
theorem ArenaInv.merge_frq : ((nodeAt s.node a).frq + (nodeAt s.node b).frq).toNat
    = (nodeAt s.node a).frq.toNat + (nodeAt s.node b).frq.toNat := by
  have hsum := h.sum
  have hbound := h.leafSum_lt
  simp only [List.map_cons, List.sum_cons] at hsum
  rw [BitVec.toNat_add, Nat.mod_eq_of_lt (by omega)]

include hlr

theorem ArenaInv.merge_children_lt {x : NodeIdx} (hx : x ∈ [l, r]) : x.toNat < s.nnode.toNat :=
  h.rootsIn x (by rw [hlr.mem_iff] at hx; simp only [List.mem_cons, List.not_mem_nil, or_false] at hx ⊢; tauto)

theorem ArenaInv.merge_children_ne : l ≠ r := by
  have hab : [a, b].Nodup := h.roots_nodup.sublist (by simp)
  simpa using hlr.nodup_iff.mpr hab

/-- R43 (b): after the merge the new node is a root, and the two roots it took are its children. -/
theorem ArenaInv.merge_once {n : Nat} (hn : n < s.nnode.toNat + 1) :
    (childList s ++ [l, r]).count (BitVec.ofNat 9 n) + (BitVec.ofNat 9 s.nnode.toNat :: rest).count (BitVec.ofNat 9 n) = 1 := by
  have hroom := h.merge_room
  rw [List.count_append]
  by_cases hnew : n = s.nnode.toNat
  · subst hnew
    have none (L : List NodeIdx) (hL : ∀ x ∈ L, x.toNat < s.nnode.toNat) : L.count (BitVec.ofNat 9 s.nnode.toNat) = 0 :=
      List.count_eq_zero_of_not_mem fun hx => by
        have := hL _ hx
        rw [toNat_ofNat_idx (by omega)] at this
        omega
    rw [none _ fun x hx => Nat.lt_of_succ_lt (h.lt_of_mem_childList hx), none _ fun x hx => h.merge_children_lt hlr hx,
      List.count_cons_self, none rest fun x hx => h.rootsIn x (by simp [hx])]
  · have hne : BitVec.ofNat 9 s.nnode.toNat ≠ BitVec.ofNat 9 n := fun e => hnew (by
      have := congrArg BitVec.toNat e
      rwa [toNat_ofNat_idx (by omega), toNat_ofNat_idx (by omega), eq_comm] at this)
    have hold := h.once n (by omega)
    rw [show a :: b :: rest = [a, b] ++ rest from rfl, List.count_append] at hold
    rw [hlr.count_eq, List.count_cons_of_ne hne]
    omega

/-- Merging the roots `a` and `b` under the next free entry leaves a forest, whichever of them goes left. -/
theorem ArenaInv.merge (ht : Allocates s t ⟨.internal, 0#8, (nodeAt s.node a).frq + (nodeAt s.node b).frq, l, r⟩) :
    ArenaInv t (BitVec.ofNat 9 s.nnode.toNat :: rest) := by
  have hroom := h.merge_room
  have hle := h.nleaf_le
  have hleaves := h.leafCount
  have hnnode := ht.nnode_toNat hroom
  have hrest (x : NodeIdx) (hx : x ∈ rest) : x.toNat < s.nnode.toNat := h.rootsIn x (by simp [hx])
  exact
  { leafCount := by rw [ht.nleaf]; exact hleaves
    leaf := fun n hn => by
      rw [ht.nleaf] at hn
      rw [ht.nodeNo_old hroom (by omega) (by omega)]
      exact h.leaf n hn
    sorted := fun n hn m hm => by
      rw [ht.nleaf] at hn
      rw [ht.nodeNo_old hroom (by omega) (by omega), ht.nodeNo_old hroom (by omega) (by omega)]
      exact h.sorted n hn m hm
    internal := fun n hn hn' => by
      rw [ht.nleaf] at hn'
      by_cases hnew : n = s.nnode.toNat
      · subst hnew
        have hl := h.merge_children_lt hlr (x := l) (by simp)
        have hr := h.merge_children_lt hlr (x := r) (by simp)
        rw [ht.nodeNo_new hroom]
        refine ⟨rfl, rfl, hl, hr, h.merge_children_ne hlr, ?_⟩
        rw [ht.nodeAt_old hroom (x := l) hl.ne, ht.nodeAt_old hroom (x := r) hr.ne]
        have hperm := (hlr.map fun x => (nodeAt s.node x).frq.toNat).sum_eq
        simp only [List.map_cons, List.map_nil, List.sum_cons, List.sum_nil, Nat.add_zero] at hperm
        exact h.merge_frq.trans hperm.symm
      · obtain ⟨hk, hs, hl, hr, hne, hf⟩ := h.internal n (by omega) hn'
        rw [ht.nodeNo_old hroom (by omega) hnew, ht.nodeAt_old hroom (by omega), ht.nodeAt_old hroom (by omega)]
        exact ⟨hk, hs, hl, hr, hne, hf⟩
    free := fun n hn hn' => by
      rw [ht.nodeNo_old hroom (by omega) (by omega)]
      exact h.free n hn (by omega)
    once := fun n hn => by
      rw [ht.childList_eq hroom hle]
      exact h.merge_once hlr (by omega)
    rootsIn := fun x hx => by
      obtain rfl | hx := List.mem_cons.mp hx
      · rw [toNat_ofNat_idx (by omega)]
        omega
      · have := hrest x hx
        omega
    count := by
      have := h.count
      rw [hnnode, ht.nleaf, List.length_cons]
      simp only [List.length_cons] at this
      omega
    sum := by
      have hsum := h.sum
      have hnew : nodeAt t.node (BitVec.ofNat 9 s.nnode.toNat) = _ := ht.nodeNo_new hroom
      rw [ht.leafSum_eq hroom hle, ← hsum, List.map_cons, List.sum_cons, hnew, h.merge_frq,
        List.map_congr_left fun x hx => by rw [ht.nodeAt_old hroom (by have := hrest x hx; omega)]]
      simp only [List.map_cons, List.sum_cons]
      omega }

end

end Sys2Proof.Machine
end

