-- ==== Sys2Proof/Proofs/Tree.lean ====
section
/-! PROOF. Every step keeps the tree, and BUILD's forest (O20). -/

namespace Sys2Proof.Machine

/-! ## The selection (R136) -/

/-- The scan's two candidates stay distinct positions that have been met. -/
theorem selectFrom_bounds (l : List Frq) (j i1 : Nat) (f1 : Frq) (i2 : Nat) (f2 : Frq) (h1 : i1 < j)
    (h2 : i2 < j) (hne : i1 ≠ i2) :
    (selectFrom l j i1 f1 i2 f2).1 < j + l.length ∧ (selectFrom l j i1 f1 i2 f2).2 < j + l.length
      ∧ (selectFrom l j i1 f1 i2 f2).1 ≠ (selectFrom l j i1 f1 i2 f2).2 := by
  induction l generalizing j i1 f1 i2 f2 with
  | nil => exact ⟨h1, h2, hne⟩
  | cons f rest ih =>
    rw [List.length_cons, show j + (rest.length + 1) = j + 1 + rest.length by omega]
    unfold selectFrom
    split
    · exact ih _ _ _ _ _ (by omega) (by omega) (by omega)
    · split
      · exact ih _ _ _ _ _ (by omega) (by omega) (by omega)
      · exact ih _ _ _ _ _ (by omega) (by omega) hne

/-- Two or more entries give two distinct positions among them. -/
theorem select_bounds {l : List Frq} (h : 1 < l.length) :
    (select l).1 < l.length ∧ (select l).2 < l.length ∧ (select l).1 ≠ (select l).2 := by
  match l, h with
  | f0 :: f1 :: rest, _ =>
    rw [List.length_cons, List.length_cons, show rest.length + 1 + 1 = 2 + rest.length by omega, select]
    split
    · exact selectFrom_bounds _ _ _ _ _ _ Nat.one_lt_two Nat.two_pos Nat.one_ne_zero
    · exact selectFrom_bounds _ _ _ _ _ _ Nat.two_pos Nat.one_lt_two Nat.zero_ne_one

/-! ## The forest after a merge (R138) -/

/-- Two positions of a list, in their order: what stands there and the rest; what a merge leaves. -/
theorem exists_rest_of_lt {α : Type} {l : List α} {i j : Nat} (hij : i < j) (hj : j < l.length) (d : α) :
    ∃ rest, l.Perm (l.getD i d :: l.getD j d :: rest) ∧ ∀ n, ((l.set i n).eraseIdx j).Perm (n :: rest) := by
  have hi : i < (l.eraseIdx j).length := by rw [List.length_eraseIdx_of_lt hj]; omega
  refine ⟨(l.eraseIdx j).eraseIdx i, ?_, fun n => ?_⟩
  · rw [List.getD_eq_getElem _ _ hj, List.getD_eq_getElem _ _ (by omega)]
    have hget : (l.eraseIdx j)[i] = l[i] := List.getElem_eraseIdx_of_lt hi hij
    calc l.Perm (l[j] :: l.eraseIdx j) := (List.getElem_cons_eraseIdx_perm hj).symm
      _ |>.Perm (l[j] :: l[i] :: (l.eraseIdx j).eraseIdx i) := by
        rw [← hget]
        exact ((List.getElem_cons_eraseIdx_perm hi).symm).cons _
      _ |>.Perm (l[i] :: l[j] :: (l.eraseIdx j).eraseIdx i) := .swap _ _ _
  · rw [List.eraseIdx_set_gt hij]
    exact List.set_perm_cons_eraseIdx hi n

/-- The same for two positions in either order, with the new entry at the lower and the higher removed. -/
theorem exists_rest {α : Type} {l : List α} {i j : Nat} (hne : i ≠ j) (hi : i < l.length) (hj : j < l.length) (d : α) :
    ∃ rest, l.Perm (l.getD i d :: l.getD j d :: rest) ∧ ∀ n, ((l.set (min i j) n).eraseIdx (max i j)).Perm (n :: rest) := by
  obtain hlt | hlt := Nat.lt_or_gt_of_ne hne
  · rw [Nat.min_eq_left hlt.le, Nat.max_eq_right hlt.le]
    exact exists_rest_of_lt hlt hj d
  · rw [Nat.min_eq_right hlt.le, Nat.max_eq_left hlt.le]
    obtain ⟨rest, hp, hn⟩ := exists_rest_of_lt hlt hi d
    exact ⟨rest, hp.trans (.swap _ _ _), hn⟩

/-- R137: the children of a merge are the two selected nodes. -/
theorem placeChildren_perm (node : Vector Node 511) (a b : NodeIdx) :
    [(placeChildren node a b).1, (placeChildren node a b).2].Perm [a, b] := by
  unfold placeChildren
  split
  · exact .swap _ _ _
  · exact .refl _

/-- R136 to R138: what one merge does to the forest and to the arena. -/
theorem mergeStep_spec {s : State} (hlen : 1 < s.forest.length) :
    ∃ a b rest l r, s.forest.Perm (a :: b :: rest) ∧ (mergeStep s).forest.Perm (BitVec.ofNat 9 s.nnode.toNat :: rest)
      ∧ [l, r].Perm [a, b]
      ∧ Allocates s (mergeStep s) ⟨.internal, 0#8, (nodeAt s.node a).frq + (nodeAt s.node b).frq, l, r⟩ := by
  obtain ⟨h1, h2, hne⟩ := select_bounds (l := s.forest.map fun m => (nodeAt s.node m).frq) (by simpa using hlen)
  rw [List.length_map] at h1 h2
  obtain ⟨rest, hold, hnew⟩ := exists_rest hne h1 h2 0#9
  rw [BitVec.ofNat_toNat]
  exact ⟨_, _, rest, _, _, hold, hnew _, placeChildren_perm s.node _ _, by rw [BitVec.ofNat_toNat]; rfl, rfl, rfl⟩

/-- R139: one merge keeps the forest. -/
theorem ArenaInv.mergeStep {s : State} (h : ArenaInv s s.forest) (hlen : 1 < s.forest.length) :
    ArenaInv (mergeStep s) (mergeStep s).forest := by
  obtain ⟨a, b, rest, l, r, hold, hnew, hlr, ht⟩ := mergeStep_spec hlen
  exact ((h.perm hold).merge hlr ht).perm hnew.symm

/-- A merge leaves a root. -/
theorem forest_mergeStep_ne_nil {s : State} (hlen : 1 < s.forest.length) : (mergeStep s).forest ≠ [] := by
  obtain ⟨a, b, rest, l, r, -, hnew, -⟩ := mergeStep_spec hlen
  exact fun h => by simp [h] at hnew

/-! ## The invariant -/

/-- Outside BUILD's loop only the tree counts. -/
theorem TreeInv.of_tree {t : State} (h : t.status.tv = true → ArenaInv t [t.root])
    (hloop : ∀ c, t.engine ≠ some (c, .buildLoop)) : TreeInv t where
  tree := h
  forest he := by
    match hn : t.engine with
    | none => simp [hn] at he
    | some (c, p) =>
      simp only [hn, Option.any_some, beq_iff_eq] at he
      exact absurd (he ▸ hn) (hloop c)

theorem TreeInv.same {s t : State} (h : TreeInv s) (ht : SameTree s t) (hloop : ∀ c, t.engine ≠ some (c, .buildLoop)) :
    TreeInv t := by
  obtain ⟨hnode, hleaf, hnnode, hroot, htv, -⟩ := ht
  exact .of_tree (fun hv => by rw [hroot]; exact (h.tree (htv ▸ hv)).congr hnode hleaf hnnode) hloop

/-- In BUILD's loop there is a forest (R134). -/
theorem TreeInv.forest_at {s : State} {c : Instr} (h : TreeInv s) (he : s.engine = some (c, .buildLoop)) :
    ArenaInv s s.forest ∧ s.forest ≠ [] := h.forest (by simp [he])

theorem treeInv_resetBlock (s : State) : TreeInv (resetBlock s) := .of_tree (by simp [State.reset]) (by simp [State.reset])

theorem TreeInv.frame {s t : State} (h : TreeInv s) (hf : HostFrame s t) : TreeInv t where
  tree hv := by
    obtain ⟨-, -, -, hroot, htv, -⟩ := hf.tree
    rw [hroot]
    exact (h.tree (htv ▸ hv)).tree hf.tree
  forest he := by
    obtain hs | ⟨c, hc⟩ := hf.engine
    · rw [hf.forest]
      obtain ⟨ha, hne⟩ := h.forest (hs ▸ he)
      exact ⟨ha.tree hf.tree, hne⟩
    · simp [hc] at he

/-! ## BUILD -/

/-- R131, R132: BUILD begins with the forest of the leaves, or ends with an error. -/
theorem treeInv_buildStart (s : State) : TreeInv (buildStart s) := by
  unfold buildStart
  dsimp only
  split
  · exact .of_tree (by simp) (by simp)
  · rename_i hne
    refine ⟨by simp, fun _ => ⟨.leaves s.freq rfl rfl rfl, ?_⟩⟩
    simpa [initialForest] using hne

/-- R134 to R141: a pass of the loop merges two roots; the last root is the tree's. -/
theorem TreeInv.buildLoop {s : State} {c : Instr} (hs : LifecycleInv s) (h : TreeInv s) (he : s.engine = some (c, .buildLoop)) :
    TreeInv (buildLoop c s) := by
  obtain ⟨ha, hne⟩ := h.forest_at he
  have hv := hs.valid_at he
  simp only [validAt, Bool.and_eq_true, Bool.not_eq_true'] at hv
  unfold Machine.buildLoop
  split
  · rename_i hlen
    refine ⟨fun htv => absurd (hv.1.symm.trans htv) (by decide), fun _ => ⟨(ha.mergeStep hlen).congr rfl rfl rfl, ?_⟩⟩
    exact forest_mergeStep_ne_nil hlen
  · rename_i hlen
    obtain ⟨r, hr⟩ : ∃ r, s.forest = [r] := List.length_eq_one_iff.mp (by have := List.length_pos_iff.mpr hne; omega)
    rw [hr] at ha
    have hroot : (goTo c .complete (finishTree s)).root = r := by simp [finishTree, hr]
    exact .of_tree (fun _ => by rw [hroot]; exact ha.congr rfl rfl rfl) (by simp)

/-! ## The micro-step -/

theorem build_places {p : Point} (h : placeFits .build p = true) (hp : p ≠ .complete ∧ ∀ e, p ≠ .raising e) :
    p = .start ∨ p = .buildLoop := by
  cases p <;> simp_all [placeFits]

theorem TreeInv.engineStep {s t : State} (hs : LifecycleInv s) (h : TreeInv s) (ht : engineStep s = some t) : TreeInv t := by
  cases engineStep_effect ht with
  | raise c e => exact h.same ⟨rfl, rfl, rfl, rfl, rfl, rfl⟩ (by simp)
  | complete c => exact h.same (by simp [SameTree]) (by simp)
  | body c p he hp g =>
    by_cases hc : c = .build
    · subst hc
      obtain rfl | rfl := build_places (hs.fits_at he) hp
      · rw [engineStep_start he, Option.some.injEq] at ht
        exact ht ▸ treeInv_buildStart s
      · rw [engineStep_buildLoop he, Option.some.injEq] at ht
        exact ht ▸ h.buildLoop hs he
    · obtain ⟨q, u, rfl, -, hB⟩ := g
      have B := hB (hs.fits_at he)
      refine h.same (B.tree hc) fun d hd => hc ?_
      have hq := B.fits
      simp only [goTo_engine, Option.some.injEq, Prod.mk.injEq] at hd
      simpa [hd.2, placeFits] using hq

/-- Settles O20: BUILD's leaves are a forest, a merge keeps it, and its last root is the tree's; no other command and no move of the
host touches the arena. -/
theorem everyStepKeepsTheTree : Obligations.EveryStepKeepsTheTree := by
  unfold Obligations.EveryStepKeepsTheTree
  exact fun _ _ hs ht h => step_keeps hs ht h treeInv_resetBlock (fun _ _ hf hu => hu.frame hf) fun _ _ hu htu => htu.engineStep hu

end Sys2Proof.Machine
end

