-- ==== Sys2Proof/Proofs/Paths.lean ====
section
/-! SUPPORT. Paths in a tree (R43, R152): where they lead, how long they are, and the code strings that describe them. -/

namespace Sys2Proof.Machine

/-! ## Following a bit string -/

/-- A path ends at the first Leaf it meets. -/
theorem follow_of_leaf {node : Vector Node 511} {n m : NodeIdx} {bits : List Bool} (hk : (nodeAt node n).kind = .leaf)
    (h : follow node n bits = some m) : m = n := by
  cases bits with
  | nil => simpa [follow] using h.symm
  | cons b bs => simp [follow, hk] at h

/-- At an Internal node the first bit selects the child. -/
theorem follow_cons {node : Vector Node 511} {n : NodeIdx} (hk : (nodeAt node n).kind = .internal) (b : Bool) (bs : List Bool) :
    follow node n (b :: bs) = follow node (childOf (nodeAt node n) b) bs := by
  simp [follow, hk]

/-- A path to an Internal node goes on to either child. -/
theorem follow_snoc {node : Vector Node 511} {n m : NodeIdx} {bits : List Bool} (h : follow node n bits = some m)
    (hk : (nodeAt node m).kind = .internal) (b : Bool) :
    follow node n (bits ++ [b]) = some (childOf (nodeAt node m) b) := by
  induction bits generalizing n with
  | nil =>
    obtain rfl : n = m := by simpa [follow] using h
    rw [List.nil_append, follow_cons hk, follow]
  | cons a as ih =>
    rw [follow] at h
    split at h
    · rw [List.cons_append, follow_cons ‹_›]
      exact ih h
    · simp at h

/-! ## Code strings (R14, R44) -/

/-- A value that has the bit `b` below `val`. -/
def appendBit (val : CodeVal) (b : Bool) : CodeVal := if b then (val <<< 1) + 1#256 else val <<< 1

theorem appendBit_toNat (val : CodeVal) (b : Bool) (h : val.toNat < 2 ^ 255) :
    (appendBit val b).toNat = 2 * val.toNat + b.toNat := by
  have hs : (val <<< 1).toNat = 2 * val.toNat := by
    rw [BitVec.toNat_shiftLeft, Nat.shiftLeft_eq, Nat.mod_eq_of_lt (by omega)]
    omega
  cases b with
  | false => simpa [appendBit] using hs
  | true =>
    rw [appendBit, if_pos rfl, BitVec.toNat_add, hs]
    exact Nat.mod_eq_of_lt (by simp; omega)

/-- The code string of a value with one more bit. -/
theorem codeBits_appendBit (len : BitVec 8) (val : CodeVal) (b : Bool) (hl : len.toNat < 255) (hv : val.toNat < 2 ^ len.toNat) :
    codeBits ⟨len + 1#8, appendBit val b⟩ = codeBits ⟨len, val⟩ ++ [b] := by
  have hlt : val.toNat < 2 ^ 255 := hv.trans (Nat.pow_lt_pow_right (by omega) hl)
  have hlen : (len + 1#8).toNat = len.toNat + 1 := by bv_omega
  have bit (i : Nat) : (appendBit val b).getLsbD i = if i = 0 then b else val.getLsbD (i - 1) := by
    rw [← BitVec.testBit_toNat, appendBit_toNat val b hlt]
    cases i with
    | zero => cases b <;> simp [Nat.testBit_zero]
    | succ i =>
      rw [Nat.testBit_succ, if_neg (by omega), Nat.add_sub_cancel, ← BitVec.testBit_toNat]
      congr 1
      cases b with
      | false => simp
      | true => simp; omega
  rw [codeBits, codeBits, hlen, List.range_succ, List.map_append]
  congr 1
  · refine List.map_congr_left fun i hi => ?_
    have := List.mem_range.mp hi
    simp only [codeBit, hlen, bit]
    rw [if_neg (by omega)]
    congr 1
    omega
  · simpa [codeBit, hlen] using bit 0

theorem length_codeBits (c : Code) : (codeBits c).length = c.clen.toNat := by simp [codeBits]

/-! ## The tree -/

section
variable {s : State}

/-- R43 (a): an Internal node's children are allocated before it. -/
theorem ArenaInv.childOf_lt {roots : List NodeIdx} (h : ArenaInv s roots) {n : NodeIdx} (hn : n.toNat < s.nnode.toNat)
    (hk : (nodeAt s.node n).kind = .internal) (b : Bool) : (childOf (nodeAt s.node n) b).toNat < n.toNat := by
  by_cases hl : n.toNat < s.nleaf.toNat
  · have := (h.leaf n.toNat hl).1
    rw [nodeNo_toNat, hk] at this
    simp at this
  · obtain ⟨-, -, hlt, hrt, -⟩ := h.internal n.toNat hn (by omega)
    rw [nodeNo_toNat] at hlt hrt
    cases b
    · exact hlt
    · exact hrt

/-- R41: the leaves come first. -/
theorem ArenaInv.kind_iff {roots : List NodeIdx} (h : ArenaInv s roots) {n : NodeIdx} (hn : n.toNat < s.nnode.toNat) :
    (nodeAt s.node n).kind = .leaf ↔ n.toNat < s.nleaf.toNat := by
  constructor
  · intro hk
    by_contra hle
    have := (h.internal n.toNat hn (by omega)).1
    rw [nodeNo_toNat, hk] at this
    simp at this
  · intro hlt
    rw [← nodeNo_toNat]
    exact (h.leaf n.toNat hlt).1

/-- R43 (a): a path goes down the arena at each bit. -/
theorem ArenaInv.follow_le {roots : List NodeIdx} (h : ArenaInv s roots) {n m : NodeIdx} {bits : List Bool}
    (hn : n.toNat < s.nnode.toNat) (hf : follow s.node n bits = some m) : m.toNat + bits.length ≤ n.toNat := by
  induction bits generalizing n with
  | nil =>
    obtain rfl : n = m := by simpa [follow] using hf
    simp
  | cons b bs ih =>
    rw [follow] at hf
    split at hf
    · have hlt := h.childOf_lt hn ‹_› b
      have := ih (by omega) hf
      rw [List.length_cons]
      omega
    · simp at hf

variable (h : ArenaInv s [s.root])
include h

/-- R139, R140: the root is the last node. -/
theorem ArenaInv.root_last : s.root.toNat + 1 = s.nnode.toNat := by
  have hc := h.count
  have hle := h.leafCount
  simp only [List.length_cons, List.length_nil] at hc
  have hlast : (childList s).count (BitVec.ofNat 9 (s.nnode.toNat - 1)) = 0 := List.count_eq_zero_of_not_mem fun hx => by
    have := h.lt_of_mem_childList hx
    rw [toNat_ofNat_idx (by omega)] at this
    omega
  have ho := h.once (s.nnode.toNat - 1) (by omega)
  rw [hlast, Nat.zero_add] at ho
  have hmem : BitVec.ofNat 9 (s.nnode.toNat - 1) ∈ [s.root] := List.count_pos_iff.mp (by omega)
  rw [← List.mem_singleton.mp hmem, toNat_ofNat_idx (by omega)]
  omega

/-- R151: the root is a Leaf exactly in the tree of one. -/
theorem ArenaInv.root_kind : (nodeAt s.node s.root).kind = .leaf ↔ s.nleaf.toNat = 1 := by
  have hc := h.count
  have hr := h.root_last
  simp only [List.length_cons, List.length_nil] at hc
  rw [h.kind_iff (by omega)]
  omega

/-- R43 (b): every node is on a path from the root. -/
theorem ArenaInv.reachable (n : Nat) (hn : n < s.nnode.toNat) : ∃ bits, follow s.node s.root bits = some (BitVec.ofNat 9 n) := by
  induction hk : s.nnode.toNat - n using Nat.strong_induction_on generalizing n with
  | _ k ih =>
    have hroom := h.nnode_le
    by_cases hm : BitVec.ofNat 9 n ∈ childList s
    · obtain ⟨m, hmem, hc⟩ := List.mem_flatMap.mp hm
      rw [List.mem_range'_1] at hmem
      obtain ⟨hi, -, hl, hr, -⟩ := h.internal m (by omega) (by omega)
      obtain ⟨b, hb⟩ : ∃ b, childOf (nodeNo s m) b = BitVec.ofNat 9 n := by
        obtain hc | hc : _ ∨ _ := by simpa using hc
        · exact ⟨false, hc.symm⟩
        · exact ⟨true, hc.symm⟩
      have hlt : n < m := by
        rw [← toNat_ofNat_idx (show n < 512 by omega), ← hb]
        cases b
        · exact hl
        · exact hr
      obtain ⟨bits, hf⟩ := ih _ (by omega) m (by omega) rfl
      exact ⟨bits ++ [b], by rw [follow_snoc hf hi b, ← hb]; rfl⟩
    · have ho := h.once n hn
      rw [List.count_eq_zero_of_not_mem hm, Nat.zero_add] at ho
      have : BitVec.ofNat 9 n ∈ [s.root] := List.count_pos_iff.mp (by omega)
      exact ⟨[], by rw [follow, List.mem_singleton.mp this]⟩

end

end Sys2Proof.Machine
end

