-- ==== Sys2Proof/Proofs/Codes.lean ====
section
/-! PROOF. Every step keeps the code table, and DERIVE's traversal (O21). -/

namespace Sys2Proof.Machine

/-! ## What the predicates depend on -/

theorem CodeOfLeaf.same {s t : State} {c : Code} {n : Nat} (h : CodeOfLeaf s c n) (ht : SameTree s t) : CodeOfLeaf t c n := by
  obtain ⟨hnode, hleaf, -, hroot, -⟩ := ht
  unfold CodeOfLeaf
  rw [hnode, hleaf, hroot]
  exact h

theorem CodesMatch.same {s t : State} (h : CodesMatch s) (ht : SameTree s t) (hc : t.code = s.code) : CodesMatch t := by
  have hno : nodeNo t = nodeNo s := by unfold nodeNo; rw [ht.1]
  have hleaf := ht.2.1
  exact
  { coded := fun n hn => by rw [hno, hc]; exact (h.coded n (hleaf ▸ hn)).same ht
    uncoded := fun x hx => by rw [hc]; exact h.uncoded x (by rw [← hno, ← hleaf]; exact hx) }

theorem VisitsLeft.same {s t : State} {pending : List Visit} (h : VisitsLeft s pending) (ht : SameTree s t)
    (hc : t.code = s.code) : VisitsLeft t pending := by
  have hno : nodeNo t = nodeNo s := by unfold nodeNo; rw [ht.1]
  obtain ⟨hnode, hleaf, -, hroot, -⟩ := id ht
  exact
  { several := by rw [hleaf]; exact h.several
    onPath := by rw [hnode, hroot]; exact h.onPath
    recorded := fun n hn => by
      rw [hno, hc, hnode]
      exact (h.recorded n (hleaf ▸ hn)).imp_left fun hr => hr.same ht
    uncoded := fun x hx => by rw [hc]; exact h.uncoded x (by rw [← hno, ← hleaf]; exact hx) }

/-! ## The traversal (R150 to R152) -/

section
variable {s : State} (h : ArenaInv s [s.root])
include h

/-- R43 (e): distinct leaves have distinct symbols. -/
theorem ArenaInv.sym_ne {m n : Nat} (hm : m < s.nleaf.toNat) (hn : n < s.nleaf.toNat) (hne : m ≠ n) :
    (nodeNo s m).sym ≠ (nodeNo s n).sym := fun e => by
  have e := congrArg BitVec.toNat e
  obtain hlt | hlt := Nat.lt_or_gt_of_ne hne
  · have := h.sorted n hn m hlt
    omega
  · have := h.sorted m hm n hlt
    omega

/-- R151: the tree of one Leaf. -/
theorem codesMatch_single (hk : (nodeAt s.node s.root).kind = .leaf)
    (hc : s.code = setCode clearedCodes (nodeAt s.node s.root).sym ⟨1#8, 0#256⟩) : CodesMatch s := by
  have hl := h.root_kind.mp hk
  have hroot : s.root.toNat = 0 := by
    have := (h.kind_iff (by have := h.root_last; omega)).mp hk
    omega
  have hno : nodeNo s 0 = nodeAt s.node s.root := by rw [← hroot, nodeNo_toNat]
  exact
  { coded := fun n hn => by
      obtain rfl : n = 0 := by omega
      rw [hno, hc, codeAt_setCode_self, CodeOfLeaf, if_pos (BitVec.eq_of_toNat_eq hl)]
      decide
    uncoded := fun x hx => by
      rw [hc, codeAt_setCode_other _ _ (hno ▸ hx 0 (by omega)), codeAt_clearedCodes] }

/-- R152: at the beginning only the root is to be visited. -/
theorem visitsLeft_root (hk : (nodeAt s.node s.root).kind = .internal) (hc : s.code = clearedCodes) :
    VisitsLeft s [⟨s.root, 0#8, 0#256⟩] where
  several hl := by
    have := h.root_kind.mpr hl
    simp [hk] at this
  onPath v hv := by
    obtain rfl := List.mem_singleton.mp hv
    simp [codeBits, follow]
  recorded n hn := .inr ⟨_, List.mem_singleton.mpr rfl, h.reachable n (by have := h.nleaf_le; omega)⟩
  uncoded x _ := by rw [hc, codeAt_clearedCodes]

variable {v : Visit} {stack : List Visit} (hv : VisitsLeft s (v :: stack))
include hv

theorem VisitsLeft.head_allocated : v.node.toNat < s.nnode.toNat := by
  have hr := h.root_last
  have := h.follow_le (by omega) (hv.onPath v (by simp)).2
  omega

/-- R152: a Leaf's symbol gets the code of its path. -/
theorem VisitsLeft.leaf (hk : (nodeAt s.node v.node).kind = .leaf) {t : State} (ht : SameTree s t)
    (hc : t.code = setCode s.code (nodeAt s.node v.node).sym ⟨v.len, v.val⟩) : VisitsLeft t stack := by
  obtain ⟨hval, hpath⟩ := hv.onPath v (by simp)
  have hlt := (h.kind_iff (hv.head_allocated h)).mp hk
  have hno : nodeNo t = nodeNo s := by unfold nodeNo; rw [ht.1]
  obtain ⟨hnode, hleaf, -, hroot, -⟩ := id ht
  have hlen : v.len ≠ 0#8 := fun h0 => by
    rw [h0] at hpath
    have hroot : s.root = v.node := by simpa [codeBits, follow] using hpath
    exact hv.several (h.root_kind.mp (hroot ▸ hk))
  exact
  { several := by rw [hleaf]; exact hv.several
    onPath := fun w hw => by rw [hnode, hroot]; exact hv.onPath w (by simp [hw])
    recorded := fun n hn => by
      rw [hleaf] at hn
      rw [hno, hc, hnode]
      by_cases hn' : n = v.node.toNat
      · subst hn'
        rw [nodeNo_toNat, codeAt_setCode_self, CodeOfLeaf, hleaf, hnode, hroot, if_neg fun e => hv.several (by rw [e]; rfl)]
        exact .inl ⟨hlen, hval, by rw [hpath, ofNat_toNat_idx]⟩
      · rw [codeAt_setCode_other _ _ (nodeNo_toNat s v.node ▸ h.sym_ne hlt hn (Ne.symm hn'))]
        obtain hr | ⟨w, hw, bits, hf⟩ := hv.recorded n hn
        · exact .inl (hr.same ht)
        · obtain rfl | hw := List.mem_cons.mp hw
          · have := h.leafCount
            exact absurd (by rw [← follow_of_leaf hk hf, toNat_ofNat_idx (by omega)]) hn'
          · exact .inr ⟨w, hw, bits, hf⟩
    uncoded := fun x hx => by
      rw [hno, hleaf] at hx
      rw [hc, codeAt_setCode_other _ _ (nodeNo_toNat s v.node ▸ hx _ hlt)]
      exact hv.uncoded x hx }

/-- R152, R154 (d): the path to an Internal node leaves room for one more bit. -/
theorem VisitsLeft.len_lt (hk : (nodeAt s.node v.node).kind = .internal) : v.len.toNat < 255 := by
  have hr := h.root_last
  have hcount := h.count
  have hle := h.leafCount
  have hdepth := h.follow_le (by omega) (hv.onPath v (by simp)).2
  have hint : ¬v.node.toNat < s.nleaf.toNat := fun hlt => by
    have := (h.kind_iff (hv.head_allocated h)).mpr hlt
    simp [hk] at this
  rw [length_codeBits] at hdepth
  dsimp only at hdepth
  simp only [List.length_cons, List.length_nil] at hcount
  omega

/-- R152: the visit of one child of an Internal node. -/
theorem VisitsLeft.child_onPath (hk : (nodeAt s.node v.node).kind = .internal) (b : Bool) :
    (appendBit v.val b).toNat < 2 ^ (v.len + 1#8).toNat
      ∧ follow s.node s.root (codeBits ⟨v.len + 1#8, appendBit v.val b⟩) = some (childOf (nodeAt s.node v.node) b) := by
  obtain ⟨hval, hpath⟩ := hv.onPath v (by simp)
  have hlen := hv.len_lt h hk
  refine ⟨?_, by rw [codeBits_appendBit _ _ _ hlen hval]; exact follow_snoc hpath hk b⟩
  rw [appendBit_toNat _ _ (hval.trans_le (Nat.pow_le_pow_right (by omega) hlen.le)),
    show (v.len + 1#8).toNat = v.len.toNat + 1 by bv_omega, Nat.pow_succ]
  cases b <;> simp <;> omega

/-- R152: an Internal node is left for its two children. -/
theorem VisitsLeft.internal (hk : (nodeAt s.node v.node).kind = .internal) :
    VisitsLeft s (⟨(nodeAt s.node v.node).left, v.len + 1#8, v.val <<< 1⟩
      :: ⟨(nodeAt s.node v.node).right, v.len + 1#8, (v.val <<< 1) + 1#256⟩ :: stack) where
  several := hv.several
  onPath w hw := by
    obtain rfl | rfl | hw := by simpa using hw
    · exact hv.child_onPath h hk false
    · exact hv.child_onPath h hk true
    · exact hv.onPath w (by simp [hw])
  recorded n hn := by
    refine (hv.recorded n hn).imp_right ?_
    rintro ⟨w, hw, bits, hf⟩
    obtain rfl | hw := List.mem_cons.mp hw
    · match bits with
      | [] =>
        have hleaf := (h.leaf n hn).1
        rw [nodeNo, ← Option.some.inj hf, hk] at hleaf
        simp at hleaf
      | b :: bs =>
        rw [follow_cons hk] at hf
        cases b
        · exact ⟨_, List.mem_cons_self, bs, hf⟩
        · exact ⟨_, List.mem_cons_of_mem _ List.mem_cons_self, bs, hf⟩
    · exact ⟨w, by simp [hw], bits, hf⟩
  uncoded := hv.uncoded

end

/-- R152: the traversal is over when no visit is left. -/
theorem VisitsLeft.codesMatch {s : State} (hv : VisitsLeft s []) : CodesMatch s where
  coded n hn := (hv.recorded n hn).resolve_right (by simp)
  uncoded := hv.uncoded

/-! ## The invariant -/

/-- Outside DERIVE's traversal only the valid table counts. -/
theorem CodeInv.of_codes {t : State} (h : t.status.cv = true → CodesMatch t) (hv : ∀ c v, t.engine ≠ some (c, .deriveVisit v))
    (hd : ∀ c, t.engine ≠ some (c, .deriveDone)) : CodeInv t :=
  ⟨h, fun c v he => absurd he (hv c v), fun c he => absurd he (hd c)⟩

theorem CodeInv.same {s t : State} (h : CodeInv s) (ht : SameTree s t) (hc : SameCodes s t)
    (hv : ∀ c v, t.engine ≠ some (c, .deriveVisit v)) (hd : ∀ c, t.engine ≠ some (c, .deriveDone)) : CodeInv t :=
  .of_codes (fun hcv => (h.valid (hc.2 ▸ hcv)).same ht hc.1) hv hd

theorem codeInv_resetBlock (s : State) : CodeInv (resetBlock s) :=
  .of_codes (by simp [State.reset]) (by simp [State.reset]) (by simp [State.reset])

theorem CodeInv.frame {s t : State} (h : CodeInv s) (hf : HostFrame s t) : CodeInv t := by
  obtain he | ⟨c, he⟩ := hf.engine
  · exact
    { valid := fun hcv => (h.valid (hf.codes.2 ▸ hcv)).same hf.tree hf.codes.1
      visiting := fun c v hv => by
        rw [hf.stack]
        exact (h.visiting c v (he ▸ hv)).same hf.tree hf.codes.1
      visited := fun c hd => (h.visited c (he ▸ hd)).same hf.tree hf.codes.1 }
  · exact h.same hf.tree hf.codes (by simp [he]) (by simp [he])

/-! ## BUILD -/

/-- R131: BUILD clears CV and no code is valid before DERIVE has run. -/
theorem codeInv_build {s t : State} {p : Point} (hs : LifecycleInv s) (he : s.engine = some (.build, p))
    (hp : p = .start ∨ p = .buildLoop) (ht : engineStep s = some t) : CodeInv t := by
  obtain rfl | rfl := hp
  · rw [engineStep_start he, Option.some.injEq] at ht
    subst ht
    simp only [startBody, buildStart]
    split
    · exact .of_codes (by simp) (by simp) (by simp)
    · exact .of_codes (by simp) (by simp) (by simp)
  · have hv := hs.valid_at he
    simp only [validAt, Bool.and_eq_true, Bool.not_eq_true'] at hv
    obtain ⟨-, hcv⟩ := hv
    rw [engineStep_buildLoop he, Option.some.injEq] at ht
    subst ht
    unfold buildLoop
    split
    · exact .of_codes (fun h => absurd (hcv.symm.trans h) (by decide)) (by simp) (by simp)
    · exact .of_codes (fun h => absurd (hcv.symm.trans h) (by decide)) (by simp) (by simp)

/-! ## DERIVE -/

theorem CodeInv.deriveStart {s : State} (htree : TreeInv s) (h : CodeInv s) : CodeInv (deriveStart s) := by
  unfold Machine.deriveStart
  split
  · rename_i htv
    have ha := htree.tree htv
    dsimp only
    split
    · rename_i hk
      exact
      { valid := by simp
        visiting := by simp
        visited := fun _ _ => codesMatch_single (ha.congr rfl rfl rfl) hk rfl }
    · rename_i hk
      exact
      { valid := by simp
        visiting := fun c v he => by
          obtain ⟨-, rfl⟩ : _ ∧ v = ⟨s.root, 0#8, 0#256⟩ := by simpa [eq_comm] using he
          exact visitsLeft_root (ha.congr rfl rfl rfl) hk rfl
        visited := by simp }
  · exact h.same ⟨rfl, rfl, rfl, rfl, rfl, rfl⟩ ⟨rfl, rfl⟩ (by simp) (by simp)

/-- R152: the traversal goes on with the stack, or is over. -/
theorem codeInv_nextVisit {s : State} {c : Instr} (hcv : s.status.cv = false) (hv : VisitsLeft s s.stack) :
    CodeInv (nextVisit c s) := by
  unfold nextVisit
  split
  · rename_i hnil
    exact
    { valid := fun h => absurd (hcv.symm.trans h) (by decide)
      visiting := by simp
      visited := fun _ _ => VisitsLeft.codesMatch ((hnil ▸ hv).same ⟨rfl, rfl, rfl, rfl, rfl, rfl⟩ rfl) }
  · rename_i v rest hcons
    exact
    { valid := fun h => absurd (hcv.symm.trans h) (by decide)
      visiting := fun d w he => by
        obtain ⟨-, rfl⟩ : _ ∧ w = v := by simpa [eq_comm] using he
        exact (hcons ▸ hv).same ⟨rfl, rfl, rfl, rfl, rfl, rfl⟩ rfl
      visited := by simp }

theorem CodeInv.deriveVisit {s : State} {c : Instr} {v : Visit} (hs : LifecycleInv s) (htree : TreeInv s) (h : CodeInv s)
    (he : s.engine = some (c, .deriveVisit v)) : CodeInv (deriveVisit c v s) := by
  have hvalid := hs.valid_at he
  simp only [validAt, Bool.and_eq_true, Bool.not_eq_true'] at hvalid
  obtain ⟨htv, hcv⟩ := hvalid
  have ha := htree.tree htv
  have hv := h.visiting c v he
  unfold Machine.deriveVisit
  dsimp only
  split
  · rename_i hk
    exact codeInv_nextVisit hcv (hv.leaf ha hk ⟨rfl, rfl, rfl, rfl, rfl, rfl⟩ rfl)
  · rename_i hk
    exact
    { valid := fun h => absurd (hcv.symm.trans h) (by decide)
      visiting := fun d w hw => by
        obtain ⟨-, rfl⟩ : _ ∧ w = ⟨(nodeAt s.node v.node).left, v.len + 1#8, v.val <<< 1⟩ := by simpa [eq_comm] using hw
        exact (hv.internal ha hk).same ⟨rfl, rfl, rfl, rfl, rfl, rfl⟩ rfl
      visited := by simp }

theorem derive_places {p : Point} (h : placeFits .derive p = true) (hp : p ≠ .complete ∧ ∀ e, p ≠ .raising e) :
    p = .start ∨ (∃ v, p = .deriveVisit v) ∨ p = .deriveDone := by
  cases p <;> simp_all [placeFits]

theorem CodeInv.derive {s t : State} {p : Point} (hs : LifecycleInv s) (htree : TreeInv s) (h : CodeInv s)
    (he : s.engine = some (.derive, p)) (hp : p ≠ .complete ∧ ∀ e, p ≠ .raising e) (ht : engineStep s = some t) :
    CodeInv t := by
  obtain rfl | ⟨v, rfl⟩ | rfl := derive_places (hs.fits_at he) hp
  · rw [engineStep_start he, Option.some.injEq] at ht
    exact ht ▸ h.deriveStart htree
  · rw [engineStep_deriveVisit he, Option.some.injEq] at ht
    exact ht ▸ h.deriveVisit hs htree he
  · rw [engineStep_deriveDone he, Option.some.injEq] at ht
    subst ht
    exact .of_codes (fun _ => (h.visited _ he).same ⟨rfl, rfl, rfl, rfl, rfl, rfl⟩ rfl) (by simp [deriveDone])
      (by simp [deriveDone])

/-! ## The micro-step -/

theorem CodeInv.engineStep {s t : State} (hs : LifecycleInv s) (htree : TreeInv s) (h : CodeInv s) (ht : engineStep s = some t) :
    CodeInv t := by
  cases engineStep_effect ht with
  | raise c e => exact h.same ⟨rfl, rfl, rfl, rfl, rfl, rfl⟩ (by simp [SameCodes]) (by simp) (by simp)
  | complete c => exact h.same (by simp [SameTree]) (by simp [SameCodes]) (by simp) (by simp)
  | body c p he hp g =>
    by_cases hb : c = .build
    · subst hb
      exact codeInv_build hs he (build_places (hs.fits_at he) hp) ht
    by_cases hd : c = .derive
    · subst hd
      exact h.derive hs htree he hp ht
    obtain ⟨q, u, rfl, -, hB⟩ := g
    have B := hB (hs.fits_at he)
    have hq := B.fits
    refine h.same (B.tree hb) (B.codes hb hd) (fun d v hv => hd ?_) fun d hv => hd ?_
    · simp only [goTo_engine, Option.some.injEq, Prod.mk.injEq] at hv
      simpa [hv.2, placeFits] using hq
    · simp only [goTo_engine, Option.some.injEq, Prod.mk.injEq] at hv
      simpa [hv.2, placeFits] using hq

/-- Settles O21: each visit of DERIVE records its leaf's code or leaves its two children to visit, and nothing is left when CV
rises; BUILD clears CV, and no other command and no move of the host touches the tree or the codes. -/
theorem everyStepKeepsTheCodes : Obligations.EveryStepKeepsTheCodes := by
  unfold Obligations.EveryStepKeepsTheCodes
  intro s t hs htree hcode h
  exact (step_keeps (P := fun u => TreeInv u ∧ CodeInv u) hs ⟨htree, hcode⟩ h
    (fun u => ⟨treeInv_resetBlock u, codeInv_resetBlock u⟩) (fun u v hf hu => ⟨hu.1.frame hf, hu.2.frame hf⟩)
    fun u v hu htu hv => ⟨htu.1.engineStep hu hv, htu.2.engineStep hu htu.1 hv⟩).2

end Sys2Proof.Machine
end

