-- ==== Sys2Proof/Proofs/Writers.lean ====
section
/-! PROOF. Who changes each register over a step (O24), and that errors and overruns stay (O23). -/

namespace Sys2Proof.Machine

/-! ## The addresses a host write takes effect at (R62) -/

/-- IE is at 0x0010 and nowhere else, LEN at 0x0014, FREQ[x] at its own address. -/
theorem decodeAddr_writable {a : Addr} (hok : accessOk a 4 = true) :
    (decodeAddr a = .ie → a = 0x0010#16) ∧ (decodeAddr a = .len → a = 0x0014#16)
      ∧ ∀ x, decodeAddr a = .freq x → a = Program.freqAddr x := by
  have hal : a.toNat % 4 = 0 := by simpa [accessOk] using hok
  unfold decodeAddr
  dsimp only
  split
  · have control {k : Nat} (hk : a.toNat / 4 = k) (hlt : k < 256) : a = BitVec.ofNat 16 (4 * k) := by
      apply BitVec.eq_of_toNat_eq
      rw [BitVec.toNat_ofNat]
      omega
    unfold controlReg
    split <;> simp only [reduceCtorEq, false_implies, true_and, implies_true, and_true, forall_const]
    · exact control (k := 4) ‹_› (by decide)
    · exact control (k := 5) ‹_› (by decide)
  · split
    · simp only [reduceCtorEq, false_implies, true_and, PortReg.freq.injEq]
      rintro _ rfl
      apply BitVec.eq_of_toNat_eq
      simp only [Program.freqAddr, BitVec.toNat_ofNat]
      omega
    · refine ⟨fun h => ?_, fun h => ?_, fun x h => ?_⟩ <;> (repeat' split at h) <;> simp at h

/-- R104, R108 to R110: everything a host write outside CMD can do. -/
theorem hostWrite_cases (r : PortReg) (v : Word) (s : State) :
    hostWrite r v s = s ∨ (r = .ie ∧ hostWrite r v s = { s with ie := ieOf v })
      ∨ (s.status.busy = true ∧ (r = .len ∨ ∃ x, r = .freq x) ∧ hostWrite r v s = ignoreWrite s)
      ∨ (s.status.busy = false ∧ r = .len ∧ hostWrite r v s = { s with len := v })
      ∨ (s.status.busy = false ∧ ∃ x, r = .freq x ∧ hostWrite r v s = { s with freq := setFreq s.freq x v }) := by
  cases r with
  | ie => exact .inr (.inl ⟨rfl, rfl⟩)
  | len => cases hb : s.status.busy <;> simp [hostWrite, hb]
  | freq x => cases hb : s.status.busy <;> simp [hostWrite, hb]
  | _ => exact .inl rfl

/-! ## The writers of each register -/

/-- The running command reads IN and writes OUT. -/
def RunsStream (s : State) : Prop := Runs .compress s ∨ Runs .expand s ∨ Runs .expandx s

/-- The tables, the counters and PARTIAL are the same or have been written by the running command (R28 to R41). -/
structure TablesWritten (s t : State) : Prop where
  tree : SameTree s t ∨ Runs .build s
  codes : SameCodes s t ∨ Runs .build s ∨ Runs .derive s
  counters : SameCounters s t ∨ RunsStream s
  partialWalk : t.status.partialWalk = s.status.partialWalk ∨ Runs .expand s ∨ Runs .expandx s

/-- FREQ, LEN and IE are the same or have been written by the host, FREQ also by FCLR (R33, R34, R40). -/
structure PortWritten (s t : State) : Prop where
  freq : t.freq = s.freq ∨ Runs .fclr s ∨ (s.status.busy = false
    ∧ ∃ x v, s.agenda.head? = some (.host (.write (Program.freqAddr x) 4 v)) ∧ t.freq = setFreq s.freq x v)
  len : t.len = s.len ∨ (s.status.busy = false ∧ ∃ v, s.agenda.head? = some (.host (.write 0x0014#16 4 v)) ∧ t.len = v)
  ie : t.ie = s.ie ∨ ∃ v, s.agenda.head? = some (.host (.write 0x0010#16 4 v)) ∧ t.ie = ieOf v

/-- A flag `a` that has become `b` is the same, or has risen under `R`, or has fallen under `F`. -/
def FlagWritten (a b : Bool) (R F : Prop) : Prop := b = a ∨ (b = true ∧ R) ∨ (b = false ∧ F)

theorem FlagWritten.rises {a b : Bool} {R F : Prop} (h : FlagWritten a b R F) (hr : a = false ∧ b = true) : R := by
  obtain ⟨rfl, rfl⟩ := hr
  simpa [FlagWritten] using h

theorem FlagWritten.falls {a b : Bool} {R F : Prop} (h : FlagWritten a b R F) (hf : a = true ∧ b = false) : F := by
  obtain ⟨rfl, rfl⟩ := hf
  simpa [FlagWritten] using h

/-- The flags of STATUS and ERRCODE are the same or have been written where their rules say so (R24 to R32). -/
structure FlagsWritten (s t : State) : Prop where
  busy : FlagWritten s.status.busy t.status.busy (AcceptsNext s) (Completes s)
  done : FlagWritten s.status.done t.status.done (Completes s ∨ RejectsNext s) (AcceptsNext s ∨ AcksNext s)
  err : FlagWritten s.status.err t.status.err (Raises s ∨ RejectsNext s) (AcksNext s)
  errcode : t.errcode = s.errcode ∨ Raises s ∨ RejectsNext s ∨ AcksNext s
  ovr : FlagWritten s.status.ovr t.status.ovr (OverrunsNext s) (AcksNext s)
  inwait : FlagWritten s.status.inwait t.status.inwait (RunsStream s)
    ((∃ b, s.agenda.head? = some (.host (.push b))) ∨ s.agenda.head? = some (.host .close))

/-- From `s` to `t` each register is the same or has been written by one of its own writers. -/
structure Written (s t : State) : Prop where
  tables : TablesWritten s t
  port : PortWritten s t
  flags : FlagsWritten s t

theorem TablesWritten.of_tables {s t : State} (h : Machine.tables t = Machine.tables s) : TablesWritten s t := by
  obtain ⟨htree, hcodes, hcounters, hpartial⟩ := same_of_tables h
  exact ⟨.inl htree, .inl hcodes, .inl hcounters, .inl hpartial⟩

theorem PortWritten.same {s t : State} (h1 : t.freq = s.freq) (h2 : t.len = s.len) (h3 : t.ie = s.ie) : PortWritten s t :=
  ⟨.inl h1, .inl h2, .inl h3⟩

theorem FlagsWritten.same {s t : State} (h1 : t.status = s.status) (h2 : t.errcode = s.errcode) : FlagsWritten s t :=
  ⟨.inl (by rw [h1]), .inl (by rw [h1]), .inl (by rw [h1]), .inl h2, .inl (by rw [h1]), .inl (by rw [h1])⟩

/-! ## The engine's turn -/

theorem runsStream_of_endsSession {s : State} {c : Instr} {p : Point} (he : s.engine = some (c, p)) (h : endsSession c = true) :
    RunsStream s := by
  cases c <;> simp only [endsSession, Bool.false_eq_true] at h
  · exact .inl ⟨p, he⟩
  · exact .inr (.inl ⟨p, he⟩)
  · exact .inr (.inr ⟨p, he⟩)

/-- R31: only a stream command waits at IN. -/
theorem endsSession_of_readsIn {c : Instr} {q : Point} {r : BitReader} (hf : placeFits c q = true) (hr : readsIn q r = true) :
    endsSession c = true := by
  cases q <;> simp only [readsIn, Bool.false_eq_true] at hr
  · obtain rfl : c = .compress := by simpa [placeFits] using hf
    rfl
  · obtain rfl | rfl : c = .expand ∨ c = .expandx := by simpa [placeFits] using hf
    · rfl
    · rfl

/-- R102, R213: a completion, with or without the raise before it. -/
theorem written_complete {s u : State} {c : Instr} (hc : Completes s) (hw : s.status.inwait = false)
    (htables : tables u = tables s) (hport : PortWritten s u) (hovr : u.status.ovr = s.status.ovr)
    (herr : FlagWritten s.status.err u.status.err (Raises s ∨ RejectsNext s) (AcksNext s))
    (hcode : u.errcode = s.errcode ∨ Raises s) : Written s (completeCommand c u) where
  tables := .of_tables (by simpa [tables] using htables)
  port := ⟨by simpa using hport.freq, by simpa using hport.len, by simpa using hport.ie⟩
  flags :=
    { busy := .inr (.inr ⟨by simp, hc⟩)
      done := .inr (.inl ⟨by simp, .inl hc⟩)
      err := by simpa using herr
      errcode := by simpa using hcode.imp_right .inl
      ovr := .inl (by simpa using hovr)
      inwait := .inl (by simp [hw]) }

/-- A pass of a body writes what its command may write, whatever the agenda. -/
theorem Goes.written {s t : State} {c : Instr} {p : Point} (he : s.engine = some (c, p)) (hfit : placeFits c p = true)
    (hw : s.status.inwait = false) (hie : t.ie = s.ie) (hlen : t.len = s.len) (hovr : t.status.ovr = s.status.ovr)
    {l : List Move} (g : Goes { s with agenda := l } c p t) : Written s t := by
  obtain ⟨q, u, rfl, ⟨hbusy, hdone, herr, hcode⟩, hB⟩ := g
  have B := hB hfit
  have runs {d : Instr} (hd : c = d) : Runs d s := ⟨p, hd ▸ he⟩
  exact
  { tables :=
    { tree := or_iff_not_imp_right.mpr fun hn => B.tree fun hd => hn (runs hd)
      codes := or_iff_not_imp_right.mpr fun hn => B.codes (fun hd => hn (.inl (runs hd))) fun hd => hn (.inr (runs hd))
      counters := or_iff_not_imp_right.mpr fun hn => B.counters (Bool.eq_false_of_not_eq_true fun hd =>
        hn (runsStream_of_endsSession he hd))
      partialWalk := or_iff_not_imp_right.mpr fun hn =>
        B.partialWalk (fun hd => hn (.inl (runs hd))) fun hd => hn (.inr (runs hd)) }
    port := ⟨or_iff_not_imp_right.mpr fun hn => B.freq fun hd => hn (.inl (runs hd)), .inl hlen, .inl hie⟩
    flags :=
    { busy := .inl hbusy
      done := .inl hdone
      err := .inl herr
      errcode := .inl hcode
      ovr := .inl hovr
      inwait := by
        rw [hw, goTo_status]
        dsimp only
        cases hh : heldAtIn q u.reader u.inPort with
        | false => exact .inl rfl
        | true =>
          simp only [heldAtIn, Bool.and_eq_true] at hh
          exact .inr (.inl ⟨rfl, runsStream_of_endsSession he (endsSession_of_readsIn B.fits hh.1.1)⟩) } }

/-- The engine's turn, whatever the agenda. -/
theorem LifecycleInv.written_turn {s : State} (hs : LifecycleInv s) (l : List Move) :
    Written s (Machine.engineTurn { s with agenda := l }) := by
  have hl : LifecycleInv { s with agenda := l } := hs.congr rfl rfl rfl rfl rfl rfl
  have hw {t : State} (ht : Machine.engineStep { s with agenda := l } = some t) : s.status.inwait = false :=
    Bool.eq_false_of_not_eq_true fun h => by simp [hl.held_of_inwait h] at ht
  obtain ⟨hie, hlen, hovr, -⟩ := engineTurn_frame { s with agenda := l }
  obtain ⟨-, h⟩ | ⟨hr, h⟩ | ⟨c, e, he, h⟩ := engineTurn_cases { s with agenda := l }
  · rw [h]
    exact ⟨.of_tables rfl, .same rfl rfl rfl, .same rfl rfl⟩
  · generalize Machine.engineTurn { s with agenda := l } = t at h hie hlen hovr
    cases engineStep_effect h with
    | raise c e he => exact absurd ⟨c, e, he⟩ hr
    | complete c he => exact written_complete (.inl ⟨c, he⟩) (hw h) rfl (.same rfl rfl rfl) rfl (.inl rfl) (.inl rfl)
    | body c p he _ g => exact g.written he (hs.fits_at he) (hw h) hie hlen hovr
  · rw [h]
    have hraise : Raises s := ⟨c, e, he⟩
    exact written_complete (.inr hraise) (hw (engineStep_raising he)) rfl (.same rfl rfl rfl) rfl
      (.inr (.inl ⟨rfl, .inl hraise⟩)) (.inr hraise)

/-! ## The host's moves -/

/-- A move of the host that writes none of these registers. -/
theorem written_same {s t : State} (h : tables t = tables s) (hst : t.status = s.status) (hec : t.errcode = s.errcode)
    (hport : t.freq = s.freq ∧ t.len = s.len ∧ t.ie = s.ie) : Written s t :=
  ⟨.of_tables h, .same hport.1 hport.2.1 hport.2.2, .same hst hec⟩

/-- R100, R104: an ignored write sets OVR. -/
theorem written_ignored {s : State} (h : OverrunsNext s) : Written s (ignoreWrite (popped s)) :=
  ⟨.of_tables rfl, .same rfl rfl rfl, ⟨.inl rfl, .inl rfl, .inl rfl, .inl rfl, .inr (.inl ⟨rfl, h⟩), .inl rfl⟩⟩

/-- R100: a CMD write at BUSY = 1 overruns. -/
theorem overrunsNext_of_cmd {s : State} {w : Word} (hb : s.status.busy = true) (hn : s.agenda.head? = some (cmdWrite w)) :
    OverrunsNext s := ⟨hb, _, w, hn, .inl rfl⟩

theorem written_hostWrite {s : State} {a : Addr} {v : Word} (hok : accessOk a 4 = true)
    (hn : s.agenda.head? = some (.host (.write a 4 v))) : Written s (hostWrite (decodeAddr a) v (popped s)) := by
  obtain ⟨haie, halen, hafreq⟩ := decodeAddr_writable hok
  obtain h | ⟨hr, h⟩ | ⟨hb, hr, h⟩ | ⟨hb, hr, h⟩ | ⟨hb, x, hr, h⟩ := hostWrite_cases (decodeAddr a) v (popped s)
  all_goals rw [h]
  · exact written_same rfl rfl rfl ⟨rfl, rfl, rfl⟩
  · obtain rfl := haie hr
    exact ⟨.of_tables rfl, ⟨.inl rfl, .inl rfl, .inr ⟨v, hn, rfl⟩⟩, .same rfl rfl⟩
  · exact written_ignored ⟨hb, a, v, hn, .inr (hr.imp halen fun ⟨x, hx⟩ => ⟨x, hafreq x hx⟩)⟩
  · obtain rfl := halen hr
    exact ⟨.of_tables rfl, ⟨.inl rfl, .inr ⟨hb, v, hn, rfl⟩, .inl rfl⟩, .same rfl rfl⟩
  · obtain rfl := hafreq x hr
    exact ⟨.of_tables rfl, ⟨.inr (.inr ⟨hb, x, v, hn, rfl⟩), .inl rfl, .inl rfl⟩, .same rfl rfl⟩

/-- A command written to CMD is accepted, or ignored (R100, R101). -/
theorem LifecycleInv.written_command {s : State} {c : Instr} (hs : LifecycleInv s) (hc : setsBusy c = true)
    (hn : s.agenda.head? = some (cmdWrite (encode c))) : Written s (Machine.offerCommand c (Machine.popped s)) := by
  obtain ⟨hb, h⟩ | ⟨hb, h⟩ := offerCommand_cases c (Machine.popped s) <;> rw [h]
  · exact written_ignored (overrunsNext_of_cmd hb hn)
  · have ha : AcceptsNext s := ⟨hb, c, hc, hn⟩
    exact
    { tables := .of_tables rfl
      port := .same rfl rfl rfl
      flags :=
      { busy := .inr (.inl ⟨rfl, ha⟩)
        done := .inr (.inr ⟨rfl, .inl ha⟩)
        err := .inl rfl
        errcode := .inl rfl
        ovr := .inl rfl
        inwait := .inl (hs.no_inwait_idle hb).symm } }

/-- ACK is run, or ignored (R100, R106). -/
theorem written_ack {s : State} (hn : s.agenda.head? = some (cmdWrite (encode .ack))) :
    Written s (if s.status.busy then ignoreWrite (popped s) else acknowledge (popped s)) := by
  split
  · exact written_ignored (overrunsNext_of_cmd ‹_› hn)
  · have ha : AcksNext s := ⟨hn, Bool.eq_false_of_not_eq_true ‹_›⟩
    exact
    { tables := .of_tables rfl
      port := .same rfl rfl rfl
      flags :=
      { busy := .inl rfl
        done := .inr (.inr ⟨rfl, .inr ha⟩)
        err := .inr (.inr ⟨rfl, ha⟩)
        errcode := .inr (.inr (.inr ha))
        ovr := .inr (.inr ⟨rfl, ha⟩)
        inwait := .inl rfl } }

/-- An illegal word is an error, or ignored (R100, R103). -/
theorem written_illegal {s : State} {w : Word} (hw : ∀ i, decode w ≠ .command i) (hn : s.agenda.head? = some (cmdWrite w)) :
    Written s (offerIllegal (popped s)) := by
  obtain ⟨hb, h⟩ | ⟨hb, h⟩ := offerIllegal_cases (popped s) <;> rw [h]
  · exact written_ignored (overrunsNext_of_cmd hb hn)
  · have hr : RejectsNext s := ⟨hb, w, hw, hn⟩
    exact
    { tables := .of_tables rfl
      port := .same rfl rfl rfl
      flags :=
      { busy := .inl rfl
        done := .inr (.inl ⟨rfl, .inr hr⟩)
        err := .inr (.inl ⟨rfl, .inr hr⟩)
        errcode := .inr (.inr (.inl hr))
        ovr := .inl rfl
        inwait := .inl rfl } }

/-! ## The step -/

theorem LifecycleInv.written {s t : State} (hs : LifecycleInv s) (h : StepEffect s t) (hr : ¬ResetsNext s) : Written s t := by
  cases h with
  | turn => exact hs.written_turn s.agenda
  | engine => exact hs.written_turn s.agenda.tail
  | took | accept | sinkMode | waited => exact written_same rfl rfl rfl ⟨rfl, rfl, rfl⟩
  | read a =>
    obtain ⟨l, d, h⟩ := hostRead_frame a (Machine.popped s)
    rw [h]
    exact written_same rfl rfl rfl ⟨rfl, rfl, rfl⟩
  | write a v hok _ hn => exact written_hostWrite hok hn
  | push b _ hn =>
    exact ⟨.of_tables rfl, .same rfl rfl rfl,
      ⟨.inl rfl, .inl rfl, .inl rfl, .inl rfl, .inl rfl, .inr (.inr ⟨rfl, .inl ⟨b, hn⟩⟩)⟩⟩
  | close hn =>
    exact ⟨.of_tables rfl, .same rfl rfl rfl,
      ⟨.inl rfl, .inl rfl, .inl rfl, .inl rfl, .inl rfl, .inr (.inr ⟨rfl, .inr hn⟩)⟩⟩
  | reset h => exact absurd h hr
  | command c hc hn => exact hs.written_command hc hn
  | ack hn => exact written_ack hn
  | illegal w hw hn => exact written_illegal hw hn

/-- Settles O24: each effect of a step writes a register only as one of its writers does. -/
theorem everyRegisterHasItsWriters : Obligations.EveryRegisterHasItsWriters := by
  unfold Obligations.EveryRegisterHasItsWriters
  intro s t hs h hr
  obtain ⟨htables, hport, hflags⟩ := hs.written (step_effect h) hr
  refine ⟨fun hne => htables.tree.resolve_left fun hsame => ?_, fun hne => htables.codes.resolve_left fun hsame => ?_,
    fun hne => htables.counters.resolve_left fun hsame => ?_, htables.partialWalk.resolve_left,
    hport.freq.resolve_left, hport.len.resolve_left, hport.ie.resolve_left, hflags.busy.rises, hflags.busy.falls,
    hflags.done.rises, hflags.done.falls, hflags.err.rises, hflags.err.falls, hflags.errcode.resolve_left, hflags.ovr.rises,
    hflags.ovr.falls, hflags.inwait.rises, hflags.inwait.falls⟩
  · obtain ⟨h1, h2, h3, h4, h5, h6⟩ := hsame
    simp [h1, h2, h3, h4, h5, h6] at hne
  · obtain ⟨h1, h2⟩ := hsame
    simp [h1, h2] at hne
  · obtain ⟨h1, h2⟩ := hsame
    simp [h1, h2] at hne

/-! ## Errors and overruns stay -/

/-- R214: the first error wins, whatever the engine does next. -/
theorem engineTurn_keeps_err {s : State} (h : s.status.err = true) :
    (engineTurn s).status.err = true ∧ (engineTurn s).errcode = s.errcode :=
  engineTurn_keeps (P := fun u => u.status.err = true ∧ u.errcode = s.errcode)
    (fun u v ⟨hu, huc⟩ hv => by
      cases engineStep_effect hv with
      | raise c e => simp [hu, huc]
      | complete c => simp [hu, huc]
      | body c p _ _ g =>
        obtain ⟨q, w, rfl, ⟨-, -, herr, hcode⟩, -⟩ := g
        simp [herr, hcode, hu, huc]) s ⟨h, rfl⟩

/-- Settles O23: a raise keeps the first code, and only ACK at BUSY = 0 and a reset clear ERR, ERRCODE or OVR. -/
theorem errorsAndOverrunsAreSticky : Obligations.ErrorsAndOverrunsAreSticky := by
  unfold Obligations.ErrorsAndOverrunsAreSticky
  intro s t h hr ha
  cases step_effect h with
  | turn => exact ⟨engineTurn_keeps_err, fun ho => by rw [(engineTurn_frame s).2.2.1, ho]⟩
  | engine => exact ⟨engineTurn_keeps_err (s := popped s), fun ho => by rw [(engineTurn_frame (popped s)).2.2.1]; exact ho⟩
  | took | accept | push | close | sinkMode | waited => exact ⟨fun he => ⟨he, rfl⟩, id⟩
  | read a =>
    obtain ⟨l, d, hf⟩ := hostRead_frame a (popped s)
    rw [hf]
    exact ⟨fun he => ⟨he, rfl⟩, id⟩
  | write a v hok hc hn =>
    obtain hw | ⟨-, hw⟩ | ⟨-, -, hw⟩ | ⟨-, -, hw⟩ | ⟨-, x, -, hw⟩ := hostWrite_cases (decodeAddr a) v (popped s)
    all_goals rw [hw]
    case inr.inr.inl => exact ⟨fun he => ⟨he, rfl⟩, fun _ => rfl⟩
    all_goals exact ⟨fun he => ⟨he, rfl⟩, id⟩
  | reset hreset => exact absurd hreset hr
  | command c =>
    obtain ⟨-, hc⟩ | ⟨-, hc⟩ := offerCommand_cases c (popped s) <;> rw [hc]
    · exact ⟨fun he => ⟨he, rfl⟩, fun _ => rfl⟩
    · exact ⟨fun he => ⟨he, rfl⟩, id⟩
  | ack hn =>
    split
    · exact ⟨fun he => ⟨he, rfl⟩, fun _ => rfl⟩
    · exact absurd ⟨hn, Bool.eq_false_of_not_eq_true ‹_›⟩ ha
  | illegal =>
    obtain ⟨-, hi⟩ | ⟨-, hi⟩ := offerIllegal_cases (popped s) <;> rw [hi]
    · exact ⟨fun he => ⟨he, rfl⟩, fun _ => rfl⟩
    · exact ⟨fun he => ⟨rfl, by simp [popped, he]⟩, id⟩

end Sys2Proof.Machine
end

