-- ==== Sys2Proof/Proofs/Layout.lean ====
section
/-! PROOF. A step runs the command word it fetches (O4), and the words of the register port (O30, O54, O55). -/

namespace Sys2Proof.Machine

/-! ## A command's write -/

/-- R22, R101: the host's write of a command's word to CMD runs the command. -/
theorem step_cmdWrite {s : State} {w : Word} {i : Instr} {rest : List Move} (ha : s.agenda = cmdWrite w :: rest)
    (hd : decode w = .command i) : step s = exec i { s with agenda := rest } := by
  have hturn : turn s = .issue w { s with agenda := rest } := by
    simp only [turn, ha, cmdWrite, hostTurn]
    rfl
  simp only [step, hturn, hd]

/-- The word a 32-bit row of the command table stands for. -/
theorem decode_of_decodeTableWord {w : Nat} {i : Instr} (h : decodeTableWord 32 w = some i) :
    decode (BitVec.ofNat 32 (w % 2 ^ 32)) = .command i := by
  unfold decodeTableWord at h
  rw [if_pos le_rfl] at h
  split at h <;> simp_all

/-- Settles O4: the write is issued as a command word, which decodes to the command. -/
theorem stepRunsTheDecodedCommand : Obligations.StepRunsTheDecodedCommand := by
  unfold Obligations.StepRunsTheDecodedCommand
  exact ⟨fun _ _ _ _ ha hd => step_cmdWrite ha hd, fun _ _ _ h => step_cmdWrite rfl (decode_of_decodeTableWord h)⟩

/-! ## STATUS, IE and ERRCODE (R23, R32, R33) -/

/-- A flag appended below a word is its bit 0. -/
theorem getLsbD_append_ofBool {n : Nat} (x : BitVec n) (b : Bool) (i : Nat) :
    (x ++ BitVec.ofBool b).getLsbD i = if i = 0 then b else x.getLsbD (i - 1) := by
  rw [BitVec.getLsbD_append]
  cases i with
  | zero => simp
  | succ i => simp

/-- The flags of STATUS stand from bit 0 up, and nothing above them (R23). -/
theorem statusWord_getLsbD (st : Status) (i : Nat) : (statusWord st).getLsbD i
    = [st.busy, st.done, st.err, st.ovr, st.tv, st.cv, st.partialWalk, st.inwait].getD i false := by
  refine (getLsbD_append_ofBool _ st.busy i).trans ?_
  simp only [getLsbD_append_ofBool]
  match i with
  | 0 | 1 | 2 | 3 | 4 | 5 | 6 | 7 => rfl
  | i + 8 => simp

/-- The two bits of IE stand from bit 0 up (R33). -/
theorem ieWord_getLsbD (ie : IrqEnable) (i : Nat) : (ieWord ie).getLsbD i = [ie.doneIe, ie.errIe].getD i false := by
  refine (getLsbD_append_ofBool _ ie.doneIe i).trans ?_
  simp only [getLsbD_append_ofBool]
  match i with
  | 0 | 1 => rfl
  | i + 2 => simp

/-- A word with the bits of a list holds a number of that many bits. -/
theorem toNat_lt_of_getLsbD {w : Word} {l : List Bool} (h : ∀ i, w.getLsbD i = l.getD i false) : w.toNat < 2 ^ l.length := by
  refine Nat.lt_pow_two_of_testBit _ fun i hi => ?_
  rw [BitVec.testBit_toNat, h, List.getD_eq_default _ _ hi]

/-- Settles O30: the bits of STATUS and IE one by one, and ERRCODE error by error. -/
theorem statusErrcodeAndIeWords : Obligations.StatusErrcodeAndIeWords := by
  unfold Obligations.StatusErrcodeAndIeWords
  intro s
  refine ⟨statusWord_getLsbD _ 0, statusWord_getLsbD _ 1, statusWord_getLsbD _ 2, statusWord_getLsbD _ 3, statusWord_getLsbD _ 4,
    statusWord_getLsbD _ 5, statusWord_getLsbD _ 6, statusWord_getLsbD _ 7, toNat_lt_of_getLsbD (statusWord_getLsbD s.status),
    ieWord_getLsbD _ 0, ieWord_getLsbD _ 1, toNat_lt_of_getLsbD (ieWord_getLsbD s.ie), ?_⟩
  simp only [portValue]
  cases s.errcode <;> rfl

/-! ## Registers of one value (R20) -/

/-- Settles O54: each word of the layout is the register itself or its number. -/
theorem registersReadTheirValues : Obligations.RegistersReadTheirValues := by
  unfold Obligations.RegistersReadTheirValues
  intro s
  refine ⟨rfl, rfl, rfl, rfl, rfl, ?_, ?_, ?_, fun _ => rfl⟩
  · exact BitVec.toNat_setWidth_of_le (by decide)
  · exact BitVec.toNat_setWidth_of_le (by decide)
  · exact BitVec.toNat_setWidth_of_le (by decide)

/-! ## The windows (R42, R45) -/

/-- The bits of four fields in a row. -/
theorem getLsbD_append₄ {a b c d : Nat} (w : BitVec a) (x : BitVec b) (y : BitVec c) (z : BitVec d) (i : Nat) :
    (w ++ x ++ y ++ z).getLsbD i = if i < d then z.getLsbD i else if i - d < c then y.getLsbD (i - d)
      else if i - d - c < b then x.getLsbD (i - d - c) else w.getLsbD (i - d - c - b) := by
  simp only [BitVec.getLsbD_append]

/-- Word 0 of a node: SYM, zeros, VALID and KIND, from bit 0 up. -/
theorem nodeWord_zero_getLsbD (s : State) {n : NodeIdx} (hn : n ≠ 511#9) (i : Nat) :
    (portValue s (.node n 0#2)).getLsbD i = if i < 8 then (nodeAt s.node n).sym.getLsbD i else if i - 8 < 22 then false
      else if i - 8 - 22 < 1 then (BitVec.ofBool (decide (n.toNat < s.nnode.toNat))).getLsbD (i - 8 - 22)
      else (BitVec.ofBool (decide ((nodeAt s.node n).kind = .internal))).getLsbD (i - 8 - 22 - 1) := by
  simp only [portValue, nodeWord, if_neg hn]
  refine (getLsbD_append₄ _ _ _ _ i).trans ?_
  simp

/-- Word 3 of a node: LEFT, zeros, RIGHT and zeros, from bit 0 up. -/
theorem nodeWord_three_getLsbD (s : State) {n : NodeIdx} (hn : n ≠ 511#9) (i : Nat) :
    (portValue s (.node n 3#2)).getLsbD i = if i < 9 then (nodeAt s.node n).left.getLsbD i else if i - 9 < 7 then false
      else if i - 9 - 7 < 9 then (nodeAt s.node n).right.getLsbD (i - 9 - 7) else false := by
  simp only [portValue, nodeWord, if_neg hn]
  refine (getLsbD_append₄ _ _ _ _ i).trans ?_
  simp

/-- Settles O55: each field of the windows' words, bit by bit. -/
theorem windowWordsHoldTheirFields : Obligations.WindowWordsHoldTheirFields := by
  unfold Obligations.WindowWordsHoldTheirFields
  intro s
  refine ⟨fun n hn => ⟨?_, ?_, ?_, ?_, ?_, ?_, ?_, ?_⟩, fun w => by simp [portValue, nodeWord], fun x => ⟨?_, fun w hw => ?_⟩⟩
  · rw [nodeWord_zero_getLsbD s hn]
    simp
  · rw [nodeWord_zero_getLsbD s hn]
    simp
  · refine BitVec.eq_of_getLsbD_eq fun i hi => ?_
    rw [BitVec.getLsbD_extractLsb', nodeWord_zero_getLsbD s hn]
    simp [hi]
  · refine BitVec.eq_of_getLsbD_eq fun i hi => ?_
    rw [BitVec.getLsbD_extractLsb', nodeWord_zero_getLsbD s hn]
    simp [hi]
  · refine BitVec.eq_of_getLsbD_eq fun i hi => ?_
    rw [BitVec.getLsbD_extractLsb', nodeWord_three_getLsbD s hn]
    simp [hi]
  · refine BitVec.eq_of_getLsbD_eq fun i hi => ?_
    rw [BitVec.getLsbD_extractLsb', nodeWord_three_getLsbD s hn]
    simp [hi]
  · refine BitVec.eq_of_getLsbD_eq fun i hi => ?_
    rw [BitVec.getLsbD_extractLsb', nodeWord_three_getLsbD s hn]
    simp [hi, show ¬16 + i < 9 by omega, show 16 + i - 9 - 7 = i by omega, show ¬16 + i - 9 < 7 by omega]
  · refine BitVec.eq_of_getLsbD_eq fun i hi => ?_
    rw [BitVec.getLsbD_extractLsb', nodeWord_three_getLsbD s hn]
    simp [hi, show ¬25 + i < 9 by omega, show ¬25 + i - 9 < 7 by omega, show ¬25 + i - 9 - 7 < 9 by omega]
  · simp only [portValue, codeWord]
    exact (BitVec.toNat_append (0#24) (codeAt s.code x).clen).trans (by simp)
  · simp only [portValue, codeWord]
    rw [if_neg (by omega), if_neg (by omega)]

end Sys2Proof.Machine
end

