-- ==== Sys2Proof/Proofs/Port.lean ====
section
/-! PROOF. The register port: which accesses are refused (O5), the address map (O26), reads (O28) and wide values (O29). -/

namespace Sys2Proof.Machine

/-! ## The next move, refused or not (R61) -/

/-- The next move is an access that is not a whole aligned word (R61). -/
def BadAccessNext (s : State) : Prop :=
  ∃ (a : Addr) (n : Nat) (rest : List Move), ¬(a.toNat % 4 = 0 ∧ n = 4)
    ∧ (s.agenda = .host (.read a n) :: rest ∨ ∃ v, s.agenda = .host (.write a n v) :: rest)

theorem accessOk_iff (a : Addr) (n : Nat) : accessOk a n = true ↔ a.toNat % 4 = 0 ∧ n = 4 := by
  simp [accessOk]

/-- Every command answers a next state: no arm of `exec` stops (R214). -/
theorem exec_next (i : Instr) (s : State) : ∃ t, exec i s = .next t := by
  cases i <;> exact ⟨_, rfl⟩

/-- A command word written to CMD is run or rejected, never refused. -/
theorem step_of_issue {s u : State} {w : Word} (h : turn s = .issue w u) : ∃ t, step s = .next t := by
  unfold step
  rw [h]
  dsimp only
  split
  · exact exec_next _ u
  · exact ⟨_, rfl⟩
  · exact ⟨_, rfl⟩

theorem step_of_settled {s : State} {o : Host.Outcome State Fault Refusal} (h : turn s = .settled o) : step s = o := by
  simp [step, h]

theorem turn_host {s : State} {a : HostAct} {rest : List Move} (h : s.agenda = .host a :: rest) :
    turn s = hostTurn a { s with agenda := rest } s := by
  simp [turn, h]

/-- R61: an access that is not a whole aligned word is refused. -/
theorem step_of_badAccessNext {s : State} (h : BadAccessNext s) : step s = .refused .portAccess := by
  obtain ⟨a, n, rest, hbad, hn⟩ := h
  have hacc : ¬accessOk a n = true := by rwa [accessOk_iff]
  obtain ha | ⟨v, ha⟩ := hn
  · exact step_of_settled (by rw [turn_host ha, hostTurn, if_neg hacc])
  · exact step_of_settled (by rw [turn_host ha, hostTurn, if_neg hacc])

/-- What a host's action gives when it is no bad access: a command word, or a next state. -/
theorem step_host_next {s : State} {a : HostAct} {rest : List Move} (h : s.agenda = .host a :: rest) (hok : ¬BadAccessNext s) :
    ∃ t, step s = .next t := by
  have ht := turn_host h
  cases a with
  | read addr n =>
    have hacc : accessOk addr n = true := (accessOk_iff _ _).mpr (by_contra fun hbad => hok ⟨addr, n, rest, hbad, .inl h⟩)
    exact ⟨_, step_of_settled (by rw [ht, hostTurn, if_pos hacc])⟩
  | write addr n v =>
    have hacc : accessOk addr n = true := (accessOk_iff _ _).mpr (by_contra fun hbad => hok ⟨addr, n, rest, hbad, .inr ⟨v, h⟩⟩)
    rw [hostTurn, if_pos hacc] at ht
    split at ht
    · exact step_of_issue ht
    · exact ⟨_, step_of_settled ht⟩
  | accept =>
    simp only [hostTurn] at ht
    split at ht
    · exact ⟨_, step_of_settled ht⟩
    · exact ⟨_, step_of_settled ht⟩
  | push | close | sinkMode | hardReset | waitIdle | waitIrq => exact ⟨_, step_of_settled ht⟩

/-- Every step that is no bad access answers a next state (log 18). -/
theorem step_next {s : State} (hok : ¬BadAccessNext s) : ∃ t, step s = .next t := by
  match h : s.agenda with
  | [] => exact ⟨_, step_of_settled (by simp only [turn, h]; rfl)⟩
  | .engine :: rest => exact ⟨_, step_of_settled (by simp only [turn, h]; rfl)⟩
  | .host a :: rest => exact step_host_next h hok

/-- Settles O5: a bad access is refused, and every other move, a command word among them, answers a next state. -/
theorem onlyBadAccessesAreRefused : Obligations.OnlyBadAccessesAreRefused := by
  unfold Obligations.OnlyBadAccessesAreRefused
  intro s
  refine ⟨⟨fun h => ?_, step_of_badAccessNext⟩, fun h => step_next fun hbad => h (step_of_badAccessNext hbad)⟩
  by_contra hok
  obtain ⟨t, ht⟩ := step_next hok
  simp [ht] at h

/-! ## The address map (R62) -/

theorem toNat_freqAddr (x : Sym) : (Program.freqAddr x).toNat = 0x0400 + 4 * x.toNat := by
  rw [Program.freqAddr, BitVec.toNat_ofNat]
  omega

theorem toNat_nodeAddr (n : NodeIdx) (w : BitVec 2) : (Program.nodeAddr n w).toNat = 0x1000 + 16 * n.toNat + 4 * w.toNat := by
  rw [Program.nodeAddr, BitVec.toNat_ofNat]
  omega

theorem toNat_codeAddr (x : Sym) (w : BitVec 4) : (Program.codeAddr x w).toNat = 0x4000 + 64 * x.toNat + 4 * w.toNat := by
  rw [Program.codeAddr, BitVec.toNat_ofNat]
  omega

/-- A number that is `x`'s is read back as `x`. -/
theorem ofNat_of_eq_toNat {k n : Nat} {x : BitVec k} (h : n = x.toNat) : BitVec.ofNat k n = x := by
  rw [h, BitVec.ofNat_toNat, BitVec.setWidth_eq]

@[simp] theorem decodeAddr_freqAddr (x : Sym) : decodeAddr (Program.freqAddr x) = .freq x := by
  simp only [decodeAddr, toNat_freqAddr]
  rw [if_neg (by omega), if_pos (by omega), ofNat_of_eq_toNat (x := x) (by omega)]

@[simp] theorem decodeAddr_nodeAddr (n : NodeIdx) (w : BitVec 2) : decodeAddr (Program.nodeAddr n w) = .node n w := by
  simp only [decodeAddr, toNat_nodeAddr]
  rw [if_neg (by omega), if_neg (by omega), if_neg (by omega), if_pos (by omega), ofNat_of_eq_toNat (x := n) (by omega),
    ofNat_of_eq_toNat (x := w) (by omega)]

@[simp] theorem decodeAddr_codeAddr (x : Sym) (w : BitVec 4) : decodeAddr (Program.codeAddr x w) = .code x w := by
  simp only [decodeAddr, toNat_codeAddr]
  rw [if_neg (by omega), if_neg (by omega), if_neg (by omega), if_neg (by omega), if_neg (by omega), if_pos (by omega),
    ofNat_of_eq_toNat (x := x) (by omega), ofNat_of_eq_toNat (x := w) (by omega)]

/-- R20: the control registers are words 0 to 11. -/
theorem controlReg_reserved_iff (k : Nat) : controlReg k = .reserved ↔ 12 ≤ k := by
  match k with
  | 0 | 1 | 2 | 3 | 4 | 5 | 6 | 7 | 8 | 9 | 10 | 11 => simp [controlReg]
  | k + 12 => simp [controlReg]

theorem decodeAddr_reserved_iff (a : Addr) : decodeAddr a = .reserved ↔
    (0x0030 ≤ a.toNat ∧ a.toNat < 0x0400) ∨ (0x0800 ≤ a.toNat ∧ a.toNat < 0x1000) ∨ (0x3000 ≤ a.toNat ∧ a.toNat < 0x4000)
      ∨ 0x8000 ≤ a.toNat := by
  unfold decodeAddr
  dsimp only
  split
  · rw [controlReg_reserved_iff]
    omega
  · repeat' split
    all_goals
      simp only [reduceCtorEq, false_iff, true_iff]
      omega

/-- Settles O26: the control registers one by one, the tables by their address formulas, and what is left is reserved. -/
theorem addressMapIsAsSpecified : Obligations.AddressMapIsAsSpecified := by
  unfold Obligations.AddressMapIsAsSpecified
  exact ⟨⟨rfl, rfl, rfl, rfl, rfl, rfl, rfl, rfl, rfl, rfl, rfl, rfl⟩, fun x => ⟨decodeAddr_freqAddr x, toNat_freqAddr x⟩,
    fun n w => ⟨decodeAddr_nodeAddr n w, toNat_nodeAddr n w⟩, fun x w => ⟨decodeAddr_codeAddr x w, toNat_codeAddr x w⟩,
    decodeAddr_reserved_iff⟩

/-! ## Wide values (R66) -/

theorem portValue_node_one (s : State) {n : NodeIdx} (hn : n ≠ 511#9) :
    portValue s (.node n 1#2) = (nodeAt s.node n).frq.extractLsb' 0 32 := by
  simp [portValue, nodeWord, hn]

theorem portValue_node_two (s : State) {n : NodeIdx} (hn : n ≠ 511#9) :
    portValue s (.node n 2#2) = 0#24 ++ (nodeAt s.node n).frq.extractLsb' 32 8 := by
  simp [portValue, nodeWord, hn]

/-- R45: words 1 to 8 of a CODE entry are the 32-bit words of CWORD, from the lowest up. -/
theorem portValue_code (s : State) (x : Sym) {w : BitVec 4} (h1 : 1 ≤ w.toNat) (h8 : w.toNat ≤ 8) :
    portValue s (.code x w) = (codeAt s.code x).cword.extractLsb' (32 * (w.toNat - 1)) 32 := by
  simp only [portValue, codeWord]
  rw [if_neg (by omega), if_pos h8]

/-- A part of a value with the word below it. -/
theorem extractLsb'_append_word (v : CodeVal) (i n : Nat) :
    v.extractLsb' (i + 32) n ++ v.extractLsb' i 32 = v.extractLsb' i (n + 32) :=
  BitVec.extractLsb'_append_extractLsb'_eq_extractLsb' rfl

/-- CWORD is its eight words, the most significant first. -/
theorem extractLsb'_append_words (v : CodeVal) :
    v.extractLsb' 224 32 ++ v.extractLsb' 192 32 ++ v.extractLsb' 160 32 ++ v.extractLsb' 128 32 ++ v.extractLsb' 96 32
      ++ v.extractLsb' 64 32 ++ v.extractLsb' 32 32 ++ v.extractLsb' 0 32 = v := by
  rw [extractLsb'_append_word v 192, extractLsb'_append_word v 160, extractLsb'_append_word v 128,
    extractLsb'_append_word v 96, extractLsb'_append_word v 64, extractLsb'_append_word v 32, extractLsb'_append_word v 0]
  exact BitVec.extractLsb'_eq_self

/-- Settles O29: the words are adjacent pieces of the value, the lowest at the lowest address. -/
theorem wideValuesReadLowWordFirst : Obligations.WideValuesReadLowWordFirst := by
  unfold Obligations.WideValuesReadLowWordFirst
  intro s
  refine ⟨?_, fun n hn => ?_, fun x => ?_⟩
  · exact (BitVec.extractLsb'_append_extractLsb'_eq_extractLsb' rfl).trans BitVec.extractLsb'_eq_self
  · simp only [decodeAddr_nodeAddr, portValue_node_one s hn, portValue_node_two s hn]
    constructor
    · rw [BitVec.extractLsb'_append_eq_right]
      exact (BitVec.extractLsb'_append_extractLsb'_eq_extractLsb' rfl).trans BitVec.extractLsb'_eq_self
    · rw [BitVec.toNat_append]
      simpa using BitVec.isLt (BitVec.extractLsb' 32 8 (nodeAt s.node n).frq)
  · simp only [decodeAddr_codeAddr]
    repeat rw [portValue_code s x (by decide) (by decide)]
    exact extractLsb'_append_words _

/-! ## Reads (R65, R111, R251) -/

/-- The step of a whole aligned read. -/
theorem step_read {s : State} {a : Addr} {rest : List Move} (h : s.agenda = .host (.read a 4) :: rest) (hal : a.toNat % 4 = 0) :
    step s = .next (hostRead a { s with agenda := rest }) := by
  have hok : accessOk a 4 = true := (accessOk_iff a 4).mpr ⟨hal, rfl⟩
  exact step_of_settled (by rw [turn_host h, hostTurn, if_pos hok])

/-- R111: a read that is not free gives the word of the layout. -/
theorem hostRead_exact {s : State} {a : Addr} (h : s.status.busy = false ∨ exactWhileBusy (decodeAddr a) = true) :
    hostRead a s = { s with readLog := s.readLog ++ [(a, portValue s (decodeAddr a))] } := by
  unfold hostRead
  rw [if_neg (by obtain h | h := h <;> simp [h])]

/-- R65: the host gets one value, and nothing in the block changes. -/
theorem hostRead_logs_one (a : Addr) (s : State) :
    ∃ v d, hostRead a s = { s with readLog := s.readLog ++ [(a, v)], draws := d } := by
  unfold hostRead
  split
  · exact ⟨_, _, rfl⟩
  · exact ⟨_, s.draws, rfl⟩

/-- R111: the word a read gives does not depend on the host's plans. -/
theorem portValue_agenda (s : State) (l : List Move) (r : PortReg) : portValue { s with agenda := l } r = portValue s r := by
  cases r <;> rfl

/-- R251, R63: ID, STATUS, ERRCODE, IE and the reserved addresses read exactly while BUSY = 1. -/
theorem exactWhileBusy_decodeAddr {a : Addr}
    (h : a = 0x0000#16 ∨ a = 0x0008#16 ∨ a = 0x000C#16 ∨ a = 0x0010#16 ∨ decodeAddr a = .reserved) :
    exactWhileBusy (decodeAddr a) = true := by
  obtain rfl | rfl | rfl | rfl | h := h
  · rfl
  · rfl
  · rfl
  · rfl
  · rw [h]
    rfl

/-- Settles O28: the read is logged, with the layout's word where R251 leaves it not free. -/
theorem readsChangeNothing : Obligations.ReadsChangeNothing := by
  unfold Obligations.ReadsChangeNothing
  intro s a rest ha hal
  rw [step_read ha hal]
  refine ⟨fun h => ?_, ?_⟩
  · rw [hostRead_exact (s := { s with agenda := rest }) (h.imp_right exactWhileBusy_decodeAddr), portValue_agenda]
  · obtain ⟨v, d, h⟩ := hostRead_logs_one a { s with agenda := rest }
    exact ⟨v, d, by rw [h]⟩

end Sys2Proof.Machine
end

