-- ==== Sys2Proof/Proofs/Observation.lean ====
section
/-! PROOF. What was observed influences nothing else (O6): each operation takes states that differ only there to states that differ
only there. -/

namespace Sys2Proof.Machine

/-! ## States that differ in what was observed -/

/-- `t` is `s` but for the host's read log, the events the observer took and the counter of draws. -/
def Twin (s t : State) : Prop := ∃ l e d, t = { s with readLog := l, traceSeen := e, draws := d }

section
variable {s t : State}

/-- An operation that commutes with a change of what was observed takes twins to twins. -/
theorem Twin.map (f : State → State)
    (hf : ∀ l e d, f { s with readLog := l, traceSeen := e, draws := d } = { f s with readLog := l, traceSeen := e, draws := d })
    (h : Twin s t) : Twin (f s) (f t) := by
  obtain ⟨l, e, d, rfl⟩ := h
  exact ⟨l, e, d, hf l e d⟩

/-- The engine stands at the same place. -/
theorem Twin.engine (h : Twin s t) : t.engine = s.engine := by
  obtain ⟨l, e, d, rfl⟩ := h
  rfl

/-! ## The passes of the bodies -/

theorem Twin.buildStart (h : Twin s t) : Twin (buildStart s) (buildStart t) := by
  obtain ⟨l, e, d, rfl⟩ := h
  unfold Machine.buildStart
  dsimp only
  split <;> exact ⟨l, e, d, rfl⟩

/-- R83: whether the observer takes the event, and the counter of draws, stay beside the merge. -/
theorem Twin.mergeStep (h : Twin s t) : Twin (mergeStep s) (mergeStep t) := by
  obtain ⟨l, e, d, rfl⟩ := h
  exact ⟨_, _, _, rfl⟩

theorem Twin.buildLoop (c : Instr) (h : Twin s t) : Twin (buildLoop c s) (buildLoop c t) := by
  have hm := h.mergeStep
  obtain ⟨l, e, d, rfl⟩ := h
  unfold Machine.buildLoop
  dsimp only
  split
  · exact hm.map (goTo c .buildLoop) fun _ _ _ => rfl
  · exact ⟨l, e, d, rfl⟩

theorem Twin.deriveStart (h : Twin s t) : Twin (deriveStart s) (deriveStart t) := by
  obtain ⟨l, e, d, rfl⟩ := h
  unfold Machine.deriveStart
  dsimp only
  split
  · split <;> exact ⟨l, e, d, rfl⟩
  · exact ⟨l, e, d, rfl⟩

theorem Twin.nextVisit (c : Instr) (h : Twin s t) : Twin (nextVisit c s) (nextVisit c t) := by
  obtain ⟨l, e, d, rfl⟩ := h
  unfold Machine.nextVisit
  dsimp only
  split <;> exact ⟨l, e, d, rfl⟩

theorem Twin.deriveVisit (c : Instr) (v : Visit) (h : Twin s t) : Twin (deriveVisit c v s) (deriveVisit c v t) := by
  obtain ⟨l, e, d, rfl⟩ := h
  unfold Machine.deriveVisit
  dsimp only
  split
  · exact Twin.nextVisit c ⟨l, e, d, rfl⟩
  · exact ⟨l, e, d, rfl⟩

theorem Twin.compressStart (h : Twin s t) : Twin (compressStart s) (compressStart t) := by
  obtain ⟨l, e, d, rfl⟩ := h
  unfold Machine.compressStart
  dsimp only
  split <;> exact ⟨l, e, d, rfl⟩

theorem Twin.bitPacked (c : Instr) (b : Byte) (i : BitVec 8) (h : Twin s t) : Twin (bitPacked c b i s) (bitPacked c b i t) := by
  obtain ⟨l, e, d, rfl⟩ := h
  unfold Machine.bitPacked
  dsimp only
  split <;> exact ⟨l, e, d, rfl⟩

theorem Twin.compressPack (c : Instr) (b : Byte) (i : BitVec 8) (h : Twin s t) :
    Twin (compressPack c b i s) (compressPack c b i t) := by
  obtain ⟨l, e, d, rfl⟩ := h
  unfold Machine.compressPack
  dsimp only
  split
  · exact ⟨l, e, d, rfl⟩
  · exact Twin.bitPacked c b i ⟨l, e, d, rfl⟩

theorem Twin.compressFlush (c : Instr) (h : Twin s t) : Twin (compressFlush c s) (compressFlush c t) := by
  obtain ⟨l, e, d, rfl⟩ := h
  unfold Machine.compressFlush
  dsimp only
  split <;> exact ⟨l, e, d, rfl⟩

theorem Twin.walkStart (c : Instr) (h : Twin s t) : Twin (walkStart c s) (walkStart c t) := by
  obtain ⟨l, e, d, rfl⟩ := h
  unfold Machine.walkStart
  dsimp only
  split <;> exact ⟨l, e, d, rfl⟩

theorem Twin.walkTop (c : Instr) (h : Twin s t) : Twin (walkTop c s) (walkTop c t) := by
  obtain ⟨l, e, d, rfl⟩ := h
  unfold Machine.walkTop
  dsimp only
  split
  · exact ⟨l, e, d, rfl⟩
  · split <;> exact ⟨l, e, d, rfl⟩

theorem Twin.walkExhausted (c : Instr) (h : Twin s t) : Twin (walkExhausted c s) (walkExhausted c t) := by
  obtain ⟨l, e, d, rfl⟩ := h
  unfold Machine.walkExhausted
  split <;> exact ⟨l, e, d, rfl⟩

theorem Twin.takeBit (c : Instr) (r : BitReader) (h : Twin s t) : Twin (takeBit c r s) (takeBit c r t) := by
  obtain ⟨l, e, d, rfl⟩ := h
  unfold Machine.takeBit Machine.walkBit
  dsimp only
  split
  · split <;> exact ⟨l, e, d, rfl⟩
  · exact ⟨l, e, d, rfl⟩

theorem Twin.startBody (c : Instr) (h : Twin s t) : Twin (startBody c s) (startBody c t) := by
  cases c with
  | nop | srst | ack | fclr => exact h.map (Machine.startBody _) fun _ _ _ => rfl
  | build => exact h.buildStart
  | derive => exact h.deriveStart
  | compress => exact h.compressStart
  | expand | expandx => exact h.walkStart _

/-! ## The engine -/

theorem Twin.compressRead (c : Instr) (h : Twin s t) : Option.Rel Twin (compressRead c s) (compressRead c t) := by
  obtain ⟨l, e, d, rfl⟩ := h
  unfold Machine.compressRead
  dsimp only
  split
  · split
    · exact .some ⟨l, e, d, rfl⟩
    · exact .none
  · split <;> exact .some ⟨l, e, d, rfl⟩

theorem Twin.compressPackOut (c : Instr) (b : Byte) (i : BitVec 8) (h : Twin s t) :
    Option.Rel Twin (compressPackOut c b i s) (compressPackOut c b i t) := by
  obtain ⟨l, e, d, rfl⟩ := h
  unfold Machine.compressPackOut
  dsimp only
  split
  · exact .none
  · exact .some (Twin.bitPacked c b i ⟨l, e, d, rfl⟩)

theorem Twin.compressFlushOut (c : Instr) (h : Twin s t) : Option.Rel Twin (compressFlushOut c s) (compressFlushOut c t) := by
  obtain ⟨l, e, d, rfl⟩ := h
  unfold Machine.compressFlushOut
  dsimp only
  split
  · exact .none
  · exact .some ⟨l, e, d, rfl⟩

theorem Twin.walkRead (c : Instr) (h : Twin s t) : Option.Rel Twin (walkRead c s) (walkRead c t) := by
  obtain ⟨l, e, d, rfl⟩ := h
  unfold Machine.walkRead
  dsimp only
  split
  · split
    · split
      · exact .some (Twin.walkExhausted c ⟨l, e, d, rfl⟩)
      · exact .none
    · exact .some (Twin.takeBit c _ ⟨l, e, d, rfl⟩)
  · exact .some (Twin.takeBit c _ ⟨l, e, d, rfl⟩)

theorem Twin.walkOut (c : Instr) (h : Twin s t) : Option.Rel Twin (walkOut c s) (walkOut c t) := by
  obtain ⟨l, e, d, rfl⟩ := h
  unfold Machine.walkOut
  dsimp only
  split
  · exact .none
  · exact .some ⟨l, e, d, rfl⟩

theorem Twin.engineStep (h : Twin s t) : Option.Rel Twin (engineStep s) (engineStep t) := by
  match hs : s.engine with
  | none => rw [engineStep_idle hs, engineStep_idle (h.engine.trans hs)]; exact .none
  | some (c, p) =>
    have ht := h.engine.trans hs
    cases p with
    | start => rw [engineStep_start hs, engineStep_start ht]; exact .some (h.startBody c)
    | buildLoop => rw [engineStep_buildLoop hs, engineStep_buildLoop ht]; exact .some (h.buildLoop c)
    | deriveVisit v => rw [engineStep_deriveVisit hs, engineStep_deriveVisit ht]; exact .some (h.deriveVisit c v)
    | deriveDone =>
      rw [engineStep_deriveDone hs, engineStep_deriveDone ht]
      exact .some (h.map (deriveDone c) fun _ _ _ => rfl)
    | compressRead => rw [engineStep_compressRead hs, engineStep_compressRead ht]; exact h.compressRead c
    | compressPack b i => rw [engineStep_compressPack hs, engineStep_compressPack ht]; exact .some (h.compressPack c b i)
    | compressPackOut b i => rw [engineStep_compressPackOut hs, engineStep_compressPackOut ht]; exact h.compressPackOut c b i
    | compressFlush => rw [engineStep_compressFlush hs, engineStep_compressFlush ht]; exact .some (h.compressFlush c)
    | compressFlushOut => rw [engineStep_compressFlushOut hs, engineStep_compressFlushOut ht]; exact h.compressFlushOut c
    | walkTop => rw [engineStep_walkTop hs, engineStep_walkTop ht]; exact .some (h.walkTop c)
    | walkRead => rw [engineStep_walkRead hs, engineStep_walkRead ht]; exact h.walkRead c
    | walkOut => rw [engineStep_walkOut hs, engineStep_walkOut ht]; exact h.walkOut c
    | raising x =>
      rw [engineStep_raising hs, engineStep_raising ht]
      exact .some (h.map (failCommand c x) fun _ _ _ => rfl)
    | complete =>
      rw [engineStep_complete hs, engineStep_complete ht]
      exact .some (h.map (completeCommand c) fun _ _ _ => by cases c <;> rfl)

/-- A turn is at most two micro-steps, as many for twins. -/
theorem Twin.engineTurn (h : Twin s t) : Twin (engineTurn s) (engineTurn t) := by
  have hr : raises t = raises s := by simp only [raises, h.engine]
  have hstep := h.engineStep
  unfold Machine.engineTurn
  rw [hr]
  generalize Machine.engineStep s = u, Machine.engineStep t = v at hstep
  cases hstep with
  | none => exact h
  | some huv =>
    dsimp only
    split
    · have hnext := huv.engineStep
      revert hnext
      generalize Machine.engineStep _ = x, Machine.engineStep _ = y
      rintro (h2 | -)
      · exact h2
      · exact huv
    · exact huv

/-! ## The host -/

theorem Twin.restTurn (h : Twin s t) : Twin (restTurn s) (restTurn t) := by
  have he := h.engineTurn
  obtain ⟨l, e, d, rfl⟩ := h
  unfold Machine.restTurn
  dsimp only
  split
  · split
    · exact ⟨l, e, d, rfl⟩
    · exact he
  · exact he

/-- R65, R251: whatever a read returned, it is beside the block. -/
theorem Twin.hostRead (a : Addr) (h : Twin s t) : Twin (hostRead a s) (hostRead a t) := by
  obtain ⟨l, e, d, rfl⟩ := h
  obtain ⟨l₁, d₁, h₁⟩ := hostRead_frame a s
  obtain ⟨l₂, d₂, h₂⟩ := hostRead_frame a { s with readLog := l, traceSeen := e, draws := d }
  rw [h₁, h₂]
  exact ⟨l₂, e, d₂, rfl⟩

theorem Twin.hostWrite (r : PortReg) (v : Word) (h : Twin s t) : Twin (hostWrite r v s) (hostWrite r v t) := by
  obtain ⟨l, e, d, rfl⟩ := h
  cases r with
  | len | freq =>
    unfold Machine.hostWrite
    dsimp only
    split <;> exact ⟨l, e, d, rfl⟩
  | _ => exact ⟨l, e, d, rfl⟩

theorem Twin.offerCommand (c : Instr) (h : Twin s t) : Twin (offerCommand c s) (offerCommand c t) := by
  obtain ⟨l, e, d, rfl⟩ := h
  unfold Machine.offerCommand
  dsimp only
  split <;> exact ⟨l, e, d, rfl⟩

theorem Twin.offerIllegal (h : Twin s t) : Twin (offerIllegal s) (offerIllegal t) := by
  obtain ⟨l, e, d, rfl⟩ := h
  unfold Machine.offerIllegal
  dsimp only
  split <;> exact ⟨l, e, d, rfl⟩

/-! ## The step -/

/-- Two outcomes that differ only in what was observed. -/
inductive TwinOutcome : Host.Outcome State Fault Refusal → Host.Outcome State Fault Refusal → Prop where
  | next {s t : State} (h : Twin s t) : TwinOutcome (.next s) (.next t)
  | refused (r : Refusal) : TwinOutcome (.refused r) (.refused r)

/-- Two moves of the schedule that differ only in what was observed. -/
inductive TwinTurn : Turn → Turn → Prop where
  | issue (w : Word) {s t : State} (h : Twin s t) : TwinTurn (.issue w s) (.issue w t)
  | settled {o p : Host.Outcome State Fault Refusal} (h : TwinOutcome o p) : TwinTurn (.settled o) (.settled p)

theorem TwinTurn.next (h : Twin s t) : TwinTurn (.settled (.next s)) (.settled (.next t)) := .settled (.next h)

theorem Twin.exec (i : Instr) (h : Twin s t) : TwinOutcome (exec i s) (exec i t) := by
  cases i with
  | srst => exact .next (h.map resetBlock fun _ _ _ => rfl)
  | ack =>
    obtain ⟨l, e, d, rfl⟩ := h
    refine .next ?_
    dsimp only
    split <;> exact ⟨l, e, d, rfl⟩
  | nop | fclr | build | derive | compress | expand | expandx => exact .next (h.offerCommand _)

theorem Twin.hostTurn (a : HostAct) {p q : State} (hp : Twin p q) (h : Twin s t) :
    TwinTurn (hostTurn a p s) (hostTurn a q t) := by
  have hrest := h.restTurn
  obtain ⟨l, e, d, rfl⟩ := h
  cases a with
  | read addr size =>
    unfold Machine.hostTurn
    dsimp only
    split
    · exact .next (hp.hostRead addr)
    · exact .settled (.refused _)
  | write addr size v =>
    unfold Machine.hostTurn
    dsimp only
    split
    · split
      · exact .issue v hp
      · exact .next (hp.hostWrite _ v)
    · exact .settled (.refused _)
  | push b =>
    refine .next ?_
    change Twin (if canPush s then _ else _) (if canPush s then _ else _)
    split
    · exact hp.map (pushByte b) fun _ _ _ => rfl
    · exact hrest
  | close => exact .next (hp.map closeIn fun _ _ _ => rfl)
  | accept =>
    unfold Machine.hostTurn
    dsimp only
    split
    · exact .next (hp.map (acceptOut _) fun _ _ _ => rfl)
    · exact .next hrest
  | sinkMode ready => exact .next (hp.map (fun u => { u with sinkReady := ready }) fun _ _ _ => rfl)
  | hardReset => exact .next (hp.map resetBlock fun _ _ _ => rfl)
  | waitIdle =>
    refine .next ?_
    dsimp only
    split
    · exact hrest
    · exact hp
  | waitIrq =>
    refine .next ?_
    change Twin (if irq s then _ else _) (if irq s then _ else _)
    split
    · exact hp
    · exact hrest

theorem Twin.turn (h : Twin s t) : TwinTurn (turn s) (turn t) := by
  have hrest := h.restTurn
  obtain ⟨l, e, d, rfl⟩ := h
  unfold Machine.turn
  dsimp only
  split
  · exact .next hrest
  · exact .next (Twin.engineTurn ⟨l, e, d, rfl⟩)
  · exact Twin.hostTurn _ ⟨l, e, d, rfl⟩ ⟨l, e, d, rfl⟩

/-- Twins step to twins. -/
theorem Twin.step (h : Twin s t) : TwinOutcome (step s) (step t) := by
  have hturn := h.turn
  unfold Machine.step
  generalize Machine.turn s = u, Machine.turn t = v at hturn
  cases hturn with
  | issue w hst =>
    dsimp only
    split
    · exact hst.exec _
    · exact .next hst.offerIllegal
    · exact .next hst.offerIllegal
  | settled ho => exact ho

end

/-- Settles O6: no operation reads what was observed, so twins step to twins, or are refused alike. -/
theorem observationDoesNotInfluence : Obligations.ObservationDoesNotInfluence := by
  unfold Obligations.ObservationDoesNotInfluence
  intro s log seen d
  have hstep : TwinOutcome (step s) (step { s with readLog := log, traceSeen := seen, draws := d }) :=
    Twin.step ⟨log, seen, d, rfl⟩
  generalize step s = o, step { s with readLog := log, traceSeen := seen, draws := d } = o' at hstep
  cases hstep with
  | next h =>
    obtain ⟨l, e, k, rfl⟩ := h
    refine ⟨?_, by simp⟩
    rintro _ ⟨rfl⟩
    exact ⟨_, rfl, rfl⟩
  | refused r =>
    refine ⟨by simp, ?_⟩
    rintro _ ⟨rfl⟩
    rfl

end Sys2Proof.Machine
end

