-- ==== Sys2Proof/Proofs/Streams.lean ====
section
/-! PROOF. The stream ports: IN and OUT keep their order (O25), and a Push is accepted or waits (O52). -/

namespace Sys2Proof.Machine

/-! ## Only an IN read changes the IN port (R67) -/

@[simp] theorem walkStart_inPort (c : Instr) (s : State) : (walkStart c s).inPort = s.inPort := by
  unfold walkStart
  split <;> rfl

@[simp] theorem startBody_inPort (c : Instr) (s : State) : (startBody c s).inPort = s.inPort := by
  cases c with
  | nop | srst | ack | fclr => rfl
  | build =>
    simp only [startBody, buildStart]
    split <;> rfl
  | derive =>
    simp only [startBody, deriveStart]
    split
    · split <;> rfl
    · rfl
  | compress =>
    simp only [startBody, compressStart]
    split <;> rfl
  | expand | expandx => exact walkStart_inPort _ s

@[simp] theorem buildLoop_inPort (c : Instr) (s : State) : (buildLoop c s).inPort = s.inPort := by
  unfold buildLoop
  split <;> rfl

@[simp] theorem deriveVisit_inPort (c : Instr) (v : Visit) (s : State) : (deriveVisit c v s).inPort = s.inPort := by
  unfold deriveVisit nextVisit
  dsimp only
  split
  · split <;> rfl
  · rfl

@[simp] theorem deriveDone_inPort (c : Instr) (s : State) : (deriveDone c s).inPort = s.inPort := rfl

@[simp] theorem bitPacked_inPort (c : Instr) (b : Byte) (i : BitVec 8) (s : State) : (bitPacked c b i s).inPort = s.inPort := by
  unfold bitPacked
  dsimp only
  split <;> rfl

@[simp] theorem compressPack_inPort (c : Instr) (b : Byte) (i : BitVec 8) (s : State) :
    (compressPack c b i s).inPort = s.inPort := by
  unfold compressPack
  dsimp only
  split
  · rfl
  · exact bitPacked_inPort c b i _

@[simp] theorem compressFlush_inPort (c : Instr) (s : State) : (compressFlush c s).inPort = s.inPort := by
  unfold compressFlush
  split <;> rfl

@[simp] theorem walkTop_inPort (c : Instr) (s : State) : (walkTop c s).inPort = s.inPort := by
  unfold walkTop
  dsimp only
  split
  · rfl
  · split <;> rfl

@[simp] theorem walkExhausted_inPort (c : Instr) (s : State) : (walkExhausted c s).inPort = s.inPort := by
  unfold walkExhausted
  split <;> rfl

@[simp] theorem takeBit_inPort (c : Instr) (r : BitReader) (s : State) : (takeBit c r s).inPort = s.inPort := by
  unfold takeBit walkBit
  dsimp only
  split
  · split <;> rfl
  · rfl

theorem compressPackOut_inPort {c : Instr} {b : Byte} {i : BitVec 8} {s t : State} (h : compressPackOut c b i s = some t) :
    t.inPort = s.inPort := by
  unfold compressPackOut at h
  split at h
  · simp at h
  · rw [← Option.some.inj h, bitPacked_inPort]

theorem compressFlushOut_inPort {c : Instr} {s t : State} (h : compressFlushOut c s = some t) : t.inPort = s.inPort := by
  unfold compressFlushOut at h
  split at h
  · simp at h
  · rw [← Option.some.inj h, goTo_inPort]

theorem walkOut_inPort {c : Instr} {s t : State} (h : walkOut c s = some t) : t.inPort = s.inPort := by
  unfold walkOut at h
  split at h
  · simp at h
  · rw [← Option.some.inj h, goTo_inPort]

/-! ## The IN reads -/

/-- INBUF is the same, or has lost its head. -/
def HeadAtMostTaken (s t : State) : Prop := t.inPort.buf = s.inPort.buf ∨ t.inPort.buf = s.inPort.buf.tail

theorem HeadAtMostTaken.of_inPort {s t : State} (h : t.inPort = s.inPort) : HeadAtMostTaken s t := .inl (by rw [h])

/-- COMPRESS takes the head of INBUF, or finds IN exhausted (R165, R167). -/
theorem compressRead_buf {c : Instr} {s t : State} (h : compressRead c s = some t) : HeadAtMostTaken s t := by
  unfold compressRead at h
  split at h
  · split at h
    · rw [← Option.some.inj h]
      exact .inl rfl
    · simp at h
  · rename_i b rest hbuf
    refine .inr ?_
    rw [← Option.some.inj h, hbuf]
    dsimp only
    split <;> rfl

/-- The walk takes the head of INBUF when its reader is empty (R78). -/
theorem walkRead_buf {c : Instr} {s t : State} (h : walkRead c s = some t) : HeadAtMostTaken s t := by
  unfold walkRead at h
  split at h
  · split at h
    · split at h
      · rw [← Option.some.inj h]
        exact .of_inPort (walkExhausted_inPort c s)
      · simp at h
    · rename_i b rest hbuf
      refine .inr ?_
      rw [← Option.some.inj h, takeBit_inPort, hbuf]
      rfl
  · rw [← Option.some.inj h]
    exact .of_inPort (takeBit_inPort c _ s)

/-- A micro-step takes at most the head of INBUF, unless it completes the command. -/
theorem engineStep_buf {s t : State} (h : engineStep s = some t) :
    HeadAtMostTaken s t ∨ ∃ c, s.engine = some (c, .complete) ∧ t = completeCommand c s := by
  match he : s.engine with
  | none => simp [engineStep_idle he] at h
  | some (c, p) =>
    cases p with
    | start => rw [engineStep_start he, Option.some.injEq] at h; exact .inl (.of_inPort (by simp [← h]))
    | buildLoop => rw [engineStep_buildLoop he, Option.some.injEq] at h; exact .inl (.of_inPort (by simp [← h]))
    | deriveVisit v => rw [engineStep_deriveVisit he, Option.some.injEq] at h; exact .inl (.of_inPort (by simp [← h]))
    | deriveDone => rw [engineStep_deriveDone he, Option.some.injEq] at h; exact .inl (.of_inPort (by simp [← h]))
    | compressRead => rw [engineStep_compressRead he] at h; exact .inl (compressRead_buf h)
    | compressPack b i => rw [engineStep_compressPack he, Option.some.injEq] at h; exact .inl (.of_inPort (by simp [← h]))
    | compressPackOut b i => rw [engineStep_compressPackOut he] at h; exact .inl (.of_inPort (compressPackOut_inPort h))
    | compressFlush => rw [engineStep_compressFlush he, Option.some.injEq] at h; exact .inl (.of_inPort (by simp [← h]))
    | compressFlushOut => rw [engineStep_compressFlushOut he] at h; exact .inl (.of_inPort (compressFlushOut_inPort h))
    | walkTop => rw [engineStep_walkTop he, Option.some.injEq] at h; exact .inl (.of_inPort (by simp [← h]))
    | walkRead => rw [engineStep_walkRead he] at h; exact .inl (walkRead_buf h)
    | walkOut => rw [engineStep_walkOut he] at h; exact .inl (.of_inPort (walkOut_inPort h))
    | raising e => rw [engineStep_raising he, Option.some.injEq] at h; exact .inl (.of_inPort (by simp [← h]))
    | complete => rw [engineStep_complete he, Option.some.injEq] at h; exact .inr ⟨c, rfl, h.symm⟩

/-! ## What a step does to the streams -/

/-- What a step may do to INBUF (R67, R76, R81). -/
def InKept (s t : State) : Prop :=
  t.inPort.buf = s.inPort.buf
    ∨ (t.inPort.buf = s.inPort.buf.tail ∧ s.status.busy = true)
    ∨ (∃ b, s.agenda.head? = some (.host (.push b)) ∧ t.inPort.buf = s.inPort.buf ++ [b])
    ∨ (t.inPort.buf = [] ∧ (ResetsNext s ∨ (RunsStream s ∧ Completes s)))

/-- A completion empties INBUF if it is a stream command's, and keeps it otherwise (R81, R102). -/
theorem InKept.complete {c : Instr} {p : Point} {s u : State} (he : s.engine = some (c, p)) (hc : Completes s)
    (hu : u.inPort = s.inPort) : InKept s (completeCommand c u) := by
  unfold InKept
  rw [completeCommand_inPort]
  split
  · exact .inr (.inr (.inr ⟨rfl, .inr ⟨runsStream_of_endsSession he ‹_›, hc⟩⟩))
  · exact .inl (by rw [hu])

/-- What a step may do to OUT (R79): the sink takes the offered byte, or gets nothing; then a byte on OUT stays there unless a reset
drops it, and the engine may have offered one if OUT was free. -/
def OutKept (s t : State) : Prop :=
  (∃ v, s.outPend = some v ∧ t.outPend = none ∧ t.sink = s.sink ++ [v])
    ∨ (t.sink = s.sink ∧ (t.outPend = s.outPend ∨ s.outPend = none ∨ ResetsNext s))

/-- IN and OUT over one step. -/
structure StreamsKept (s t : State) : Prop where
  inBuf : InKept s t
  out : OutKept s t

theorem StreamsKept.same {s t : State} (hb : t.inPort = s.inPort) (ho : t.outPend = s.outPend) (hk : t.sink = s.sink) :
    StreamsKept s t := ⟨.inl (by rw [hb]), .inr ⟨hk, .inl ho⟩⟩

/-- The engine's turn, whatever the agenda: it offers a byte only when OUT is free, and takes at most the head of INBUF. -/
theorem LifecycleInv.streamsKept_turn {s : State} (hs : LifecycleInv s) (l : List Move) :
    StreamsKept s (Machine.engineTurn { s with agenda := l }) := by
  have hl : LifecycleInv { s with agenda := l } := hs.congr rfl rfl rfl rfl rfl rfl
  obtain ⟨-, -, -, -, -, hsink, -⟩ := engineTurn_frame { s with agenda := l }
  have out {t : State} (ht : Machine.engineStep { s with agenda := l } = some t) :
      OutKept s (Machine.engineTurn { s with agenda := l }) := .inr ⟨hsink, .inr (.inl (hl.no_out_of_engineStep ht))⟩
  obtain ⟨-, h⟩ | ⟨-, h⟩ | ⟨c, e, he, h⟩ := engineTurn_cases { s with agenda := l }
  · rw [h]
    exact .same rfl rfl rfl
  · refine ⟨?_, out h⟩
    obtain (hb | hb) | ⟨c, he, hc⟩ := engineStep_buf h
    · exact .inl hb
    · have hbusy : s.status.busy = true := by
        match he : s.engine with
        | none => simp [engineStep_idle (s := { s with agenda := l }) he] at h
        | some (c, p) => exact hs.busy_of_engine he
      exact .inr (.inl ⟨hb, hbusy⟩)
    · rw [hc]
      exact InKept.complete he (.inl ⟨c, he⟩) rfl
  · refine ⟨?_, out (engineStep_raising he)⟩
    rw [h]
    exact InKept.complete he (.inr ⟨c, e, he⟩) rfl

theorem LifecycleInv.streamsKept {s t : State} (hs : LifecycleInv s) (h : StepEffect s t) : StreamsKept s t := by
  cases h with
  | turn => exact hs.streamsKept_turn s.agenda
  | engine => exact hs.streamsKept_turn s.agenda.tail
  | took v hv | accept v hv => exact ⟨.inl rfl, .inl ⟨v, hv, rfl, rfl⟩⟩
  | read a =>
    obtain ⟨l, d, h⟩ := hostRead_frame a (Machine.popped s)
    rw [h]
    exact .same rfl rfl rfl
  | write a v =>
    obtain ⟨e, l, f, o, h⟩ := hostWrite_frame (decodeAddr a) v (Machine.popped s)
    rw [h]
    exact .same rfl rfl rfl
  | push b _ hn => exact ⟨.inr (.inr (.inl ⟨b, hn, rfl⟩)), .inr ⟨rfl, .inl rfl⟩⟩
  | close => exact ⟨.inl rfl, .inr ⟨rfl, .inl rfl⟩⟩
  | sinkMode | waited => exact .same rfl rfl rfl
  | reset h => exact ⟨.inr (.inr (.inr ⟨rfl, .inl h⟩)), .inr ⟨rfl, .inr (.inr h)⟩⟩
  | command c =>
    obtain ⟨-, h⟩ | ⟨-, h⟩ := offerCommand_cases c (Machine.popped s) <;> rw [h] <;> exact .same rfl rfl rfl
  | ack => split <;> exact .same rfl rfl rfl
  | illegal =>
    obtain ⟨-, h⟩ | ⟨-, h⟩ := offerIllegal_cases (Machine.popped s) <;> rw [h] <;> exact .same rfl rfl rfl

/-- Settles O25: each effect of a step keeps both streams, the engine's turn because a byte on OUT holds it. -/
theorem streamsKeepTheirOrder : Obligations.StreamsKeepTheirOrder := by
  unfold Obligations.StreamsKeepTheirOrder
  intro s t hs h
  obtain ⟨hin, hout⟩ := hs.streamsKept (step_effect h)
  refine ⟨?_, fun v hv hr => ?_, hin⟩
  · obtain hacc | ⟨hsink, -⟩ := hout
    · exact .inr hacc
    · exact .inl hsink
  · obtain ⟨w, hw, ht, hsink⟩ | ⟨hsink, ho | ho | ho⟩ := hout
    · obtain rfl : v = w := Option.some.inj (hv.symm.trans hw)
      exact .inr ⟨ht, hsink⟩
    · exact .inl ⟨ho.trans hv, hsink⟩
    · simp [hv] at ho
    · exact absurd ho hr

/-! ## The host's side of IN (R76) -/

/-- Whoever else can move leaves the host's plans alone. -/
theorem restTurn_agenda (s : State) : (restTurn s).agenda = s.agenda := by
  obtain ⟨-, -, -, hturn, -⟩ := engineTurn_frame s
  unfold restTurn
  split
  · split
    · rfl
    · exact hturn
  · exact hturn

theorem canPush_iff (s : State) : canPush s = true ↔ s.inPort.closed = false ∧ s.inPort.buf.length < Config.inDepth := by
  simp [canPush]

/-- R76: the step of a Push, accepted or waiting. -/
theorem step_push {s : State} {b : Byte} {rest : List Move} (h : s.agenda = .host (.push b) :: rest) :
    step s = .next (if canPush s then pushByte b { s with agenda := rest } else restTurn s) :=
  step_of_settled (turn_host h)

theorem step_close {s : State} {rest : List Move} (h : s.agenda = .host .close :: rest) :
    step s = .next (closeIn { s with agenda := rest }) :=
  step_of_settled (turn_host h)

/-- Settles O52: the port accepts exactly when it is open and has room; else the turn is another agent's, which leaves the
agenda. -/
theorem pushesAreAcceptedOrWait : Obligations.PushesAreAcceptedOrWait := by
  unfold Obligations.PushesAreAcceptedOrWait
  intro s b rest
  refine ⟨fun ha hopen hroom => ?_, fun ha hno => ⟨restTurn s, ?_, restTurn_agenda s⟩, fun ha => step_close ha⟩
  · rw [step_push ha, if_pos ((canPush_iff s).mpr ⟨hopen, hroom⟩)]
    rfl
  · have hwait : ¬canPush s = true := by
      rw [canPush_iff, not_and_or, Bool.not_eq_false, not_lt]
      exact hno
    rw [step_push ha, if_neg hwait]

end Sys2Proof.Machine
end

