-- ==== Sys2Proof/Proofs/Encoding.lean ====
section
/-! PROOF. The encoding (spec/30_encoding.md R90 to R94; O1, O2, O3): the decoder reads RSV and OPC, the encoder writes them, and
what is left of the 2^32 words is illegal. -/

namespace Sys2Proof.Machine

/-! ## The two fields of a command's word (R90, R92) -/

@[simp] theorem rsv_encode (i : Instr) : (encode i).extractLsb' 8 24 = 0#24 :=
  BitVec.extractLsb'_append_eq_left

@[simp] theorem opc_encode (i : Instr) : (encode i).extractLsb' 0 8 = opcode i :=
  BitVec.extractLsb'_append_eq_right

/-- R92: the map takes the opcode of each command to the command. -/
@[simp] theorem opcodeCommand_opcode (i : Instr) : opcodeCommand (opcode i) = some i := by
  cases i <;> rfl

/-- R92, R93: the word of a command decodes to the command. -/
@[simp] theorem decode_encode (i : Instr) : decode (encode i) = .command i := by
  simp [decode]

/-- Settles O2: the decoder reads the fields the encoder writes, and only those nine words pass both its checks. -/
theorem decodeAndEncodeAgree : Obligations.DecodeAndEncodeAgree := by
  unfold Obligations.DecodeAndEncodeAgree
  exact ⟨fun i _ => decode_encode i, fun _ _ => encode_of_decode⟩

/-! ## The illegal words (R94) -/

/-- R90: RSV is zero exactly in the words below 2^8. -/
theorem rsv_eq_zero_iff (w : Word) : w.extractLsb' 8 24 = 0#24 ↔ w.toNat < 0x100 := by
  rw [BitVec.toNat_eq, BitVec.extractLsb'_toNat, Nat.shiftRight_eq_div_pow, BitVec.toNat_ofNat]
  omega

/-- R90: where RSV is zero, OPC is the whole word. -/
theorem opc_toNat {w : Word} (h : w.toNat < 0x100) : (w.extractLsb' 0 8).toNat = w.toNat := by
  rw [BitVec.extractLsb'_toNat, Nat.shiftRight_zero, Nat.mod_eq_of_lt h]

/-- R92, R94: the opcodes that are not in the map. -/
theorem opcodeCommand_eq_none_iff (opc : BitVec 8) :
    opcodeCommand opc = none ↔
      (0x04 ≤ opc.toNat ∧ opc.toNat ≤ 0x0F) ∨ (0x12 ≤ opc.toNat ∧ opc.toNat ≤ 0x1F) ∨ (0x21 ≤ opc.toNat ∧ opc.toNat ≤ 0x2F)
        ∨ 0x32 ≤ opc.toNat := by
  simp only [opcodeCommand, ite_eq_iff, reduceCtorEq, and_false, false_or, and_true, BitVec.toNat_eq, BitVec.toNat_ofNat]
  omega

/-- R93, R94: the decoder looks at RSV first. -/
theorem decode_eq_illegalReservedBits_iff (w : Word) : decode w = .illegalReservedBits ↔ 0x100 ≤ w.toNat := by
  rw [← not_lt, ← rsv_eq_zero_iff]
  unfold decode
  split
  · simpa
  · split <;> simp_all

/-- R93, R94: the decoder looks OPC up only where RSV is zero. -/
theorem decode_eq_illegalOpcode_iff (w : Word) :
    decode w = .illegalOpcode ↔ w.toNat < 0x100 ∧ opcodeCommand (w.extractLsb' 0 8) = none := by
  rw [← rsv_eq_zero_iff]
  unfold decode
  split
  · simp_all
  · split <;> simp_all

/-- Settles O3: a word has a reserved bit set exactly from 0x100 on; below that it is its own opcode. -/
theorem everyOtherWordIsIllegal : Obligations.EveryOtherWordIsIllegal := by
  unfold Obligations.EveryOtherWordIsIllegal
  intro w
  refine ⟨decode_eq_illegalReservedBits_iff w, ?_⟩
  rw [decode_eq_illegalOpcode_iff, opcodeCommand_eq_none_iff]
  by_cases h : w.toNat < 0x100
  · rw [opc_toNat h]
    omega
  · omega

/-- Settles O1: each of the nine words is its command's, and the four neighbours lie in the illegal ranges. -/
theorem specWordsDecodeToTheirCommands : Obligations.SpecWordsDecodeToTheirCommands := by
  unfold Obligations.SpecWordsDecodeToTheirCommands
  refine ⟨decode_encode .nop, decode_encode .srst, decode_encode .ack, decode_encode .fclr, decode_encode .build,
    decode_encode .derive, decode_encode .compress, decode_encode .expand, decode_encode .expandx, ?_, ?_, ?_, ?_⟩
  · exact (decode_eq_illegalReservedBits_iff _).mpr (by decide)
  · exact (decode_eq_illegalReservedBits_iff _).mpr (by decide)
  · exact (everyOtherWordIsIllegal _).2.mpr (by decide)
  · exact (everyOtherWordIsIllegal _).2.mpr (by decide)

end Sys2Proof.Machine
end

