-- ==== Sys2Proof/Proofs/Control.lean ====
section
/-! PROOF. The control plane (spec/40_control.md): what a CMD write does (O7, O8, O9, O12, O13), how a body ends (O10, O15, O16), and
every other host write (O27). -/

namespace Sys2Proof.Machine

/-! ## What a CMD write does (R100, R101, R103) -/

/-- R103: an illegal word written to CMD is rejected, or ignored while BUSY = 1. -/
theorem step_cmdWrite_illegal {s : State} {w : Word} {rest : List Move} (ha : s.agenda = cmdWrite w :: rest)
    (hw : ∀ i, decode w ≠ .command i) : step s = .next (offerIllegal { s with agenda := rest }) := by
  have hturn : turn s = .issue w { s with agenda := rest } := turn_host ha
  simp only [step, hturn]
  cases hd : decode w with
  | command i => exact absurd hd (hw i)
  | illegalReservedBits | illegalOpcode => rfl

/-- R100, R101: the commands that have a body are offered to the engine. -/
theorem exec_of_setsBusy {c : Instr} (hc : setsBusy c = true) (s : State) : exec c s = .next (offerCommand c s) := by
  cases c with
  | srst | ack => simp [setsBusy] at hc
  | nop | fclr | build | derive | compress | expand | expandx => rfl

/-- R101: at BUSY = 0 such a command is accepted. -/
theorem exec_accepted {c : Instr} {s : State} (hc : setsBusy c = true) (hb : s.status.busy = false) :
    exec c s = .next (acceptCommand c s) := by
  rw [exec_of_setsBusy hc, offerCommand, hb]
  rfl

/-- R100: while BUSY = 1 every command but SRST is ignored. -/
theorem exec_ignored {c : Instr} {s : State} (hc : c ≠ .srst) (hb : s.status.busy = true) :
    exec c s = .next (ignoreWrite s) := by
  cases c with
  | srst => exact absurd rfl hc
  | ack => simp [exec, execAck, hb]
  | nop | fclr | build | derive | compress | expand | expandx => rw [exec_of_setsBusy rfl, offerCommand, if_pos hb]

/-- R106: ACK at BUSY = 0. -/
theorem exec_ack {s : State} (hb : s.status.busy = false) : exec .ack s = .next (acknowledge s) := by
  simp [exec, execAck, hb]

/-- R106, R52: ACK ends the IRQ. -/
@[simp] theorem irq_acknowledge (s : State) : irq (acknowledge s) = false := rfl

/-- Settles O7: the word is rejected, and the fall of DONE in it is overwritten. -/
theorem illegalWordEndsAsError : Obligations.IllegalWordEndsAsError := by
  unfold Obligations.IllegalWordEndsAsError
  intro s w rest ha hw hb
  rw [step_cmdWrite_illegal ha hw, offerIllegal, if_neg (by simp [hb])]
  rfl

/-- Settles O8: a write that is ignored only sets OVR, and SRST does not look at BUSY. -/
theorem busyCommandsAreIgnored : Obligations.BusyCommandsAreIgnored := by
  unfold Obligations.BusyCommandsAreIgnored
  intro s hb
  refine ⟨fun i hi => exec_ignored hi hb, ⟨resetBlock s, rfl, rfl, rfl⟩, fun w rest ha hw => ?_⟩
  rw [step_cmdWrite_illegal ha hw, offerIllegal, if_pos hb]
  rfl

/-- Settles O9: the seven commands are those that set BUSY. -/
theorem acceptanceStartsTheBody : Obligations.AcceptanceStartsTheBody := by
  unfold Obligations.AcceptanceStartsTheBody
  intro s c hb hc
  have hset : setsBusy c = true := by obtain rfl | rfl | rfl | rfl | rfl | rfl | rfl := hc <;> rfl
  exact exec_accepted hset hb

/-- Settles O12: the two branches of ACK. -/
theorem acknowledgeClearsTheError : Obligations.AcknowledgeClearsTheError := by
  unfold Obligations.AcknowledgeClearsTheError
  exact ⟨decode_encode .ack, fun s => ⟨fun hb => ⟨acknowledge s, exec_ack hb, irq_acknowledge s, rfl⟩,
    fun hb => exec_ignored (by decide) hb⟩⟩

/-- Settles O13: SRST answers the reset state with the records and the host's plans of before. -/
theorem softResetResetsTheBlock : Obligations.SoftResetResetsTheBlock := by
  unfold Obligations.SoftResetResetsTheBlock
  exact ⟨decode_encode .srst, fun s => ⟨resetBlock s, rfl, rfl⟩⟩

/-! ## How a body ends (R102, R213) -/

/-- A turn that starts at no raise is one micro-step. -/
theorem engineTurn_at {s t : State} {c : Instr} {p : Point} (he : s.engine = some (c, p)) (hp : ∀ e, p ≠ .raising e)
    (h : engineStep s = some t) : engineTurn s = t := by
  refine engineTurn_of_some h ?_
  rintro ⟨d, e, hr⟩
  rw [he, Option.some.injEq, Prod.mk.injEq] at hr
  exact hp e hr.2

/-- An accepted command takes the first micro-step of its body in its first turn. -/
theorem engineTurn_accepted (c : Instr) (s : State) : engineTurn (acceptCommand c s) = startBody c (acceptCommand c s) :=
  engineTurn_at rfl (by simp) (engineStep_start rfl)

/-- R102: a body of one micro-step completes in the second turn. -/
theorem engineRun_of_startBody_complete {c : Instr} {s u : State} (h : startBody c (acceptCommand c s) = goTo c .complete u) :
    engineRun 2 (acceptCommand c s) = completeCommand c u := by
  rw [engineRun_succ, engineTurn_accepted, h, engineRun_succ, engineRun_zero,
    engineTurn_at (goTo_engine c .complete u) (by simp) (engineStep_complete rfl), completeCommand_goTo]

/-- R213: a body whose first micro-step comes to an error ends with it in the second turn. -/
theorem engineRun_of_startBody_raising {c : Instr} {e : ErrCode} {s u : State}
    (h : startBody c (acceptCommand c s) = goTo c (.raising e) u) :
    engineRun 2 (acceptCommand c s) = completeCommand c (raiseError e u) := by
  rw [engineRun_succ, engineTurn_accepted, h, engineRun_succ, engineRun_zero, engineTurn_raising (goTo_engine c (.raising e) u)]
  exact completeCommand_goTo c c (.raising e) (raiseError e u)

/-- R81, R102: completion of a command that ends the IN session. -/
theorem completeCommand_of_endsSession {c : Instr} (hc : endsSession c = true) (s : State) :
    completeCommand c s = { s with
      status := { s.status with inwait := false, busy := false, done := true }
      engine := none
      inPort := ⟨[], false⟩
      reader.rbits := 0#4
      packer := ⟨0#8, 0#3⟩ } := by
  simp only [completeCommand, if_pos hc]
  rfl

/-- R102: completion of any other command. -/
theorem completeCommand_of_not_endsSession {c : Instr} (hc : endsSession c = false) (s : State) :
    completeCommand c s = { s with status := { s.status with inwait := false, busy := false, done := true }, engine := none } := by
  simp [completeCommand, hc]

/-- Settles O10: the three stream commands are those that end the session. -/
theorem completionStepEndsTheCommand : Obligations.CompletionStepEndsTheCommand := by
  unfold Obligations.CompletionStepEndsTheCommand
  intro s c he
  rw [engineStep_complete he]
  refine ⟨fun hc => ?_, fun hc => ?_⟩
  · have hends : endsSession c = true := by obtain rfl | rfl | rfl := hc <;> rfl
    rw [completeCommand_of_endsSession hends]
  · have hends : endsSession c = false := by obtain rfl | rfl | rfl | rfl := hc <;> rfl
    rw [completeCommand_of_not_endsSession hends]

/-- Settles O15: acceptance, the empty body and the completion overwrite the same flags. -/
theorem nopOnlySetsDone : Obligations.NopOnlySetsDone := by
  unfold Obligations.NopOnlySetsDone
  refine ⟨decode_encode .nop, fun s => ⟨fun hb => ?_, fun hb => exec_ignored (by decide) hb⟩⟩
  refine ⟨acceptCommand .nop s, 2, exec_accepted rfl hb, rfl, rfl, ?_⟩
  rw [engineRun_of_startBody_complete (c := .nop) rfl, completeCommand_of_not_endsSession rfl]
  rfl

/-! ## FCLR, and BUILD after it (R112, R133) -/

/-- R112: FCLR up to its completion. -/
theorem engineRun_fclr (s : State) : engineRun 2 (acceptCommand .fclr s) = { s with
    status := { s.status with busy := false, done := true, inwait := false }
    engine := none
    freq := clearedFreqs } := by
  rw [engineRun_of_startBody_complete (c := .fclr) rfl, completeCommand_of_not_endsSession rfl]
  rfl

/-- R132: without a count there is no present symbol. -/
theorem presentSymbols_eq_nil {freq : Vector Word 256} (h : ∀ x, freqAt freq x = 0#32) : presentSymbols freq = [] := by
  refine List.eq_nil_iff_forall_not_mem.mpr fun x hx => ?_
  rw [mem_presentSymbols, h x] at hx
  exact absurd hx (by decide)

/-- R133: without a present symbol BUILD comes to EMPTY_INPUT, an error of before still standing. -/
theorem buildStart_of_no_symbols {s : State} (h : presentSymbols s.freq = []) :
    ∃ u, buildStart s = goTo .build (.raising .emptyInput) u ∧ u.status.err = s.status.err := by
  simp only [buildStart, h]
  exact ⟨_, rfl, rfl⟩

/-- R133, R214: a BUILD of no counts ends with ERR, and with EMPTY_INPUT if that is the first error. -/
theorem engineRun_build_empty {s : State} (h : ∀ x, freqAt s.freq x = 0#32) :
    (engineRun 2 (acceptCommand .build s)).status.busy = false ∧ (engineRun 2 (acceptCommand .build s)).status.err = true
      ∧ (s.status.err = false → (engineRun 2 (acceptCommand .build s)).errcode = .emptyInput) := by
  obtain ⟨u, hu, herr⟩ := buildStart_of_no_symbols (s := acceptCommand .build s) (presentSymbols_eq_nil h)
  rw [engineRun_of_startBody_raising (c := .build) hu]
  refine ⟨by simp, by simp, fun hs => ?_⟩
  have hfirst : u.status.err = false := herr.trans hs
  simp [hfirst]

/-- Settles O16: FCLR leaves no count, so BUILD finds no symbol. -/
theorem fclrClearsOnlyTheFrequencies : Obligations.FclrClearsOnlyTheFrequencies := by
  unfold Obligations.FclrClearsOnlyTheFrequencies
  refine ⟨decode_encode .fclr, fun s hb => ⟨acceptCommand .fclr s, 2, _, exec_accepted rfl hb, engineRun_fclr s,
    freqAt_clearedFreqs, rfl, acceptCommand .build _, 2, exec_accepted rfl rfl, ?_⟩⟩
  exact engineRun_build_empty freqAt_clearedFreqs

/-! ## Every other host write (R63, R104, R108 to R110) -/

/-- The step of a whole aligned write outside CMD. -/
theorem step_write {s : State} {a : Addr} {v : Word} {rest : List Move} (ha : s.agenda = .host (.write a 4 v) :: rest)
    (hal : a.toNat % 4 = 0) (hc : decodeAddr a ≠ .cmd) : step s = .next (hostWrite (decodeAddr a) v { s with agenda := rest }) := by
  have hok : accessOk a 4 = true := (accessOk_iff a 4).mpr ⟨hal, rfl⟩
  exact step_of_settled (by rw [turn_host ha, hostTurn, if_pos hok, if_neg hc])

/-- R109: a write to LEN at BUSY = 0. -/
theorem hostWrite_len {s : State} (v : Word) (hb : s.status.busy = false) : hostWrite .len v s = { s with len := v } := by
  simp [hostWrite, hb]

/-- R108: a write to FREQ[x] at BUSY = 0. -/
theorem hostWrite_freq {s : State} (x : Sym) (v : Word) (hb : s.status.busy = false) :
    hostWrite (.freq x) v s = { s with freq := setFreq s.freq x v } := by
  simp [hostWrite, hb]

/-- R104: a write to LEN or FREQ is ignored while BUSY = 1. -/
theorem hostWrite_ignored {s : State} {r : PortReg} (v : Word) (hr : r = .len ∨ ∃ x, r = .freq x) (hb : s.status.busy = true) :
    hostWrite r v s = ignoreWrite s := by
  obtain rfl | ⟨x, rfl⟩ := hr
  · simp [hostWrite, hb]
  · simp [hostWrite, hb]

/-- R63, R65: a write to what is neither IE, LEN nor FREQ changes nothing. -/
theorem hostWrite_readOnly {r : PortReg} (v : Word) (s : State) (hie : r ≠ .ie) (hlen : r ≠ .len) (hfreq : ∀ x, r ≠ .freq x) :
    hostWrite r v s = s := by
  cases r with
  | ie => exact absurd rfl hie
  | len => exact absurd rfl hlen
  | freq x => exact absurd rfl (hfreq x)
  | _ => rfl

/-- Settles O27: each address names one register, and what a write to that register does is known; the
addresses left are not those of IE, LEN or a FREQ entry. -/
theorem hostWritesAreAsSpecified : Obligations.HostWritesAreAsSpecified := by
  unfold Obligations.HostWritesAreAsSpecified
  intro s a v rest ha hal
  refine ⟨?_, ?_, ?_, ?_, ?_⟩
  · rintro rfl
    exact step_write ha hal (by decide)
  · rintro ⟨rfl, hb⟩
    rw [step_write ha hal (by decide)]
    exact congrArg _ (hostWrite_len (s := { s with agenda := rest }) v hb)
  · rintro x ⟨rfl, hb⟩
    refine ⟨setFreq s.freq x v, ?_, freqAt_setFreq_self s.freq x v, fun y hy => freqAt_setFreq_other s.freq v hy.symm⟩
    rw [step_write ha hal (by simp), decodeAddr_freqAddr]
    exact congrArg _ (hostWrite_freq (s := { s with agenda := rest }) x v hb)
  · rintro ⟨haddr, hb⟩
    have hr : decodeAddr a = .len ∨ ∃ x, decodeAddr a = .freq x := by
      obtain rfl | ⟨x, rfl⟩ := haddr
      · exact .inl rfl
      · exact .inr ⟨x, decodeAddr_freqAddr x⟩
    have hcmd : decodeAddr a ≠ .cmd := by
      obtain h | ⟨x, h⟩ := hr <;> simp [h]
    rw [step_write ha hal hcmd]
    exact congrArg _ (hostWrite_ignored (s := { s with agenda := rest }) v hr hb)
  · rintro ⟨hcmd, hie, hlen, hfreq⟩
    have hok : accessOk a 4 = true := (accessOk_iff a 4).mpr ⟨hal, rfl⟩
    obtain ⟨haie, halen, hafreq⟩ := decodeAddr_writable hok
    rw [step_write ha hal fun h => hcmd (decodeAddr_cmd hok h).1,
      hostWrite_readOnly v _ (mt haie hie) (mt halen hlen) fun x h => hfreq x (hafreq x h)]

end Sys2Proof.Machine
end

