-- ==== Sys2Proof/Proofs/Select.lean ====
section
/-! PROOF. BUILD's selection finds the two minima of the forest (R136; O35). -/

namespace Sys2Proof.Machine

/-- R136: position `i` comes no later than position `j` in the order of frequency, then position. -/
def Precedes (l : List Frq) (i j : Nat) : Prop :=
  l.getD i 0#40 < l.getD j 0#40 ∨ (l.getD i 0#40 = l.getD j 0#40 ∧ i ≤ j)

/-- R136: `i1` and `i2` are the first and the second minimum among the positions below `n`. -/
structure TwoMinima (l : List Frq) (n i1 i2 : Nat) : Prop where
  lt1 : i1 < n
  lt2 : i2 < n
  ne : i1 ≠ i2
  first : ∀ j, j < n → Precedes l i1 j
  second : ∀ j, j < n → j ≠ i1 → Precedes l i2 j

section
variable {l : List Frq} {i j k : Nat}

theorem Precedes.rfl : Precedes l i i := .inr ⟨.refl _, le_rfl⟩

theorem Precedes.trans (h1 : Precedes l i j) (h2 : Precedes l j k) : Precedes l i k := by
  unfold Precedes at *
  grind

/-- A later entry that is not strictly smaller comes after. -/
theorem precedes_of_not_lt (h : ¬l.getD j 0#40 < l.getD i 0#40) (hij : i < j) : Precedes l i j := by
  unfold Precedes
  grind

end

/-! ## The scan, position by position -/

section
variable {l : List Frq} {n i1 i2 : Nat} (h : TwoMinima l n i1 i2)
include h

/-- A strictly smaller entry becomes the first minimum, and the first the second. -/
theorem TwoMinima.newFirst (hf : l.getD n 0#40 < l.getD i1 0#40) : TwoMinima l (n + 1) n i1 where
  lt1 := n.lt_succ_self
  lt2 := Nat.lt_succ_of_lt h.lt1
  ne := h.lt1.ne'
  first j hj := by
    obtain hj | rfl := Nat.lt_succ_iff_lt_or_eq.mp hj
    · exact Precedes.trans (.inl hf) (h.first j hj)
    · exact .rfl
  second j hj hne := h.first j (by omega)

/-- An entry that is strictly smaller than the second minimum only becomes the second. -/
theorem TwoMinima.newSecond (h1 : ¬l.getD n 0#40 < l.getD i1 0#40) (h2 : l.getD n 0#40 < l.getD i2 0#40) :
    TwoMinima l (n + 1) i1 n where
  lt1 := Nat.lt_succ_of_lt h.lt1
  lt2 := n.lt_succ_self
  ne := h.lt1.ne
  first j hj := by
    obtain hj | rfl := Nat.lt_succ_iff_lt_or_eq.mp hj
    · exact h.first j hj
    · exact precedes_of_not_lt h1 h.lt1
  second j hj hne := by
    obtain hj | rfl := Nat.lt_succ_iff_lt_or_eq.mp hj
    · exact Precedes.trans (.inl h2) (h.second j hj hne)
    · exact .rfl

/-- Any other entry leaves the two minima as they are. -/
theorem TwoMinima.keep (h1 : ¬l.getD n 0#40 < l.getD i1 0#40) (h2 : ¬l.getD n 0#40 < l.getD i2 0#40) :
    TwoMinima l (n + 1) i1 i2 where
  lt1 := Nat.lt_succ_of_lt h.lt1
  lt2 := Nat.lt_succ_of_lt h.lt2
  ne := h.ne
  first j hj := by
    obtain hj | rfl := Nat.lt_succ_iff_lt_or_eq.mp hj
    · exact h.first j hj
    · exact precedes_of_not_lt h1 h.lt1
  second j hj hne := by
    obtain hj | rfl := Nat.lt_succ_iff_lt_or_eq.mp hj
    · exact h.second j hj hne
    · exact precedes_of_not_lt h2 h.lt2

end

/-- The scan of what stands after the first `pre.length` entries ends with the two minima of all. -/
theorem selectFrom_twoMinima (rest pre : List Frq) {i1 i2 : Nat} (h : TwoMinima (pre ++ rest) pre.length i1 i2) :
    TwoMinima (pre ++ rest) (pre ++ rest).length
      (selectFrom rest pre.length i1 ((pre ++ rest).getD i1 0#40) i2 ((pre ++ rest).getD i2 0#40)).1
      (selectFrom rest pre.length i1 ((pre ++ rest).getD i1 0#40) i2 ((pre ++ rest).getD i2 0#40)).2 := by
  induction rest generalizing pre i1 i2 with
  | nil => simpa [selectFrom] using h
  | cons f rest ih =>
    have hf : (pre ++ f :: rest).getD pre.length 0#40 = f := by simp [List.getD_eq_getElem?_getD]
    have next {k1 k2 : Nat} (hk : TwoMinima (pre ++ f :: rest) (pre.length + 1) k1 k2) := ih (pre ++ [f]) (i1 := k1) (i2 := k2)
      (by simpa using hk)
    simp only [List.append_assoc, List.singleton_append, List.length_append, List.length_singleton] at next
    rw [selectFrom, List.length_append]
    split
    · have hnew := next (h.newFirst (by rwa [hf]))
      rwa [hf] at hnew
    · split
      · have hnew := next (h.newSecond (by rwa [hf]) (by rwa [hf]))
        rwa [hf] at hnew
      · exact next (h.keep (by rwa [hf]) (by rwa [hf]))

/-- Of the first two positions, the one that comes first is the first minimum. -/
theorem twoMinima_two {l : List Frq} {i1 i2 : Nat} (h1 : i1 < 2) (h2 : i2 < 2) (hne : i1 ≠ i2) (h : Precedes l i1 i2) :
    TwoMinima l 2 i1 i2 where
  lt1 := h1
  lt2 := h2
  ne := hne
  first j hj := by
    obtain rfl | rfl : j = i1 ∨ j = i2 := by omega
    · exact .rfl
    · exact h
  second j hj hj1 := by
    obtain rfl : j = i2 := by omega
    exact .rfl

/-- R136: the selection of a list of two or more. -/
theorem select_twoMinima {l : List Frq} (h : 2 ≤ l.length) : TwoMinima l l.length (select l).1 (select l).2 := by
  match l, h with
  | f0 :: f1 :: rest, _ =>
    rw [select]
    split
    · rename_i hlt
      exact selectFrom_twoMinima rest [f0, f1] (twoMinima_two Nat.one_lt_two Nat.two_pos Nat.one_ne_zero (.inl hlt))
    · rename_i hge
      exact selectFrom_twoMinima rest [f0, f1]
        (twoMinima_two Nat.two_pos Nat.one_lt_two Nat.zero_ne_one (precedes_of_not_lt hge Nat.one_pos))

/-- Settles O35: the scan keeps the two minima of the positions it has met. -/
theorem selectFindsTheTwoMinima : Obligations.SelectFindsTheTwoMinima := by
  unfold Obligations.SelectFindsTheTwoMinima
  intro l hl
  have h := select_twoMinima hl
  exact ⟨h.lt1, h.lt2, h.ne, fun j hj => ⟨h.first j hj, h.second j hj⟩⟩

end Sys2Proof.Machine
end

