-- ==== Sys2Proof/Proofs/Build.lean ====
section
/-! PROOF. BUILD from its acceptance to its completion (spec/41_tree_builder.md): one merge (O36), a vector of no counts (O32), and
the tree of any other vector (O33), which depends on the vector alone (O34). -/

namespace Sys2Proof.Machine

/-! ## One merge (R136 to R139) -/

/-- R137: the strictly smaller frequency goes right; of two equal ones the first met goes left. -/
theorem placeChildren_eq (node : Vector Node 511) (a b : NodeIdx) :
    placeChildren node a b = (if (nodeAt node a).frq < (nodeAt node b).frq then b else a,
      if (nodeAt node a).frq < (nodeAt node b).frq then a else b) := by
  unfold placeChildren
  split <;> rfl

/-- R141: a pass of the loop with two or more entries in the forest is a merge. -/
theorem buildLoop_merge {s : State} (c : Instr) (h : 1 < s.forest.length) :
    buildLoop c s = goTo c .buildLoop (mergeStep s) := if_pos h

/-- R134, R140: with one entry left it is the root. -/
theorem buildLoop_finish {s : State} (c : Instr) (h : s.forest.length = 1) :
    buildLoop c s = goTo c .complete (finishTree s) := if_neg (by omega)

/-- Settles O36: a merge is written out with the two positions the selection answers. -/
theorem mergePlacesTheChildren : Obligations.MergePlacesTheChildren := by
  unfold Obligations.MergePlacesTheChildren
  intro s c i1 i2 he hlen hroom hsel
  have hfree : s.nnode.setWidth 9 ≠ 511#9 := fun h => by bv_omega
  refine ⟨_, (engineStep_buildLoop he).trans (congrArg some (buildLoop_merge c hlen)), ?_⟩
  simp only [mergeStep, hsel, placeChildren_eq]
  exact ⟨nodeAt_setNode_self s.node _ _ hfree, fun m hm => nodeAt_setNode_other s.node _ hm.symm, rfl⟩

/-! ## The leaf scan (R131, R132) -/

/-- R131, R132: what BUILD's first micro-step leaves, the engine's place excepted. -/
def scanLeaves (s : State) : State :=
  { s with
    status.tv := false
    status.cv := false
    code := clearedCodes
    root := 0#9
    node := arenaOf ((presentSymbols s.freq).map (leafOf s.freq))
    nleaf := BitVec.ofNat 9 (presentSymbols s.freq).length
    nnode := BitVec.ofNat 10 (presentSymbols s.freq).length
    forest := initialForest (presentSymbols s.freq).length }

/-- The scan sends no event. -/
@[simp] theorem scanLeaves_traceSent (s : State) : (scanLeaves s).traceSent = s.traceSent := rfl

/-- R132: the scan puts one entry per symbol into the forest. -/
@[simp] theorem length_forest_scanLeaves (s : State) : (scanLeaves s).forest.length = (presentSymbols s.freq).length := by
  simp [scanLeaves, initialForest]

/-- R133: the scan goes on to the loop, or to EMPTY_INPUT if it found no symbol. -/
theorem buildStart_eq (s : State) : buildStart s =
    goTo .build (if (presentSymbols s.freq).isEmpty then .raising .emptyInput else .buildLoop) (scanLeaves s) := by
  rw [apply_ite (fun p => goTo .build p (scanLeaves s))]
  rfl

/-- The arena of no leaves is clear. -/
theorem arenaOf_nil : arenaOf [] = clearedNodes := by
  have htake : ([] ++ List.replicate 511 Node.zero).take 511 = List.replicate 511 Node.zero :=
    List.take_of_length_le List.length_replicate.le
  rw [← Vector.toArray_inj, clearedNodes, Vector.toArray_replicate, ← List.toArray_replicate, ← htake, arenaOf]

/-- R131: a scan that finds no symbol leaves the tables clear. -/
theorem scanLeaves_of_no_symbols {s : State} (h : presentSymbols s.freq = []) : scanLeaves s = { s with
    status.tv := false
    status.cv := false
    code := clearedCodes
    root := 0#9
    node := clearedNodes
    nleaf := 0#9
    nnode := 0#10
    forest := [] } := by
  rw [scanLeaves, h, List.map_nil, arenaOf_nil]
  rfl

/-- R133: the whole run of a BUILD that finds no symbol. -/
theorem engineRun_build_of_no_symbols {s : State} (h : presentSymbols s.freq = []) :
    engineRun 2 (acceptCommand .build s) = { s with
      status := { s.status with busy := false, done := true, inwait := false, err := true, tv := false, cv := false }
      errcode := if s.status.err then s.errcode else .emptyInput
      nleaf := 0#9
      nnode := 0#10
      root := 0#9
      node := clearedNodes
      code := clearedCodes
      forest := []
      engine := none } := by
  have hstart : startBody .build (acceptCommand .build s)
      = goTo .build (.raising .emptyInput) (scanLeaves (acceptCommand .build s)) := by
    rw [startBody, buildStart_eq, acceptCommand_freq, h]
    rfl
  rw [engineRun_of_startBody_raising hstart, completeCommand_of_not_endsSession rfl,
    scanLeaves_of_no_symbols (s := acceptCommand .build s) h]
  rfl

/-- Settles O32: without a count there is no symbol for the scan to find. -/
theorem buildOfNothingRaisesEmptyInput : Obligations.BuildOfNothingRaisesEmptyInput := by
  unfold Obligations.BuildOfNothingRaisesEmptyInput
  intro s hb hfreq
  refine ⟨acceptCommand .build s, 2, _, exec_accepted rfl hb, engineRun_build_of_no_symbols (presentSymbols_eq_nil hfreq), ?_⟩
  exact ⟨nodeAt_clearedNodes, codeAt_clearedCodes, rfl⟩

/-! ## The loop (R141) -/

/-- A merge takes one entry out of the forest. -/
theorem length_forest_mergeStep {s : State} (h : 1 < s.forest.length) :
    (mergeStep s).forest.length + 1 = s.forest.length := by
  obtain ⟨a, b, rest, l, r, hold, hnew, -⟩ := mergeStep_spec h
  rw [hold.length_eq, hnew.length_eq]
  rfl

/-- R139: `k` merges change the arena, NNODE and the forest, and send `k` events. -/
theorem iterate_mergeStep_frame (k : Nat) (s : State) : ∃ node nnode forest evs seen draws, evs.length = k ∧
    mergeStep^[k] s = { s with
      node := node
      nnode := nnode
      forest := forest
      traceSent := s.traceSent ++ evs
      traceSeen := seen
      draws := draws } := by
  induction k generalizing s with
  | zero => exact ⟨s.node, s.nnode, s.forest, [], s.traceSeen, s.draws, rfl, by simp⟩
  | succ k ih =>
    obtain ⟨node, nnode, forest, evs, seen, draws, hlen, h⟩ := ih (mergeStep s)
    obtain ⟨ev, hev⟩ : ∃ ev, (mergeStep s).traceSent = s.traceSent ++ [ev] := ⟨_, rfl⟩
    refine ⟨node, nnode, forest, ev :: evs, seen, draws, by simp [hlen], ?_⟩
    rw [Function.iterate_succ_apply, h, hev, List.append_assoc]
    rfl

/-- R141: the loop on a forest of `k + 1` entries is `k` merges, and the last entry becomes the root. -/
theorem engineRun_buildLoop {k : Nat} {s : State} (h : s.forest.length = k + 1) :
    engineRun (k + 2) (goTo .build .buildLoop s) = completeCommand .build (finishTree (mergeStep^[k] s)) := by
  induction k generalizing s with
  | zero =>
    have hfinish : engineTurn (goTo .build .buildLoop s) = goTo .build .complete (finishTree s) :=
      engineTurn_at rfl (by simp) ((engineStep_buildLoop rfl).trans (congrArg some (buildLoop_finish .build h)))
    rw [engineRun_succ, hfinish, engineRun_succ, engineRun_zero,
      engineTurn_at (goTo_engine .build .complete _) (by simp) (engineStep_complete rfl), completeCommand_goTo]
    rfl
  | succ k ih =>
    have hmore : 1 < s.forest.length := by omega
    have hmerge : engineTurn (goTo .build .buildLoop s) = goTo .build .buildLoop (mergeStep s) :=
      engineTurn_at rfl (by simp) ((engineStep_buildLoop rfl).trans (congrArg some (buildLoop_merge .build hmore)))
    rw [engineRun_succ, hmerge, ih (by have := length_forest_mergeStep hmore; omega), Function.iterate_succ_apply]

/-- R131 to R141: BUILD of `k + 1` symbols is the leaf scan, `k` merges and the root. -/
theorem engineRun_build {k : Nat} {s : State} (h : (presentSymbols s.freq).length = k + 1) :
    engineRun (k + 3) (acceptCommand .build s)
      = completeCommand .build (finishTree (mergeStep^[k] (scanLeaves (acceptCommand .build s)))) := by
  have hstart : engineTurn (acceptCommand .build s) = goTo .build .buildLoop (scanLeaves (acceptCommand .build s)) := by
    have hne : (presentSymbols s.freq).isEmpty = false :=
      List.isEmpty_eq_false_iff.mpr (List.ne_nil_of_length_eq_add_one h)
    rw [engineTurn_accepted, startBody, buildStart_eq, acceptCommand_freq, hne]
    rfl
  rw [engineRun_succ, hstart]
  exact engineRun_buildLoop ((length_forest_scanLeaves _).trans h)

/-! ## BUILD depends on FREQ alone (R144 (d)) -/

/-- What a merge reads is the same: the arena, its counters and the forest. -/
structure SameForest (s t : State) : Prop where
  node : t.node = s.node
  nleaf : t.nleaf = s.nleaf
  nnode : t.nnode = s.nnode
  forest : t.forest = s.forest

/-- Merges of the same forest send the same event. -/
theorem SameForest.mergeStep {s t : State} (h : SameForest s t) : SameForest (mergeStep s) (mergeStep t)
    ∧ ∃ ev, (mergeStep s).traceSent = s.traceSent ++ [ev] ∧ (mergeStep t).traceSent = t.traceSent ++ [ev] := by
  obtain ⟨hnode, hnleaf, hnnode, hforest⟩ := h
  refine ⟨⟨?_, ?_, ?_, ?_⟩, _, rfl, ?_⟩ <;> simp only [Machine.mergeStep, hnode, hnleaf, hnnode, hforest] <;> rfl

/-- `k` merges of the same forest send the same events. -/
theorem SameForest.iterate (k : Nat) {s t : State} (h : SameForest s t) :
    SameForest (Machine.mergeStep^[k] s) (Machine.mergeStep^[k] t)
      ∧ ∃ evs, (Machine.mergeStep^[k] s).traceSent = s.traceSent ++ evs
        ∧ (Machine.mergeStep^[k] t).traceSent = t.traceSent ++ evs := by
  induction k generalizing s t with
  | zero => exact ⟨h, [], by simp⟩
  | succ k ih =>
    obtain ⟨hm, ev, hs, ht⟩ := h.mergeStep
    obtain ⟨hk, evs, hks, hkt⟩ := ih hm
    exact ⟨hk, ev :: evs, by simp [hks, hs], by simp [hkt, ht]⟩

/-- R132: the leaves of one vector are one forest. -/
theorem sameForest_scanLeaves {s t : State} (h : t.freq = s.freq) : SameForest (scanLeaves s) (scanLeaves t) := by
  constructor <;> simp only [scanLeaves, h]

/-- Settles O34: the leaf scan reads FREQ alone, a merge the forest alone. -/
theorem buildDependsOnFreqAlone : Obligations.BuildDependsOnFreqAlone := by
  unfold Obligations.BuildDependsOnFreqAlone
  intro s s' hb hb' hfreq
  refine ⟨acceptCommand .build s, acceptCommand .build s', (presentSymbols s.freq).length + 2, ?_⟩
  cases hn : (presentSymbols s.freq).length with
  | zero =>
    have hnone := List.length_eq_zero_iff.mp hn
    refine ⟨[], exec_accepted rfl hb, exec_accepted rfl hb', ?_⟩
    rw [engineRun_build_of_no_symbols hnone, engineRun_build_of_no_symbols (hfreq ▸ hnone)]
    simp
  | succ k =>
    have hscan : SameForest (scanLeaves (acceptCommand .build s)) (scanLeaves (acceptCommand .build s')) :=
      sameForest_scanLeaves hfreq.symm
    obtain ⟨same, evs, hs, hs'⟩ := hscan.iterate k
    refine ⟨evs, exec_accepted rfl hb, exec_accepted rfl hb', ?_⟩
    rw [engineRun_build hn, engineRun_build (hfreq ▸ hn)]
    simp [finishTree, same.node, same.nleaf, same.nnode, same.forest, hs, hs']

/-! ## The tree (R43, R132) -/

/-- R132: the leaves of `s` are those of the symbols with a count in `freq`, in ascending order. -/
def HoldsLeaves (freq : Vector Word 256) (s : State) : Prop :=
  (List.range s.nleaf.toNat).map (nodeNo s) = (presentSymbols freq).map (leafOf freq)

/-- R132: a count keeps its value in the wider field. -/
@[simp] theorem toNat_frq_leafOf (freq : Vector Word 256) (x : Sym) :
    (leafOf freq x).frq.toNat = (freqAt freq x).toNat := by
  have := (freqAt freq x).isLt
  rw [leafOf, BitVec.toNat_setWidth, Nat.mod_eq_of_lt (by omega)]

/-- An absent symbol counts nothing. -/
theorem sum_presentSymbols (freq : Vector Word 256) : ((presentSymbols freq).map fun x => (freqAt freq x).toNat).sum
    = ((List.range 256).map fun x => (freqAt freq (BitVec.ofNat 8 x)).toNat).sum := by
  have hpos (x : Sym) : decide (0#32 < freqAt freq x) = ((freqAt freq x).toNat != 0) := by
    rw [Bool.eq_iff_iff, decide_eq_true_iff, bne_iff_ne, BitVec.lt_def]
    exact Nat.pos_iff_ne_zero
  calc ((presentSymbols freq).map fun x => (freqAt freq x).toNat).sum
    _ = ((((List.range 256).map (BitVec.ofNat 8)).map fun x => (freqAt freq x).toNat).filter (· != 0)).sum := by
      simp only [presentSymbols, hpos, List.filter_map (f := fun x => (freqAt freq x).toNat), Function.comp_def]
    _ = (((List.range 256).map (BitVec.ofNat 8)).map fun x => (freqAt freq x).toNat).sum := List.sum_filter_bne_zero _
    _ = ((List.range 256).map fun x => (freqAt freq (BitVec.ofNat 8 x)).toNat).sum := by rw [List.map_map]; rfl

section
variable {freq : Vector Word 256} {s : State} (h : HoldsLeaves freq s)
include h

/-- R37: NLEAF counts the symbols with a count. -/
theorem HoldsLeaves.nleaf_toNat : s.nleaf.toNat = (presentSymbols freq).length := by
  simpa using congrArg List.length h

/-- R132: a leaf's frequency is its symbol's count. -/
theorem HoldsLeaves.leavesOf : LeavesOf s freq where
  present x := by
    have hsyms : (List.range s.nleaf.toNat).map (fun n => (nodeNo s n).sym) = presentSymbols freq := by
      simpa [Function.comp_def, leafOf] using congrArg (List.map Node.sym) h
    rw [← mem_presentSymbols, ← hsyms]
    simp
  counts n hn := by
    have hmem : nodeNo s n ∈ (presentSymbols freq).map (leafOf freq) := h ▸ List.mem_map_of_mem (List.mem_range.mpr hn)
    obtain ⟨x, -, hx⟩ := List.mem_map.mp hmem
    rw [← hx, toNat_frq_leafOf, leafOf]

/-- R144 (a): the leaves' counts sum to the counts of all symbols, for an absent one counts nothing. -/
theorem HoldsLeaves.sum_eq : ((List.range s.nleaf.toNat).map fun n => (nodeNo s n).frq.toNat).sum
    = ((List.range 256).map fun x => (freqAt freq (BitVec.ofNat 8 x)).toNat).sum := by
  have hcounts : ((List.range s.nleaf.toNat).map fun n => (nodeNo s n).frq.toNat)
      = (presentSymbols freq).map fun x => (freqAt freq x).toNat := by
    simpa [Function.comp_def] using congrArg (List.map fun e => e.frq.toNat) h
  rw [hcounts, sum_presentSymbols]

end

/-- BUILD in its loop: the arena holds a forest over the leaves of `freq`. -/
structure Building (freq : Vector Word 256) (s : State) : Prop where
  arena : ArenaInv s s.forest
  leaves : HoldsLeaves freq s

/-- R132: the loop begins with the leaves. -/
theorem building_scanLeaves (s : State) : Building s.freq (scanLeaves s) where
  arena := .leaves s.freq rfl rfl rfl
  leaves := by
    have hle := length_presentSymbols_le s.freq
    have hnleaf : (scanLeaves s).nleaf.toNat = (presentSymbols s.freq).length := toNat_ofNat_idx (by omega)
    refine List.ext_getElem (by simp [hnleaf]) fun n _ hn => ?_
    rw [List.length_map] at hn
    simp [nodeNo_of_arenaOf (s := scanLeaves s) rfl (show n < 511 by omega), hn]

section
variable {freq : Vector Word 256} {s : State} (h : Building freq s)
include h

/-- R139: a merge allocates above the leaves. -/
theorem Building.mergeStep (hlen : 1 < s.forest.length) : Building freq (mergeStep s) where
  arena := h.arena.mergeStep hlen
  leaves := by
    obtain ⟨a, b, rest, l, r, hold, -, -, ht⟩ := mergeStep_spec hlen
    have hroom := (h.arena.perm hold).merge_room
    have hle := h.arena.nleaf_le
    refine Eq.trans ?_ h.leaves
    rw [ht.nleaf]
    refine List.map_congr_left fun n hn => ?_
    have := List.mem_range.mp hn
    exact ht.nodeNo_old hroom (by omega) (by omega)

/-- R139: `k` merges make one tree of `k + 1`. -/
theorem Building.iterate {k : Nat} (hlen : s.forest.length = k + 1) :
    Building freq (Machine.mergeStep^[k] s) ∧ (Machine.mergeStep^[k] s).forest.length = 1 := by
  induction k generalizing s with
  | zero => exact ⟨h, hlen⟩
  | succ k ih =>
    have hmore : 1 < s.forest.length := by omega
    have := length_forest_mergeStep hmore
    exact ih (h.mergeStep hmore) (by omega)

/-- R134, R140: the sole root is the tree's, and completion leaves the tree. -/
theorem Building.finish (hlen : s.forest.length = 1) {u : State} (hu : u = completeCommand .build (finishTree s)) :
    ArenaInv u [u.root] ∧ HoldsLeaves freq u := by
  subst hu
  obtain ⟨r, hr⟩ := List.length_eq_one_iff.mp hlen
  have hroot : (completeCommand .build (finishTree s)).root = r := by simp [finishTree, hr]
  rw [hroot, ← hr]
  exact ⟨h.arena.congr rfl rfl rfl, h.leaves⟩

end

/-- Settles O33: the leaf scan begins a forest, each merge takes one root away, and the last root is the tree's. -/
theorem buildBuildsTheTree : Obligations.BuildBuildsTheTree := by
  unfold Obligations.BuildBuildsTheTree
  rintro s hb ⟨x, hx⟩
  obtain ⟨k, hk⟩ : ∃ k, (presentSymbols s.freq).length = k + 1 :=
    Nat.exists_eq_succ_of_ne_zero (List.length_pos_of_mem ((mem_presentSymbols s.freq x).mpr hx)).ne'
  obtain ⟨hbuilding, hone⟩ :=
    (building_scanLeaves (acceptCommand .build s)).iterate ((length_forest_scanLeaves _).trans hk)
  obtain ⟨harena, hleaves⟩ := hbuilding.finish hone rfl
  obtain ⟨node, nnode, forest, evs, seen, draws, hevs, hframe⟩ :=
    iterate_mergeStep_frame k (scanLeaves (acceptCommand .build s))
  have hsum := harena.sum.trans hleaves.sum_eq
  rw [List.map_singleton, List.sum_singleton] at hsum
  refine ⟨acceptCommand .build s, k + 3, _, exec_accepted rfl hb, engineRun_build hk, harena, hleaves.leavesOf,
    harena.root_last, harena.count, hsum, ⟨evs, ?_, ?_⟩, ?_, ?_⟩
  · rw [hframe]
    rfl
  · rw [hevs, hleaves.nleaf_toNat]
    exact hk.symm
  · rw [hframe]
    exact codeAt_clearedCodes
  · rw [hframe]
    rfl

end Sys2Proof.Machine
end

