-- ==== Sys2Proof/Proofs/Derive.lean ====
section
/-! PROOF. DERIVE from its acceptance to its completion (spec/42_code_table.md): a tree that is a single Leaf (O38), and the traversal
of any tree (O37). -/

namespace Sys2Proof.Machine

/-! ## DERIVE's micro-steps (R150 to R152) -/

/-- R150: DERIVE while it runs: CV is 0, the table so far is `code`, and no visit waits. -/
def withTable (code : Vector Code 256) (s : State) : State := { s with status.cv := false, code := code, stack := [] }

/-- R151: a tree that is a single Leaf gives that leaf's symbol the code "0". -/
theorem deriveStart_leaf {s : State} (htv : s.status.tv = true) (hk : (nodeAt s.node s.root).kind = .leaf) :
    deriveStart s
      = goTo .derive .deriveDone (withTable (setCode clearedCodes (nodeAt s.node s.root).sym ⟨1#8, 0#256⟩) s) := by
  simp only [deriveStart, htv, hk, if_true, withTable]

/-- R150: any other tree is traversed from its root, with an empty table. -/
theorem deriveStart_internal {s : State} (htv : s.status.tv = true) (hk : (nodeAt s.node s.root).kind = .internal) :
    deriveStart s = goTo .derive (.deriveVisit ⟨s.root, 0#8, 0#256⟩) (withTable clearedCodes s) := by
  simp only [deriveStart, htv, hk, if_true, withTable]

/-- R152: where the traversal goes on does not depend on where the engine stands. -/
theorem nextVisit_goTo (c d : Instr) (p : Point) (s : State) : nextVisit c (goTo d p s) = nextVisit c s := by
  unfold nextVisit
  rw [goTo_stack]
  split <;> rfl

/-- R152: the visit of a Leaf records its code. -/
theorem engineTurn_visit_leaf {s : State} {c : Instr} {v : Visit} (hk : (nodeAt s.node v.node).kind = .leaf) :
    engineTurn (goTo c (.deriveVisit v) s)
      = nextVisit c { s with code := setCode s.code (nodeAt s.node v.node).sym ⟨v.len, v.val⟩ } := by
  rw [engineTurn_at rfl (by simp) (engineStep_deriveVisit rfl), ← nextVisit_goTo c c (.deriveVisit v)]
  simp only [deriveVisit, goTo_node, hk]
  rfl

/-- R152: the visit of an Internal node goes on to its left child, and its right child waits. -/
theorem engineTurn_visit_internal {s : State} {c : Instr} {v : Visit} (hk : (nodeAt s.node v.node).kind = .internal) :
    engineTurn (goTo c (.deriveVisit v) s)
      = goTo c (.deriveVisit ⟨(nodeAt s.node v.node).left, v.len + 1#8, v.val <<< 1⟩)
        { s with stack := ⟨(nodeAt s.node v.node).right, v.len + 1#8, (v.val <<< 1) + 1#256⟩ :: s.stack } := by
  rw [engineTurn_at rfl (by simp) (engineStep_deriveVisit rfl)]
  simp only [deriveVisit, goTo_node, hk]
  rfl

/-- R150, R102: once every leaf is recorded, CV rises and the command completes. -/
theorem engineRun_deriveDone (s : State) : engineRun 2 (goTo .derive .deriveDone s) = { s with
    status := { s.status with busy := false, done := true, inwait := false, cv := true }
    engine := none } := by
  have hdone : engineTurn (goTo .derive .deriveDone s) = goTo .derive .complete { s with status.cv := true } :=
    engineTurn_at rfl (by simp) (engineStep_deriveDone rfl)
  rw [engineRun_succ, hdone, engineRun_succ, engineRun_zero,
    engineTurn_at (goTo_engine .derive .complete _) (by simp) (engineStep_complete rfl), completeCommand_goTo,
    completeCommand_of_not_endsSession rfl]

/-! ## The traversal (R152) -/

/-- R152: the visit of a node runs through its whole subtree, and then goes on with the stack as the visit found it. -/
theorem engineRun_deriveVisit {s : State} (h : ArenaInv s [s.root]) {v : Visit} (hv : VisitsLeft s (v :: s.stack)) :
    ∃ k code, engineRun k (goTo .derive (.deriveVisit v) s) = nextVisit .derive { s with code := code }
      ∧ VisitsLeft { s with code := code } s.stack := by
  induction hn : v.node.toNat using Nat.strong_induction_on generalizing s v with
  | _ n ih =>
    subst hn
    cases hk : (nodeAt s.node v.node).kind with
    | leaf => exact ⟨1, _, engineTurn_visit_leaf hk, hv.leaf h hk ⟨rfl, rfl, rfl, rfl, rfl, rfl⟩ rfl⟩
    | internal =>
      have hchild := h.childOf_lt (hv.head_allocated h) hk
      obtain ⟨i, codeL, hrunL, hvL⟩ := ih _ (hchild false)
        (s := { s with stack := ⟨(nodeAt s.node v.node).right, v.len + 1#8, (v.val <<< 1) + 1#256⟩ :: s.stack })
        (v := ⟨(nodeAt s.node v.node).left, v.len + 1#8, v.val <<< 1⟩)
        (h.congr rfl rfl rfl) ((hv.internal h hk).same ⟨rfl, rfl, rfl, rfl, rfl, rfl⟩ rfl) rfl
      obtain ⟨j, codeR, hrunR, hvR⟩ := ih _ (hchild true)
        (s := { s with code := codeL })
        (v := ⟨(nodeAt s.node v.node).right, v.len + 1#8, (v.val <<< 1) + 1#256⟩)
        (h.congr rfl rfl rfl) (hvL.same ⟨rfl, rfl, rfl, rfl, rfl, rfl⟩ rfl) rfl
      refine ⟨i + j + 1, codeR, ?_, hvR⟩
      rw [engineRun_succ, engineTurn_visit_internal hk, engineRun_add, hrunL]
      exact hrunR

/-- R150 to R152: DERIVE on a tree comes to its end with the code table of the tree. -/
theorem engineRun_derive {s : State} (htv : s.status.tv = true) (h : ArenaInv s [s.root]) :
    ∃ k code, CodesMatch { s with code := code }
      ∧ engineRun k (acceptCommand .derive s) = goTo .derive .deriveDone (withTable code (acceptCommand .derive s)) := by
  cases hk : (nodeAt s.node s.root).kind with
  | leaf =>
    refine ⟨1, setCode clearedCodes (nodeAt s.node s.root).sym ⟨1#8, 0#256⟩, codesMatch_single (h.congr rfl rfl rfl) hk rfl, ?_⟩
    exact (engineTurn_accepted .derive s).trans (deriveStart_leaf (s := acceptCommand .derive s) htv hk)
  | internal =>
    obtain ⟨k, code, hrun, hv⟩ := engineRun_deriveVisit (s := withTable clearedCodes (acceptCommand .derive s))
      (h.congr rfl rfl rfl) (visitsLeft_root (h.congr rfl rfl rfl) hk rfl)
    refine ⟨k + 1, code, hv.codesMatch.same ⟨rfl, rfl, rfl, rfl, rfl, rfl⟩ rfl, ?_⟩
    rw [engineRun_succ, engineTurn_accepted, startBody, deriveStart_internal (s := acceptCommand .derive s) htv hk]
    exact hrun

/-- Settles O37: the traversal records every leaf of the root's subtree, which is the whole tree. -/
theorem deriveDerivesTheCodes : Obligations.DeriveDerivesTheCodes := by
  unfold Obligations.DeriveDerivesTheCodes
  intro s hb htv h
  obtain ⟨k, code, hcodes, hrun⟩ := engineRun_derive htv h
  refine ⟨acceptCommand .derive s, k + 2, _, exec_accepted rfl hb, rfl, ?_⟩
  rw [engineRun_add, hrun, engineRun_deriveDone]
  exact ⟨hcodes.same ⟨rfl, rfl, rfl, rfl, rfl, rfl⟩ rfl, rfl⟩

/-! ## The single Leaf (R151) -/

/-- R151: DERIVE on a tree that is a single Leaf. -/
theorem engineRun_derive_leaf {s : State} (htv : s.status.tv = true) (hk : (nodeAt s.node s.root).kind = .leaf) :
    engineRun 3 (acceptCommand .derive s) = { s with
      status := { s.status with busy := false, done := true, inwait := false, cv := true }
      code := setCode clearedCodes (nodeAt s.node s.root).sym ⟨1#8, 0#256⟩
      stack := []
      engine := none } := by
  rw [engineRun_succ, engineTurn_accepted, startBody, deriveStart_leaf (s := acceptCommand .derive s) htv hk,
    engineRun_deriveDone]
  rfl

/-- Settles O38: the table is clear but for the leaf's symbol; a root that is a Leaf is the whole tree. -/
theorem singleLeafGetsTheCodeZero : Obligations.SingleLeafGetsTheCodeZero := by
  unfold Obligations.SingleLeafGetsTheCodeZero
  refine ⟨fun s h => h.root_kind.trans (BitVec.toNat_inj (y := 1#9)), fun s hb htv hk => ?_⟩
  refine ⟨acceptCommand .derive s, 3, _, exec_accepted rfl hb, engineRun_derive_leaf htv hk, ?_, fun x hx => ?_, rfl⟩
  · exact codeAt_setCode_self _ _ _
  · exact (codeAt_setCode_other _ _ hx.symm).trans (codeAt_clearedCodes x)

end Sys2Proof.Machine
end

