-- ==== Sys2Proof/Proofs/CodeTable.lean ====
section
/-! PROOF. What the code table of a tree satisfies (R154): no code is the beginning of another (O39), the lengths are bounded (O41),
and their Kraft sum is 1 (O40). -/

namespace Sys2Proof.Machine

/-! ## Paths that go on (R152) -/

/-- A path may be followed in two parts. -/
theorem follow_append (node : Vector Node 511) (n : NodeIdx) (as bs : List Bool) :
    follow node n (as ++ bs) = (follow node n as).bind fun m => follow node m bs := by
  induction as generalizing n with
  | nil => rfl
  | cons a as ih =>
    rw [List.cons_append, follow, follow]
    split
    · exact ih _
    · rfl

/-- A path of one bit or more comes to its end from the parent. -/
theorem exists_parent_of_follow {node : Vector Node 511} {n k : NodeIdx} {bits : List Bool} {b : Bool}
    (h : follow node n (bits ++ [b]) = some k) :
    ∃ m, follow node n bits = some m ∧ (nodeAt node m).kind = .internal ∧ childOf (nodeAt node m) b = k := by
  rw [follow_append, Option.bind_eq_some_iff] at h
  obtain ⟨m, hm, hk⟩ := h
  rw [follow] at hk
  split at hk
  · exact ⟨m, hm, ‹_›, Option.some.inj hk⟩
  · simp at hk

/-! ## The coded symbols (R154 (a)) -/

section
variable {s : State} (hc : CodesMatch s)
include hc

/-- R154 (a): exactly the leaves' symbols have codes. -/
theorem CodesMatch.clen_ne_zero_iff (x : Sym) :
    (codeAt s.code x).clen ≠ 0#8 ↔ ∃ n, n < s.nleaf.toNat ∧ (nodeNo s n).sym = x := by
  constructor
  · intro hx
    by_contra hno
    exact hx (by rw [hc.uncoded x fun n hn he => hno ⟨n, hn, he⟩]; rfl)
  · rintro ⟨n, hn, rfl⟩
    exact (hc.coded n hn).1

/-- R151: in a tree of one Leaf the leaf's code is "0". -/
theorem CodesMatch.code_of_single {n : Nat} (hn : n < s.nleaf.toNat) (hl : s.nleaf.toNat = 1) :
    codeAt s.code (nodeNo s n).sym = ⟨1#8, 0#256⟩ := by
  obtain ⟨-, -, hcode⟩ := hc.coded n hn
  rwa [if_pos (BitVec.toNat_inj (y := 1#9) |>.mp hl)] at hcode

/-- R152: in any other tree a leaf's code is its path from the root. -/
theorem CodesMatch.follow_code {n : Nat} (hn : n < s.nleaf.toNat) (hl : 2 ≤ s.nleaf.toNat) :
    follow s.node s.root (codeBits (codeAt s.code (nodeNo s n).sym)) = some (BitVec.ofNat 9 n) := by
  obtain ⟨-, -, hpath⟩ := hc.coded n hn
  have hne : s.nleaf ≠ 1#9 := by rintro h; simp [h] at hl
  rwa [if_neg hne] at hpath

end

/-! ## One code after another, and lengths (R154 (b), (d)) -/

section
variable {s : State} (h : ArenaInv s [s.root])
include h

/-- R154 (d): the path to an Internal node is at most NLEAF - 2 long, for it goes down the arena at each bit and ends above the
leaves. -/
theorem ArenaInv.length_path_internal {m : NodeIdx} {bits : List Bool} (hf : follow s.node s.root bits = some m)
    (hk : (nodeAt s.node m).kind = .internal) : bits.length + 2 ≤ s.nleaf.toNat := by
  have hlast := h.root_last
  have hcount := h.count
  have hdown := h.follow_le (by omega) hf
  have hint : ¬m.toNat < s.nleaf.toNat := fun hlt => by
    have := (h.kind_iff (by omega)).mpr hlt
    simp [hk] at this
  simp only [List.length_singleton] at hcount
  omega

/-- R154 (d): any path is at most NLEAF - 1 long, for all its nodes but the last are Internal. -/
theorem ArenaInv.length_path {m : NodeIdx} {bits : List Bool} (hf : follow s.node s.root bits = some m) :
    bits.length + 1 ≤ s.nleaf.toNat := by
  obtain rfl | ⟨init, b, rfl⟩ := List.eq_nil_or_concat' bits
  · have := h.root_last
    have hcount := h.count
    rw [List.length_singleton] at hcount
    rw [List.length_nil]
    omega
  · obtain ⟨p, hp, hk, -⟩ := exists_parent_of_follow hf
    have := h.length_path_internal hp hk
    rw [List.length_append, List.length_singleton]
    omega

end

/-- Settles O39: a path that went on from a leaf would end at that leaf, and distinct symbols have distinct leaves. -/
theorem codesArePrefixFree : Obligations.CodesArePrefixFree := by
  unfold Obligations.CodesArePrefixFree
  rintro s h hc x y hxy hx hy ⟨rest, hrest⟩
  obtain ⟨n, hn, rfl⟩ := (hc.clen_ne_zero_iff x).mp hx
  obtain ⟨m, hm, rfl⟩ := (hc.clen_ne_zero_iff y).mp hy
  have hnm : n ≠ m := fun e => hxy (by rw [e])
  have hgo := hc.follow_code hm (by omega)
  rw [← hrest, follow_append, hc.follow_code hn (by omega), Option.bind_some] at hgo
  have hend := congrArg BitVec.toNat (follow_of_leaf (h.leaf n hn).1 hgo)
  have hle := h.leafCount
  rw [toNat_ofNat_idx (by omega), toNat_ofNat_idx (by omega)] at hend
  exact hnm hend.symm

/-- R154 (d): a code of a tree of two leaves or more is at most NLEAF - 1 long. -/
theorem CodesMatch.clen_le {s : State} (hc : CodesMatch s) (h : ArenaInv s [s.root]) {n : Nat} (hn : n < s.nleaf.toNat)
    (hl : 2 ≤ s.nleaf.toNat) : (codeAt s.code (nodeNo s n).sym).clen.toNat ≤ s.nleaf.toNat - 1 := by
  have := h.length_path (hc.follow_code hn hl)
  rw [length_codeBits] at this
  omega

/-- Settles O41: the bound for two leaves is 1. -/
theorem codeLengthsAreBounded : Obligations.CodeLengthsAreBounded := by
  unfold Obligations.CodeLengthsAreBounded
  intro s h hc x
  refine ⟨hc.clen_ne_zero_iff x, fun hx hl => ?_, fun hx hl => ?_⟩
  · obtain ⟨n, hn, rfl⟩ := (hc.clen_ne_zero_iff x).mp hx
    exact hc.clen_le h hn hl
  · obtain ⟨n, hn, rfl⟩ := (hc.clen_ne_zero_iff x).mp hx
    obtain hone | htwo : s.nleaf.toNat = 1 ∨ s.nleaf.toNat = 2 := by omega
    · rw [hc.code_of_single hn hone]
    · have hle := hc.clen_le h hn (by omega)
      bv_omega

/-! ## Each Internal node divides a quantity between its children (R43) -/

/-- What stands once in a list of lists stands in one of them. -/
theorem eq_of_mem_of_nodup_flatMap {α β : Type} {l : List α} {f : α → List β} (h : (l.flatMap f).Nodup) {a b : α}
    (ha : a ∈ l) (hb : b ∈ l) {x : β} (hxa : x ∈ f a) (hxb : x ∈ f b) : a = b := by
  have : Std.Symm (Function.onFun List.Disjoint f) := ⟨fun _ _ hd => hd.symm⟩
  by_contra hne
  exact (List.nodup_flatMap.mp h).2.forall ha hb hne hxa hxb

section
variable {s : State} (h : ArenaInv s [s.root])
include h

/-- R43 (a), (b): the root and the children of the Internal nodes are the allocated nodes. -/
theorem ArenaInv.mem_nodes_iff (x : NodeIdx) : x ∈ s.root :: childList s ↔ x.toNat < s.nnode.toNat := by
  constructor
  · intro hx
    obtain rfl | hx := List.mem_cons.mp hx
    · exact h.rootsIn _ (List.mem_singleton.mpr rfl)
    · exact Nat.lt_of_succ_lt (h.lt_of_mem_childList hx)
  · intro hx
    have honce := h.once x.toNat hx
    rw [ofNat_toNat_idx, ← List.count_append] at honce
    have hmem : x ∈ childList s ++ [s.root] := List.count_pos_iff.mp (by omega)
    simpa [or_comm] using hmem

/-- R43 (b): each of them stands there once. -/
theorem ArenaInv.nodes_nodup : (s.root :: childList s).Nodup := by
  refine List.nodup_iff_count_le_one.mpr fun x => ?_
  by_cases hx : x ∈ s.root :: childList s
  · have honce := h.once x.toNat ((h.mem_nodes_iff x).mp hx)
    rw [ofNat_toNat_idx, ← List.count_append, (List.perm_append_singleton s.root (childList s)).count_eq] at honce
    exact honce.le
  · rw [List.count_eq_zero_of_not_mem hx]
    exact Nat.zero_le 1

/-- R43 (b): the root and the children of the Internal nodes, in the order of the arena. -/
theorem ArenaInv.nodes_perm : (s.root :: childList s).Perm ((List.range s.nnode.toNat).map (BitVec.ofNat 9)) := by
  have hroom := h.nnode_le
  have hnums : ((s.root :: childList s).map BitVec.toNat).Perm (List.range s.nnode.toNat) := by
    refine (List.perm_ext_iff_of_nodup (h.nodes_nodup.map fun _ _ => BitVec.eq_of_toNat_eq) List.nodup_range).mpr fun n => ?_
    rw [List.mem_range, List.mem_map]
    constructor
    · rintro ⟨x, hx, rfl⟩
      exact (h.mem_nodes_iff x).mp hx
    · intro hn
      have hnum := toNat_ofNat_idx (show n < 512 by omega)
      exact ⟨BitVec.ofNat 9 n, (h.mem_nodes_iff _).mpr (by omega), hnum⟩
  simpa [Function.comp_def] using hnums.map (BitVec.ofNat 9)

/-- R43 (b): a node is a child of one Internal node only. -/
theorem ArenaInv.parent_unique {m m' : NodeIdx} (hm : m.toNat < s.nnode.toNat) (hm' : m'.toNat < s.nnode.toNat)
    (hk : (nodeAt s.node m).kind = .internal) (hk' : (nodeAt s.node m').kind = .internal) {b b' : Bool}
    (he : childOf (nodeAt s.node m) b = childOf (nodeAt s.node m') b') : m = m' := by
  have internal {x : NodeIdx} (hx : x.toNat < s.nnode.toNat) (hkx : (nodeAt s.node x).kind = .internal) :
      x.toNat ∈ List.range' s.nleaf.toNat (s.nnode.toNat - s.nleaf.toNat) := by
    have hleaf : ¬x.toNat < s.nleaf.toNat := fun hlt => by
      have := (h.kind_iff hx).mpr hlt
      simp [hkx] at this
    rw [List.mem_range'_1]
    omega
  have child (x : NodeIdx) (b : Bool) :
      childOf (nodeAt s.node x) b ∈ [(nodeNo s x.toNat).left, (nodeNo s x.toNat).right] := by
    rw [nodeNo_toNat]
    cases b <;> simp [childOf]
  obtain ⟨-, hnodup⟩ := List.nodup_cons.mp h.nodes_nodup
  exact BitVec.eq_of_toNat_eq (eq_of_mem_of_nodup_flatMap hnodup (internal hm hk) (internal hm' hk') (child m b) (he ▸ child m' b'))

/-- R43 (b): all paths from the root to a node have one length. -/
theorem ArenaInv.length_path_unique {n : NodeIdx} {p q : List Bool} (hp : follow s.node s.root p = some n)
    (hq : follow s.node s.root q = some n) : p.length = q.length := by
  have hlast := h.root_last
  induction p using List.reverseRecOn generalizing n q with
  | nil =>
    obtain rfl : s.root = n := by simpa [follow] using hp
    have := h.follow_le (by omega) hq
    simp only [List.length_nil]
    omega
  | append_singleton p b ih =>
    have hdown := h.follow_le (by omega) hp
    obtain rfl | ⟨q, b', rfl⟩ := List.eq_nil_or_concat' q
    · obtain rfl : s.root = n := by simpa [follow] using hq
      simp at hdown
    · obtain ⟨m, hpm, hk, hc⟩ := exists_parent_of_follow hp
      obtain ⟨m', hqm, hk', hc'⟩ := exists_parent_of_follow hq
      have hm := h.follow_le (by omega) hpm
      have hm' := h.follow_le (by omega) hqm
      obtain rfl := h.parent_unique (by omega) (by omega) hk hk' (hc.trans hc'.symm)
      simp [ih hpm hqm]

/-- R43: the leaves share out what the root has, if each Internal node shares out what it has between its children. -/
theorem ArenaInv.sum_leaves (w : NodeIdx → Nat)
    (hw : ∀ n, s.nleaf.toNat ≤ n → n < s.nnode.toNat → w (nodeNo s n).left + w (nodeNo s n).right = w (BitVec.ofNat 9 n)) :
    ((List.range s.nleaf.toNat).map fun n => w (BitVec.ofNat 9 n)).sum = w s.root := by
  have hle := h.nleaf_le
  have hall := (h.nodes_perm.map w).sum_eq
  have hsplit : List.range s.nnode.toNat
      = List.range s.nleaf.toNat ++ List.range' s.nleaf.toNat (s.nnode.toNat - s.nleaf.toNat) := by
    have := List.range'_append_1 (s := 0) (m := s.nleaf.toNat) (n := s.nnode.toNat - s.nleaf.toNat)
    rw [Nat.zero_add, Nat.add_sub_cancel' hle] at this
    rw [List.range_eq_range', List.range_eq_range', this]
  have hchildren : ((childList s).map w).sum
      = ((List.range' s.nleaf.toNat (s.nnode.toNat - s.nleaf.toNat)).map fun n => w (BitVec.ofNat 9 n)).sum := by
    rw [childList, List.map_flatMap, List.flatMap_def, List.sum_flatten, List.map_map]
    refine congrArg List.sum (List.map_congr_left fun n hn => ?_)
    rw [List.mem_range'_1] at hn
    rw [← hw n hn.1 (by omega)]
    simp
  simp only [List.map_cons, List.sum_cons, hchildren, hsplit, List.map_append, List.sum_append, List.map_map,
    Function.comp_def] at hall
  omega

/-- R43 (b): every node on a path from the root has one depth. -/
theorem ArenaInv.exists_depth : ∃ depth : NodeIdx → Nat,
    ∀ n bits, follow s.node s.root bits = some n → depth n = bits.length := by
  have depth (n : NodeIdx) : ∃ d, ∀ bits, follow s.node s.root bits = some n → d = bits.length := by
    by_cases hn : ∃ bits, follow s.node s.root bits = some n
    · obtain ⟨p, hp⟩ := hn
      exact ⟨p.length, fun q hq => h.length_path_unique hp hq⟩
    · exact ⟨0, fun q hq => absurd ⟨q, hq⟩ hn⟩
  exact Classical.skolem.mp depth

/-- R154 (c): the leaves' weights, each half its parent's, sum to the root's. -/
theorem ArenaInv.kraft {depth : NodeIdx → Nat}
    (hdepth : ∀ n bits, follow s.node s.root bits = some n → depth n = bits.length) :
    ((List.range s.nleaf.toNat).map fun n => 2 ^ (255 - depth (BitVec.ofNat 9 n))).sum = 2 ^ 255 := by
  have hroot : depth s.root = 0 := hdepth s.root [] rfl
  rw [h.sum_leaves (fun n => 2 ^ (255 - depth n)), hroot]
  intro n hleaf hn
  obtain ⟨hk, -⟩ := h.internal n hn hleaf
  obtain ⟨bits, hpath⟩ := h.reachable n hn
  have child (b : Bool) : depth (childOf (nodeNo s n) b) = bits.length + 1 :=
    (hdepth _ _ (follow_snoc hpath hk b)).trans List.length_append
  have hlen := h.length_path_internal hpath hk
  have hleaves := h.leafCount
  have hl : depth (nodeNo s n).left = bits.length + 1 := child false
  have hr : depth (nodeNo s n).right = bits.length + 1 := child true
  rw [hl, hr, hdepth _ _ hpath, ← Nat.two_mul, ← Nat.pow_succ']
  congr 1
  omega

end

/-! ## The sum over the symbols (R154 (a), (c)) -/

/-- R154 (c): what a symbol adds to the Kraft sum, times 2^255; a symbol without a code adds nothing. -/
def kraftTerm (c : Code) : Nat := if c.clen = 0#8 then 0 else 2 ^ (255 - c.clen.toNat)

/-- R154 (a): only the leaves' symbols add to the sum, and each of them once. -/
theorem CodesMatch.sum_kraftTerm {s : State} (hc : CodesMatch s) (h : ArenaInv s [s.root]) :
    ((List.range 256).map fun x => kraftTerm (codeAt s.code (BitVec.ofNat 8 x))).sum
      = ((List.range s.nleaf.toNat).map fun n => kraftTerm (codeAt s.code (nodeNo s n).sym)).sum := by
  simp only [← List.sum_toFinset _ List.nodup_range, List.toFinset_range]
  refine (Finset.sum_of_injOn (fun n => (nodeNo s n).sym.toNat) (fun m hm n hn he => ?_) (fun n _ => ?_)
    (fun x hx hno => ?_) (fun n _ => ?_)).symm
  · simp only [Finset.coe_range, Set.mem_Iio] at hm hn
    by_contra hne
    exact h.sym_ne hm hn hne (BitVec.eq_of_toNat_eq he)
  · simpa using (nodeNo s n).sym.isLt
  · have hzero : (codeAt s.code (BitVec.ofNat 8 x)).clen = 0#8 := by
      by_contra hx0
      obtain ⟨n, hn, he⟩ := (hc.clen_ne_zero_iff _).mp hx0
      exact hno ⟨n, by simpa using hn, by simpa [Nat.mod_eq_of_lt (Finset.mem_range.mp hx)] using congrArg BitVec.toNat he⟩
    rw [kraftTerm, if_pos hzero]
  · simp

/-- Settles O40: a leaf's weight is its code's term, for its depth is the length of its code. -/
theorem kraftSumIsOne : Obligations.KraftSumIsOne := by
  unfold Obligations.KraftSumIsOne
  intro s h hc hl
  obtain ⟨depth, hdepth⟩ := h.exists_depth
  have hterm (n : Nat) (hn : n < s.nleaf.toNat) :
      kraftTerm (codeAt s.code (nodeNo s n).sym) = 2 ^ (255 - depth (BitVec.ofNat 9 n)) := by
    rw [kraftTerm, if_neg (hc.coded n hn).1, hdepth _ _ (hc.follow_code hn hl), length_codeBits]
  calc ((List.range 256).map fun x => kraftTerm (codeAt s.code (BitVec.ofNat 8 x))).sum
    _ = ((List.range s.nleaf.toNat).map fun n => kraftTerm (codeAt s.code (nodeNo s n).sym)).sum := hc.sum_kraftTerm h
    _ = ((List.range s.nleaf.toNat).map fun n => 2 ^ (255 - depth (BitVec.ofNat 9 n))).sum :=
      congrArg List.sum (List.map_congr_left fun n hn => hterm n (List.mem_range.mp hn))
    _ = 2 ^ 255 := h.kraft hdepth

end Sys2Proof.Machine
end

