-- ==== Sys2Proof/Proofs/Runs.lean ====
section
/-! SUPPORT. Runs in which the host is silent and its sink takes every byte at once (R96): each turn of the engine is a step, and a
byte that is offered is accepted before the engine goes on (R79). -/

namespace Sys2Proof.Machine

/-- A run of no steps. -/
theorem Reaches.refl (s : State) : Reaches s s := ⟨0, rfl⟩

/-- A run that begins with the step from `s` to `t`. -/
theorem Reaches.head {s t u : State} (h : step s = .next t) (htu : Reaches t u) : Reaches s u := by
  obtain ⟨k, hk⟩ := htu
  have hcore : core.step s = .next t := h
  exact ⟨k + 1, by simpa only [Host.Core.run, hcore] using hk⟩

theorem Reaches.of_step {s t : State} (h : step s = .next t) : Reaches s t := .head h (.refl t)

theorem Reaches.trans {s t u : State} (hst : Reaches s t) (htu : Reaches t u) : Reaches s u := by
  obtain ⟨k, hk⟩ := hst
  induction k generalizing s with
  | zero => exact Host.Outcome.next.inj hk ▸ htu
  | succ k ih =>
    cases hs : core.step s with
    | next v =>
      simp only [Host.Core.run, hs] at hk
      exact .head hs (ih hk)
    | fault r | refused r => simp [Host.Core.run, hs] at hk

/-- With no move planned, a step is the turn of whoever else can move. -/
theorem step_of_no_agenda {s : State} (h : s.agenda = []) : step s = .next (restTurn s) := by
  simp only [step, turn, h]

/-- In a quiet state the engine has the turn. -/
theorem Quiet.reaches_engineTurn {s : State} (h : Quiet s) : Reaches s (engineTurn s) := by
  obtain ⟨ha, hr, ho⟩ := h
  refine .of_step ?_
  rw [step_of_no_agenda ha, restTurn, if_pos hr, ho]

/-- R245: from a place at which no error is raised, the engine's turn is its next micro-step. -/
theorem Quiet.reaches_of_engineStep {s t : State} {c : Instr} {p : Point} (h : Quiet s) (hp : ∀ e, p ≠ .raising e)
    (hstep : engineStep (goTo c p s) = some t) : Reaches (goTo c p s) t := by
  have hquiet : Quiet (goTo c p s) := h
  exact engineTurn_at (goTo_engine c p s) hp hstep ▸ hquiet.reaches_engineTurn

/-- R79: a byte offered to a sink that is ready is accepted in the next step. -/
theorem Quiet.reaches_accepted {s : State} (h : Quiet s) (c : Instr) (p : Point) (v : Byte) :
    Reaches (goTo c p (offerOut v s)) (goTo c p { s with sink := s.sink ++ [v] }) := by
  obtain ⟨ha, hr, ho⟩ := h
  refine .of_step ?_
  rw [step_of_no_agenda (by simpa using ha), restTurn, if_pos (by simpa using hr), goTo_outPend, offerOut_outPend]
  simp only [acceptOut, goTo, offerOut, ← ho]

/-- R102: the completion. -/
theorem Quiet.reaches_completed {s : State} (h : Quiet s) (c : Instr) :
    Reaches (goTo c .complete s) (completeCommand c s) :=
  h.reaches_of_engineStep (by simp) ((engineStep_complete rfl).trans (congrArg some (completeCommand_goTo c c .complete s)))

/-- R213: an error and the completion that follows it. -/
theorem Quiet.reaches_failed {s : State} (h : Quiet s) (c : Instr) (e : ErrCode) :
    Reaches (goTo c (.raising e) s) (completeCommand c (raiseError e s)) := by
  have hquiet : Quiet (goTo c (.raising e) s) := h
  have hturn : engineTurn (goTo c (.raising e) s) = completeCommand c (raiseError e s) :=
    (engineTurn_raising (goTo_engine c (.raising e) s)).trans (completeCommand_goTo c c (.raising e) (raiseError e s))
  exact hturn ▸ hquiet.reaches_engineTurn

end Sys2Proof.Machine
end

