-- ==== Sys2Proof/Proofs/BitStream.lean ====
section
/-! SUPPORT. A bit stream as the bit packer holds it (spec/20_memory.md R80): the whole bytes it fills, the bits left over, and the
packer that holds these. -/

namespace Sys2Proof.Machine

/-- R47: the bits of a stream that fill no whole byte. -/
def lastBits (bits : List Bool) : List Bool := bits.drop (8 * (bits.length / 8))

/-- R80: the packer once `bits` have entered it. -/
def packerOf (bits : List Bool) : Packer := ⟨byteOf (lastBits bits), BitVec.ofNat 3 bits.length⟩

/-! ## A byte of bits -/

/-- R80: ACC doubles with each bit, and its top bit is lost. -/
theorem toNat_shiftIn (acc : Byte) (b : Bool) : (shiftIn acc b).toNat = (2 * acc.toNat + b.toNat) % 256 := by
  have hb : b.toNat < 2 ^ 1 := b.toNat_lt
  simp only [shiftIn, BitVec.toNat_append, BitVec.toNat_ofBool, BitVec.extractLsb'_toNat, Nat.shiftRight_zero]
  rw [← Nat.shiftLeft_add_eq_or_of_lt hb, Nat.shiftLeft_eq]
  omega

/-- R80: the next bit shifts in below the bits before it. -/
theorem byteOf_snoc (bits : List Bool) (b : Bool) : byteOf (bits ++ [b]) = shiftIn (byteOf bits) b := by
  refine BitVec.eq_of_toNat_eq ?_
  simp only [toNat_shiftIn, byteOf, List.foldl_append, List.foldl_cons, List.foldl_nil, BitVec.toNat_ofNat]
  omega

theorem shiftIn_false (acc : Byte) : shiftIn acc false = acc <<< 1 := by
  refine BitVec.eq_of_toNat_eq ?_
  rw [toNat_shiftIn, BitVec.toNat_shiftLeft, Nat.shiftLeft_eq, Bool.toNat_false]
  omega

/-- R80: zero bits below are a shift. -/
theorem byteOf_append_zeros (bits : List Bool) (k : Nat) :
    byteOf (bits ++ List.replicate k false) = byteOf bits <<< k := by
  induction k with
  | zero => simp
  | succ k ih => rw [List.replicate_succ', ← List.append_assoc, byteOf_snoc, ih, shiftIn_false, BitVec.shiftLeft_add]

/-! ## Whole bytes and the bits left over -/

theorem wholeBytes_of_length_lt {bits : List Bool} (h : bits.length < 8) : wholeBytes bits = [] := by
  rw [wholeBytes, Nat.div_eq_of_lt h]
  rfl

theorem wholeBytes_of_length_eq {bits : List Bool} (h : bits.length = 8) : wholeBytes bits = [byteOf bits] := by
  simp [wholeBytes, h, List.take_of_length_le h.le]

/-- A stream may be cut between two of its bytes. -/
theorem wholeBytes_append {w : List Bool} (h : 8 ∣ w.length) (r : List Bool) :
    wholeBytes (w ++ r) = wholeBytes w ++ wholeBytes r := by
  obtain ⟨n, hn⟩ := h
  have hlen : (w ++ r).length / 8 = n + r.length / 8 := by rw [List.length_append]; omega
  have hhead (k : Nat) (hk : k < n) : ((w ++ r).drop (8 * k)).take 8 = (w.drop (8 * k)).take 8 := by
    rw [List.drop_append_of_le_length (by omega), List.take_append_of_le_length (by rw [List.length_drop]; omega)]
  have htail (k : Nat) : (w ++ r).drop (8 * (n + k)) = r.drop (8 * k) := by
    rw [Nat.mul_add, ← hn, List.drop_length_add_append]
  rw [wholeBytes, wholeBytes, wholeBytes, hlen, show w.length / 8 = n by omega, List.range_add, List.map_append, List.map_map]
  congr 1
  · exact List.map_congr_left fun k hk => congrArg byteOf (hhead k (List.mem_range.mp hk))
  · exact List.map_congr_left fun k _ => by simp only [Function.comp_apply, htail]

theorem length_lastBits (bits : List Bool) : (lastBits bits).length = bits.length % 8 := by
  rw [lastBits, List.length_drop]
  omega

theorem lastBits_of_dvd {bits : List Bool} (h : 8 ∣ bits.length) : lastBits bits = [] := by
  rw [← List.length_eq_zero_iff, length_lastBits, Nat.mod_eq_zero_of_dvd h]

/-- The last bits follow a stream of whole bytes. -/
theorem exists_append_lastBits (bits : List Bool) : ∃ w, 8 ∣ w.length ∧ bits = w ++ lastBits bits := by
  refine ⟨bits.take (8 * (bits.length / 8)), ⟨bits.length / 8, ?_⟩, (List.take_append_drop _ _).symm⟩
  rw [List.length_take]
  omega

/-- What follows a stream joins its last bits, and its whole bytes stand. -/
theorem wholeBytes_append_eq (bits r : List Bool) : wholeBytes (bits ++ r) = wholeBytes bits ++ wholeBytes (lastBits bits ++ r) := by
  obtain ⟨w, hw, hbits⟩ := exists_append_lastBits bits
  have hlast : wholeBytes (lastBits bits) = [] := wholeBytes_of_length_lt (by rw [length_lastBits]; omega)
  calc wholeBytes (bits ++ r)
    _ = wholeBytes (w ++ (lastBits bits ++ r)) := by rw [← List.append_assoc, ← hbits]
    _ = wholeBytes (w ++ lastBits bits) ++ wholeBytes (lastBits bits ++ r) := by
      rw [wholeBytes_append hw, wholeBytes_append hw, hlast, List.append_nil]
    _ = wholeBytes bits ++ wholeBytes (lastBits bits ++ r) := by rw [← hbits]

/-- Bits that do not complete a byte join the last bits. -/
theorem lastBits_append {bits r : List Bool} (h : bits.length % 8 + r.length < 8) : lastBits (bits ++ r) = lastBits bits ++ r := by
  rw [lastBits, lastBits, List.length_append, show (bits.length + r.length) / 8 = bits.length / 8 by omega,
    List.drop_append_of_le_length (by omega)]

/-! ## The packer -/

theorem ofNat_eq_zero_iff_dvd (n : Nat) : BitVec.ofNat 3 n = 0#3 ↔ 8 ∣ n := by
  rw [← BitVec.toNat_inj, BitVec.toNat_ofNat]
  exact Nat.dvd_iff_mod_eq_zero.symm

/-- R47: NACC is 0 between two bytes. -/
theorem packerOf_nacc_eq_zero_iff (bits : List Bool) : (packerOf bits).nacc = 0#3 ↔ 8 ∣ bits.length :=
  ofNat_eq_zero_iff_dvd _

/-- R80: NACC wraps to 0 when the next bit completes a byte (log 11). -/
theorem packerOf_nacc_succ_eq_zero_iff (bits : List Bool) : (packerOf bits).nacc + 1#3 = 0#3 ↔ 8 ∣ bits.length + 1 := by
  rw [packerOf, ← BitVec.ofNat_add, ofNat_eq_zero_iff_dvd]

/-- R80: between two bytes the packer is empty. -/
theorem packerOf_of_dvd {bits : List Bool} (h : 8 ∣ bits.length) : packerOf bits = ⟨0#8, 0#3⟩ := by
  rw [packerOf, lastBits_of_dvd h, (ofNat_eq_zero_iff_dvd _).mpr h]
  rfl

/-- R80: a bit that completes no byte. -/
theorem packerOf_snoc {bits : List Bool} (h : ¬8 ∣ bits.length + 1) (b : Bool) :
    packerOf (bits ++ [b]) = ⟨shiftIn (packerOf bits).acc b, (packerOf bits).nacc + 1#3⟩ := by
  have hlast : lastBits (bits ++ [b]) = lastBits bits ++ [b] := lastBits_append (by rw [List.length_singleton]; omega)
  rw [packerOf, hlast, byteOf_snoc, List.length_append, List.length_singleton, BitVec.ofNat_add]
  rfl

/-- R80: a bit that completes no byte adds no whole byte. -/
theorem wholeBytes_snoc {bits : List Bool} (h : ¬8 ∣ bits.length + 1) (b : Bool) : wholeBytes (bits ++ [b]) = wholeBytes bits := by
  rw [wholeBytes_append_eq, wholeBytes_of_length_lt (bits := lastBits bits ++ [b]), List.append_nil]
  rw [List.length_append, length_lastBits, List.length_singleton]
  omega

/-- R80: the bit that completes a byte. -/
theorem wholeBytes_snoc_full {bits : List Bool} (h : 8 ∣ bits.length + 1) (b : Bool) :
    wholeBytes (bits ++ [b]) = wholeBytes bits ++ [shiftIn (packerOf bits).acc b] := by
  rw [wholeBytes_append_eq, wholeBytes_of_length_eq (bits := lastBits bits ++ [b]), byteOf_snoc]
  · rfl
  · rw [List.length_append, length_lastBits, List.length_singleton]
    omega

/-- R172 (b): a stream of whole bytes is not padded. -/
theorem packedBytes_of_dvd {bits : List Bool} (h : 8 ∣ bits.length) : packedBytes bits = wholeBytes bits := by
  rw [packedBytes, padding, Nat.mod_eq_zero_of_dvd h, List.replicate_zero, List.append_nil]

/-- R80, R169: any other stream is followed by the packed bits, at the top of a last byte. -/
theorem packedBytes_of_not_dvd {bits : List Bool} (h : ¬8 ∣ bits.length) :
    packedBytes bits = wholeBytes bits ++ [(packerOf bits).acc <<< (8 - (packerOf bits).nacc.toNat)] := by
  have hpad : padding bits.length = 8 - bits.length % 8 := by rw [padding]; omega
  have hlen : (lastBits bits ++ List.replicate (8 - bits.length % 8) false).length = 8 := by
    rw [List.length_append, length_lastBits, List.length_replicate]
    omega
  rw [packedBytes, hpad, wholeBytes_append_eq, wholeBytes_of_length_eq hlen, byteOf_append_zeros]
  rfl

end Sys2Proof.Machine
end

