-- ==== Sys2Proof/Proofs/Compress.lean ====
section
/-! PROOF. COMPRESS from its acceptance to its completion (spec/43_compressor.md): an input whose bytes all have codes (O42), and one
with a byte that has none (O43). -/

namespace Sys2Proof.Machine

/-! ## One bit (R80, R168) -/

/-- R165: where COMPRESS goes on after bit `i` of the code of `b`. -/
def afterBit (code : Vector Code 256) (b : Byte) (i : BitVec 8) : Point :=
  if i.toNat + 1 < (codeAt code b).clen.toNat then .compressPack b (i + 1#8) else .compressRead

/-- R165: a packed bit is counted, and COMPRESS goes on. -/
theorem bitPacked_eq (c : Instr) (b : Byte) (i : BitVec 8) (s : State) :
    bitPacked c b i s = goTo c (afterBit s.code b i) { s with bitcnt := s.bitcnt + 1#64 } := by
  rw [afterBit, apply_ite (fun p => goTo c p { s with bitcnt := s.bitcnt + 1#64 })]
  rfl

section
variable {s : State} (h : Quiet s) (b : Byte) (i : BitVec 8)
include h

/-- R80: a bit that completes no byte. -/
theorem Quiet.reaches_afterBit_of_ne (hn : s.packer.nacc + 1#3 ≠ 0#3) :
    Reaches (goTo .compress (.compressPack b i) s) (goTo .compress (afterBit s.code b i) { s with
      bitcnt := s.bitcnt + 1#64
      packer := ⟨shiftIn s.packer.acc (codeBit (codeAt s.code b) i.toNat), s.packer.nacc + 1#3⟩ }) := by
  refine h.reaches_of_engineStep (by simp) ((engineStep_compressPack rfl).trans (congrArg some ?_))
  exact (if_neg hn).trans (bitPacked_eq ..)

/-- R80: the bit that completes a byte. The byte is offered on OUT and accepted, and the packer is empty. -/
theorem Quiet.reaches_afterBit_of_eq (hn : s.packer.nacc + 1#3 = 0#3) :
    Reaches (goTo .compress (.compressPack b i) s) (goTo .compress (afterBit s.code b i) { s with
      bitcnt := s.bitcnt + 1#64
      packer := ⟨0#8, 0#3⟩
      sink := s.sink ++ [shiftIn s.packer.acc (codeBit (codeAt s.code b) i.toNat)] }) := by
  let v := shiftIn s.packer.acc (codeBit (codeAt s.code b) i.toNat)
  have hoffer : Reaches (goTo .compress (.compressPack b i) s)
      (goTo .compress (.compressPackOut b i) (offerOut v { s with packer := ⟨v, s.packer.nacc + 1#3⟩ })) :=
    h.reaches_of_engineStep (by simp) ((engineStep_compressPack rfl).trans (congrArg some (if_pos hn)))
  have hfull : Quiet { s with packer := ⟨v, s.packer.nacc + 1#3⟩ } := h
  have hsent : Quiet { s with packer := ⟨v, s.packer.nacc + 1#3⟩, sink := s.sink ++ [v] } := h
  refine hoffer.trans ((hfull.reaches_accepted ..).trans (hsent.reaches_of_engineStep (by simp) ?_))
  rw [engineStep_compressPackOut rfl, compressPackOut, goTo_outPend, show s.outPend = none from h.2.2]
  exact congrArg some (bitPacked_eq ..)

end

/-- R168: the bits of a code from bit `i` on. -/
theorem drop_codeBits {c : Code} {i : Nat} (hi : i < c.clen.toNat) :
    (codeBits c).drop i = codeBit c i :: (codeBits c).drop (i + 1) := by
  rw [List.drop_eq_getElem_cons (by rwa [length_codeBits])]
  simp [codeBits]

/-! ## The state between two bits (R165, R80) -/

/-- R165, R80: COMPRESS between two bits, the engine's place excepted: `n` bytes are taken, `buf` waits in INBUF, and `bits` are
packed, of which the whole bytes are in the sink. -/
def compressed (s : State) (n : Nat) (buf : List Byte) (bits : List Bool) : State :=
  { s with
    bytecnt := BitVec.ofNat 32 n
    bitcnt := BitVec.ofNat 64 bits.length
    packer := packerOf bits
    inPort.buf := buf
    sink := s.sink ++ wholeBytes bits }

section
variable {s : State} (n : Nat) (buf : List Byte) (bits : List Bool)

/-- R80: one more bit, which completes no byte. -/
theorem compressed_snoc (hd : ¬8 ∣ bits.length + 1) (x : Bool) : compressed s n buf (bits ++ [x]) =
    { compressed s n buf bits with
      bitcnt := BitVec.ofNat 64 bits.length + 1#64
      packer := ⟨shiftIn (packerOf bits).acc x, (packerOf bits).nacc + 1#3⟩ } := by
  rw [compressed, packerOf_snoc hd, wholeBytes_snoc hd, List.length_append, List.length_singleton, BitVec.ofNat_add]
  rfl

/-- R80: the bit that completes a byte. -/
theorem compressed_snoc_full (hd : 8 ∣ bits.length + 1) (x : Bool) : compressed s n buf (bits ++ [x]) =
    { compressed s n buf bits with
      bitcnt := BitVec.ofNat 64 bits.length + 1#64
      packer := ⟨0#8, 0#3⟩
      sink := s.sink ++ wholeBytes bits ++ [shiftIn (packerOf bits).acc x] } := by
  have hlen : (bits ++ [x]).length = bits.length + 1 := by rw [List.length_append, List.length_singleton]
  rw [compressed, packerOf_of_dvd (hlen ▸ hd), wholeBytes_snoc_full hd, hlen, BitVec.ofNat_add, List.append_assoc]
  rfl

/-- R165: one more byte taken is one more counted. -/
theorem compressed_succ : compressed s (n + 1) buf bits = { compressed s n buf bits with bytecnt := BitVec.ofNat 32 n + 1#32 } := by
  rw [compressed, BitVec.ofNat_add]
  rfl

/-- R165, R167: a byte is taken and counted, and its code is looked up. -/
theorem engineStep_compressed_byte (b : Byte) : engineStep (goTo .compress .compressRead (compressed s n (b :: buf) bits))
    = some (goTo .compress (if (codeAt s.code b).clen = 0#8 then .raising .unknownSymbol else .compressPack b 0#8)
      (compressed s (n + 1) buf bits)) := by
  rw [apply_ite (fun p => goTo .compress p (compressed s (n + 1) buf bits)), compressed_succ]
  rfl

variable (h : Quiet s)
include h

/-- R80: PutBit. -/
theorem Quiet.reaches_afterBit (b : Byte) (i : BitVec 8) :
    Reaches (goTo .compress (.compressPack b i) (compressed s n buf bits))
      (goTo .compress (afterBit s.code b i) (compressed s n buf (bits ++ [codeBit (codeAt s.code b) i.toNat]))) := by
  have hquiet : Quiet (compressed s n buf bits) := h
  by_cases hd : 8 ∣ bits.length + 1
  · rw [compressed_snoc_full n buf bits hd]
    exact hquiet.reaches_afterBit_of_eq b i ((packerOf_nacc_succ_eq_zero_iff bits).mpr hd)
  · rw [compressed_snoc n buf bits hd]
    exact hquiet.reaches_afterBit_of_ne b i (mt (packerOf_nacc_succ_eq_zero_iff bits).mp hd)

/-! ## One byte (R168) -/

/-- R168: the last `k + 1` bits of a code, from bit `i` on, are packed one by one. -/
theorem Quiet.reaches_codePacked {b : Byte} {i : BitVec 8} {k : Nat} (hk : i.toNat + (k + 1) = (codeAt s.code b).clen.toNat) :
    Reaches (goTo .compress (.compressPack b i) (compressed s n buf bits))
      (goTo .compress .compressRead (compressed s n buf (bits ++ (codeBits (codeAt s.code b)).drop i.toNat))) := by
  induction k generalizing i bits with
  | zero =>
    have hbit := h.reaches_afterBit n buf bits b i
    rw [afterBit, if_neg (by omega)] at hbit
    rwa [drop_codeBits (by omega), List.drop_eq_nil_of_le (by rw [length_codeBits]; omega)]
  | succ k ih =>
    have hi : (i + 1#8).toNat = i.toNat + 1 := by bv_omega
    have hbit := h.reaches_afterBit n buf bits b i
    rw [afterBit, if_pos (by omega)] at hbit
    rw [drop_codeBits (by omega), ← hi, List.append_cons]
    exact hbit.trans (ih _ (by omega))

/-- R165, R168: a byte with a code is taken and counted, and its code is packed. -/
theorem Quiet.reaches_bytePacked {b : Byte} (hc : (codeAt s.code b).clen ≠ 0#8) :
    Reaches (goTo .compress .compressRead (compressed s n (b :: buf) bits))
      (goTo .compress .compressRead (compressed s (n + 1) buf (bits ++ codeBits (codeAt s.code b)))) := by
  have htake := engineStep_compressed_byte (s := s) n buf bits b
  rw [if_neg hc] at htake
  have hquiet : Quiet (compressed s n (b :: buf) bits) := h
  have hpos : (codeAt s.code b).clen.toNat ≠ 0 := fun h0 => hc (BitVec.eq_of_toNat_eq h0)
  have hcode := h.reaches_codePacked (n + 1) buf bits (b := b) (i := 0#8) (k := (codeAt s.code b).clen.toNat - 1)
    (by simp only [BitVec.toNat_ofNat]; omega)
  exact (hquiet.reaches_of_engineStep (by simp) htake).trans hcode

/-- R165, R169: bytes that all have codes are taken, counted and packed, one after the other. -/
theorem Quiet.reaches_bytesPacked {bs : List Byte} (hc : ∀ b ∈ bs, (codeAt s.code b).clen ≠ 0#8) :
    Reaches (goTo .compress .compressRead (compressed s n (bs ++ buf) bits))
      (goTo .compress .compressRead (compressed s (n + bs.length) buf (bits ++ streamOf s.code bs))) := by
  induction bs generalizing n bits with
  | nil => simpa [streamOf] using Reaches.refl _
  | cons b bs ih =>
    have hfirst := h.reaches_bytePacked n (bs ++ buf) bits (hc b List.mem_cons_self)
    have hrest := ih (n + 1) (bits ++ codeBits (codeAt s.code b)) fun x hx => hc x (List.mem_cons_of_mem b hx)
    rw [List.append_assoc, Nat.add_right_comm] at hrest
    exact hfirst.trans hrest

/-! ## The end of the input (R80, R168) -/

/-- R80, R168: FlushBits of a partly filled byte, which is offered on OUT with zero bits below, and accepted. -/
theorem Quiet.reaches_flushed_of_ne (hn : s.packer.nacc ≠ 0#3) :
    Reaches (goTo .compress .compressFlush s) (goTo .compress .complete { s with
      packer := ⟨0#8, 0#3⟩
      sink := s.sink ++ [s.packer.acc <<< (8 - s.packer.nacc.toNat)] }) := by
  have hoffer := h.reaches_of_engineStep (c := .compress) (p := .compressFlush) (by simp)
    ((engineStep_compressFlush rfl).trans (congrArg some (if_neg hn)))
  have hsent : Quiet { s with sink := s.sink ++ [s.packer.acc <<< (8 - s.packer.nacc.toNat)] } := h
  refine hoffer.trans ((h.reaches_accepted ..).trans (hsent.reaches_of_engineStep (by simp) ?_))
  rw [engineStep_compressFlushOut rfl, compressFlushOut, goTo_outPend, show s.outPend = none from h.2.2]
  rfl

/-- R80, R168, R169: FlushBits. -/
theorem Quiet.reaches_flushed :
    Reaches (goTo .compress .compressFlush (compressed s n buf bits)) (goTo .compress .complete { compressed s n buf bits with
      packer := ⟨0#8, 0#3⟩
      sink := s.sink ++ packedBytes bits }) := by
  have hquiet : Quiet (compressed s n buf bits) := h
  by_cases hd : 8 ∣ bits.length
  · rw [packedBytes_of_dvd hd, ← packerOf_of_dvd hd]
    exact hquiet.reaches_of_engineStep (by simp)
      ((engineStep_compressFlush rfl).trans (congrArg some (if_pos ((packerOf_nacc_eq_zero_iff bits).mpr hd))))
  · rw [packedBytes_of_not_dvd hd, ← List.append_assoc]
    exact hquiet.reaches_flushed_of_ne (mt (packerOf_nacc_eq_zero_iff bits).mp hd)

end

/-! ## The command -/

/-- R165: COMPRESS comes to its loop with nothing taken and nothing packed. -/
theorem engineTurn_compress {s : State} (hcv : s.status.cv = true) : engineTurn (acceptCommand .compress s)
    = goTo .compress .compressRead (compressed (acceptCommand .compress s) 0 s.inPort.buf []) := by
  rw [engineTurn_accepted, compressed, packerOf_of_dvd (dvd_zero 8), wholeBytes_of_length_lt (by decide), List.append_nil]
  exact if_pos hcv

/-- R165: COMPRESS up to the first byte of `rest`, where every byte before it has a code. -/
theorem Quiet.reaches_compressRead {s : State} (h : Quiet s) {bs rest : List Byte} (hcv : s.status.cv = true)
    (hin : s.inPort.buf = bs ++ rest) (hc : ∀ b ∈ bs, (codeAt s.code b).clen ≠ 0#8) :
    Reaches (acceptCommand .compress s)
      (goTo .compress .compressRead (compressed (acceptCommand .compress s) bs.length rest (streamOf s.code bs))) := by
  have hquiet : Quiet (acceptCommand .compress s) := h
  have hbytes := hquiet.reaches_bytesPacked 0 rest [] hc
  have hstart := hquiet.reaches_engineTurn
  rw [engineTurn_compress hcv, hin] at hstart
  rw [Nat.zero_add, List.nil_append] at hbytes
  exact hstart.trans hbytes

/-- Settles O42: the loop ends with every byte packed; IN is exhausted there, so the packer is flushed. -/
theorem compressPacksTheCodes : Obligations.CompressPacksTheCodes := by
  unfold Obligations.CompressPacksTheCodes
  intro s bs hb hcv h hin hc
  have hloop := h.reaches_compressRead (rest := []) hcv (by rw [hin, List.append_nil]) hc
  have hread : Quiet (compressed (acceptCommand .compress s) bs.length [] (streamOf s.code bs)) := h
  have hexhausted := hread.reaches_of_engineStep (c := .compress) (p := .compressRead) (by simp)
    ((engineStep_compressRead rfl).trans (if_pos (congrArg InPort.closed hin)))
  have hflush := Quiet.reaches_flushed (s := acceptCommand .compress s) bs.length [] (streamOf s.code bs) h
  have hend := Quiet.reaches_completed (s := { compressed (acceptCommand .compress s) bs.length [] (streamOf s.code bs) with
    packer := ⟨0#8, 0#3⟩, sink := s.sink ++ packedBytes (streamOf s.code bs) }) h .compress
  exact ⟨_, _, exec_accepted rfl hb, hloop.trans (hexhausted.trans (hflush.trans hend)), completeCommand_of_endsSession rfl _⟩

/-- Settles O43: the loop comes to the byte without a code with the bytes before it packed; the session's end discards the packer
and the rest of IN. -/
theorem compressStopsAtAnUnknownSymbol : Obligations.CompressStopsAtAnUnknownSymbol := by
  unfold Obligations.CompressStopsAtAnUnknownSymbol
  intro s pre post b closed hb hcv h hin hc hunknown
  have hloop := h.reaches_compressRead hcv (by rw [hin]) hc
  have hlookup := engineStep_compressed_byte (s := acceptCommand .compress s) pre.length post (streamOf s.code pre) b
  rw [acceptCommand_code, if_pos hunknown] at hlookup
  have htaken := Quiet.reaches_of_engineStep (s := compressed (acceptCommand .compress s) pre.length (b :: post) (streamOf s.code pre))
    h (by simp) hlookup
  have hend := Quiet.reaches_failed (s := compressed (acceptCommand .compress s) (pre.length + 1) post (streamOf s.code pre)) h
    .compress .unknownSymbol
  exact ⟨_, _, exec_accepted rfl hb, hloop.trans (htaken.trans hend), completeCommand_of_endsSession rfl _⟩

end Sys2Proof.Machine
end

