-- ==== Sys2Proof/Proofs/Walk.lean ====
section
/-! PROOF. The micro-steps of the walk (spec/44_expander.md R185 to R196): a bit taken (O44), a leaf reached (O45), the end of the
input (O46), and EXPAND of no bytes (O47). -/

namespace Sys2Proof.Machine

/-! ## The next bit (R78, R188 to R190) -/

/-- R78: the walk's next bit is bit `k` of `byte`, from the reader or, if that is empty, from the head of INBUF; `rest` is INBUF
without what has been taken. -/
def NextBit (s : State) (byte : Byte) (k : BitVec 4) (rest : List Byte) : Prop :=
  (s.reader = ⟨byte, k + 1#4⟩ ∧ rest = s.inPort.buf) ∨ (s.reader.rbits = 0#4 ∧ k = 7#4 ∧ s.inPort.buf = byte :: rest)

/-- R78: the reader, INBUF and BITCNT once that bit is taken. -/
def bitTaken (s : State) (byte : Byte) (k : BitVec 4) (rest : List Byte) : State :=
  { s with reader := ⟨byte, k⟩, inPort.buf := rest, bitcnt := s.bitcnt + 1#64 }

/-- R78, R185: the walk takes its next bit and moves on it. -/
theorem walkRead_of_nextBit {s : State} {byte : Byte} {k : BitVec 4} {rest : List Byte} (c : Instr) (hk : k.toNat < 8)
    (h : NextBit s byte k rest) : walkRead c s = some (walkBit c (byte.getLsbD k.toNat) (bitTaken s byte k rest)) := by
  obtain ⟨hreader, rfl⟩ | ⟨hempty, rfl, hbuf⟩ := h
  · have hsome : k + 1#4 ≠ 0#4 := by bv_omega
    simp only [walkRead, hreader, if_neg hsome, takeBit, BitVec.add_sub_cancel]
    rfl
  · have hfull : 8#4 - 1#4 = 7#4 := rfl
    simp only [walkRead, if_pos hempty, hbuf, takeBit, hfull]
    rfl

section
variable {s : State} (c : Instr)

/-- R188: at an Internal node the bit selects the child. -/
theorem walkBit_internal (bit : Bool) (hk : (nodeAt s.node s.walk.cur).kind = .internal) :
    walkBit c bit s = goTo c .walkTop { s with
      walk.cur := childOf (nodeAt s.node s.walk.cur) bit
      walk.depth := s.walk.depth + 1#8 } := by
  simp only [walkBit, hk]

/-- R189: in a tree that is a single Leaf, 0 reaches the Leaf. -/
theorem walkBit_leaf_false (hk : (nodeAt s.node s.walk.cur).kind = .leaf) :
    walkBit c false s = goTo c .walkTop { s with walk.depth := 1#8 } := by
  simp [walkBit, hk]

/-- R189, R190: and 1 is the missing child. -/
theorem walkBit_leaf_true (hk : (nodeAt s.node s.walk.cur).kind = .leaf) :
    walkBit c true s = goTo c (.raising .corruptTree) s := by
  simp [walkBit, hk]

end

/-- Settles O44: the bit is taken from either source, and the walk's move depends on the kind of the node and on the bit. -/
theorem walkMovesOnABit : Obligations.WalkMovesOnABit := by
  unfold Obligations.WalkMovesOnABit
  intro s c byte k rest he hk hnext
  rw [engineStep_walkRead he, walkRead_of_nextBit c hk hnext]
  refine ⟨?_, fun hkind hbit => ?_, fun hkind hbit => ?_⟩
  · rintro _ rfl hkind
    exact congrArg some (walkBit_internal (s := bitTaken s byte k rest) c _ hkind)
  · rw [hbit]
    exact congrArg some (walkBit_leaf_false (s := bitTaken s byte k rest) c hkind)
  · rw [hbit]
    exact congrArg some (walkBit_leaf_true (s := bitTaken s byte k rest) c hkind)

/-! ## The head of the loop (R185, R187, R191) -/

section
variable {s : State} (c : Instr)

/-- R187: a leaf reached by at least one bit is offered on OUT. -/
theorem walkTop_leaf (hd : s.walk.depth ≠ 0#8) (hk : (nodeAt s.node s.walk.cur).kind = .leaf) :
    walkTop c s = goTo c .walkOut (offerOut (nodeAt s.node s.walk.cur).sym s) := if_pos ⟨hd, hk⟩

/-- R185: before a bit is read, and at an Internal node, there is no leaf to offer. -/
theorem not_leafReached (h : s.walk.depth = 0#8 ∨ (nodeAt s.node s.walk.cur).kind = .internal) :
    ¬(s.walk.depth ≠ 0#8 ∧ (nodeAt s.node s.walk.cur).kind = .leaf) := by
  rintro ⟨hd, hk⟩
  obtain h | h := h
  · exact hd h
  · simp [hk] at h

/-- R191: EXPAND ends once it has emitted LEN bytes. -/
theorem walkTop_limit (h : s.walk.depth = 0#8 ∨ (nodeAt s.node s.walk.cur).kind = .internal) (hc : bounded c = true)
    (hl : s.walk.emitted = s.walk.limit) : walkTop c s = goTo c .complete s :=
  (if_neg (not_leafReached h)).trans (if_pos ⟨hc, hl⟩)

/-- R185: otherwise the walk needs a bit. -/
theorem walkTop_more (h : s.walk.depth = 0#8 ∨ (nodeAt s.node s.walk.cur).kind = .internal)
    (hl : bounded c = true → s.walk.emitted ≠ s.walk.limit) : walkTop c s = goTo c .walkRead s :=
  (if_neg (not_leafReached h)).trans (if_neg fun hend => hl hend.1 hend.2)

end

/-- R187: once the sink has accepted the symbol, it is counted, and the walk is at the root again. -/
theorem walkOut_accepted {s : State} (c : Instr) (ho : s.outPend = none) : walkOut c s = some (goTo c .walkTop { s with
    bytecnt := s.bytecnt + 1#32
    walk := { s.walk with emitted := s.walk.emitted + 1#32, cur := s.root, depth := 0#8 } }) := by
  simp only [walkOut, ho]

/-- Settles O45: only a leaf reached is offered; the engine is held until the symbol is accepted. -/
theorem leafReachedIsEmitted : Obligations.LeafReachedIsEmitted := by
  unfold Obligations.LeafReachedIsEmitted
  refine ⟨fun s t c he h ht => ?_, fun s c he hd hk => ?_⟩
  · rw [engineStep_walkTop he, Option.some.injEq] at ht
    by_cases hend : bounded c = true ∧ s.walk.emitted = s.walk.limit
    · rw [← ht, walkTop_limit c h hend.1 hend.2, goTo_outPend]
    · rw [← ht, walkTop_more c h fun hc hl => hend ⟨hc, hl⟩, goTo_outPend]
  · refine ⟨_, (engineStep_walkTop he).trans (congrArg some (walkTop_leaf c hd hk)), rfl, ?_, ?_⟩
    · rw [engineStep_walkOut rfl, walkOut]
      rfl
    · rw [engineStep_walkOut rfl, walkOut_accepted c rfl]
      rfl

/-! ## The end of the input (R192, R195, R196) -/

section
variable {s : State}

/-- R78: without a bit in the reader, and with IN closed and empty, the input bits are exhausted. -/
theorem walkRead_exhausted (c : Instr) (hr : s.reader.rbits = 0#4) (hin : s.inPort = ⟨[], true⟩) :
    walkRead c s = some (walkExhausted c s) := by
  simp [walkRead, hr, hin]

/-- R192: EXPAND raises TRUNCATED. -/
theorem walkExhausted_bounded {c : Instr} (hc : bounded c = true) : walkExhausted c s = goTo c (.raising .truncated) s := if_pos hc

/-- R196: EXPANDX ends, and PARTIAL says whether it is inside the tree. -/
theorem walkExhausted_unbounded {c : Instr} (hc : bounded c = false) (hp : s.status.partialWalk = false) :
    walkExhausted c s = goTo c .complete { s with status.partialWalk := decide (s.walk.depth ≠ 0#8) } := by
  simp [walkExhausted, hc, hp]

/-- An empty reader stays as it is at the session's end (R81). -/
theorem completeCommand_of_reader_empty {c : Instr} (hc : endsSession c = true) (hr : s.reader.rbits = 0#4) :
    completeCommand c s = { s with
      status := { s.status with inwait := false, busy := false, done := true }
      engine := none
      inPort := ⟨[], false⟩
      packer := ⟨0#8, 0#3⟩ } := by
  rw [completeCommand_of_endsSession hc, ← hr]

end

/-- Settles O46: both commands complete two turns later, EXPAND after its error. -/
theorem walkEndsAtExhaustion : Obligations.WalkEndsAtExhaustion := by
  unfold Obligations.WalkEndsAtExhaustion
  refine fun s hr hin => ⟨fun he => ⟨2, ?_⟩, fun he hp => ⟨2, ?_⟩⟩
  · have hturn : engineTurn s = goTo .expand (.raising .truncated) s :=
      engineTurn_at he (by simp) ((engineStep_walkRead he).trans
        ((walkRead_exhausted .expand hr hin).trans (congrArg some (walkExhausted_bounded rfl))))
    rw [engineRun_succ, hturn, engineRun_succ, engineRun_zero, engineTurn_raising (goTo_engine ..)]
    exact completeCommand_of_reader_empty rfl hr
  · have hturn : engineTurn s = goTo .expandx .complete { s with status.partialWalk := decide (s.walk.depth ≠ 0#8) } :=
      engineTurn_at he (by simp) ((engineStep_walkRead he).trans
        ((walkRead_exhausted .expandx hr hin).trans (congrArg some (walkExhausted_unbounded rfl hp))))
    rw [engineRun_succ, hturn, engineRun_succ, engineRun_zero,
      engineTurn_at (goTo_engine ..) (by simp) (engineStep_complete rfl), completeCommand_goTo]
    exact completeCommand_of_reader_empty rfl hr

/-! ## The start (R185, R193) -/

/-- R185: what the walk sets before its loop. -/
def walkEntered (c : Instr) (s : State) : State :=
  { s with
    bytecnt := 0#32
    bitcnt := 0#64
    status.partialWalk := false
    reader := ⟨0#8, 0#4⟩
    walk := ⟨s.root, 0#8, 0#32, if bounded c then s.len else s.walk.limit⟩ }

/-- R185: on a tree, EXPAND and EXPANDX come to the walk's loop in their first turn. -/
theorem engineTurn_walkStart {c : Instr} {s : State} (hc : c = .expand ∨ c = .expandx) (htv : s.status.tv = true) :
    engineTurn (acceptCommand c s) = goTo c .walkTop (walkEntered c (acceptCommand c s)) := by
  rw [engineTurn_accepted]
  obtain rfl | rfl := hc
  · exact if_pos htv
  · exact if_pos htv

/-- Settles O47: the loop ends before its first bit, for no byte is no fewer than LEN. -/
theorem expandOfLengthZeroReadsNothing : Obligations.ExpandOfLengthZeroReadsNothing := by
  unfold Obligations.ExpandOfLengthZeroReadsNothing
  intro s hb htv hlen
  let t := walkEntered .expand (acceptCommand .expand s)
  have hend : engineTurn (goTo .expand .walkTop t) = goTo .expand .complete t :=
    engineTurn_at rfl (by simp) ((engineStep_walkTop rfl).trans
      (congrArg some (walkTop_limit (s := goTo .expand .walkTop t) .expand (.inl rfl) rfl hlen.symm)))
  refine ⟨acceptCommand .expand s, 3, _, exec_accepted rfl hb, rfl, ?_⟩
  rw [engineRun_succ, engineTurn_walkStart (.inl rfl) htv, engineRun_succ, hend, engineRun_succ, engineRun_zero,
    engineTurn_at (goTo_engine ..) (by simp) (engineStep_complete rfl), completeCommand_goTo,
    completeCommand_of_endsSession rfl]
  rfl

end Sys2Proof.Machine
end

