-- ==== Sys2Proof/Proofs/BitReader.lean ====
section
/-! SUPPORT. The bits of an input as the bit reader takes them (spec/20_memory.md R78), and that they are those the bit packer put
there (R80). -/

namespace Sys2Proof.Machine

/-! ## The bits of the input -/

/-- R78: the bits of a byte in the order in which they are taken, bit 7 first. -/
def byteBits (b : Byte) : List Bool := (List.range 8).map fun i => b.getLsbD (7 - i)

/-- R78: the bits of an input, byte after byte. -/
def inputBits (bs : List Byte) : List Bool := bs.flatMap byteBits

theorem length_byteBits (b : Byte) : (byteBits b).length = 8 := by simp [byteBits]

theorem length_inputBits (bs : List Byte) : (inputBits bs).length = 8 * bs.length := by
  simp [inputBits, List.length_flatMap, length_byteBits, Nat.mul_comm]

/-- R78: bit `k` of an input is bit `7 - k % 8` of its byte `k / 8`. -/
theorem getElem_inputBits {bs : List Byte} {k : Nat} (h : k < (inputBits bs).length) :
    (inputBits bs)[k] = (bs.getD (k / 8) 0#8).getLsbD (7 - k % 8) := by
  induction bs generalizing k with
  | nil => simp [inputBits] at h
  | cons b bs ih =>
    have hcons : inputBits (b :: bs) = byteBits b ++ inputBits bs := List.flatMap_cons
    simp only [hcons, List.getElem_append, length_byteBits]
    split
    · rw [Nat.div_eq_of_lt ‹_›, Nat.mod_eq_of_lt ‹_›]
      simp [byteBits]
    · have hdiv : k / 8 = (k - 8) / 8 + 1 := by omega
      have hmod : k % 8 = (k - 8) % 8 := by omega
      rw [ih, hdiv, hmod, List.getD_cons_succ]

/-! ## Packed bytes give their bits back (R80) -/

/-- R80: the packer puts the first bit at bit 7. -/
theorem byteBits_byteOf {bits : List Bool} (h : bits.length = 8) : byteBits (byteOf bits) = bits := by
  have hall : ∀ a b c d e f g i : Bool, byteBits (byteOf [a, b, c, d, e, f, g, i]) = [a, b, c, d, e, f, g, i] := by decide
  match bits, h with
  | [a, b, c, d, e, f, g, i], _ => exact hall a b c d e f g i

/-- R80: whole bytes give back the stream that filled them. -/
theorem inputBits_wholeBytes {bits : List Bool} (h : 8 ∣ bits.length) : inputBits (wholeBytes bits) = bits := by
  obtain ⟨n, hn⟩ := h
  induction n generalizing bits with
  | zero => rw [List.length_eq_zero_iff.mp hn]; rfl
  | succ n ih =>
    have hhead : (bits.take 8).length = 8 := by rw [List.length_take]; omega
    have htail : (bits.drop 8).length = 8 * n := by rw [List.length_drop]; omega
    calc inputBits (wholeBytes bits)
      _ = inputBits (wholeBytes (bits.take 8 ++ bits.drop 8)) := by rw [List.take_append_drop]
      _ = byteBits (byteOf (bits.take 8)) ++ inputBits (wholeBytes (bits.drop 8)) := by
        rw [wholeBytes_append ⟨1, hhead⟩, wholeBytes_of_length_eq hhead]
        rfl
      _ = bits.take 8 ++ bits.drop 8 := by rw [byteBits_byteOf hhead, ih htail]
      _ = bits := List.take_append_drop ..

/-- R80, R169: the bytes COMPRESS emits hold the stream, then the padding. -/
theorem inputBits_packedBytes (bits : List Bool) :
    inputBits (packedBytes bits) = bits ++ List.replicate (padding bits.length) false := by
  refine inputBits_wholeBytes ?_
  rw [List.length_append, List.length_replicate, padding]
  omega

/-! ## The reader (R48, R78) -/

/-- R48, R78: the reader once `k` bits of the input have been taken; before the first it is as the walk begins (R185). -/
def readerAfter (ins : List Byte) : Nat → BitReader
  | 0 => ⟨0#8, 0#4⟩
  | k + 1 => ⟨ins.getD (k / 8) 0#8, BitVec.ofNat 4 (7 - k % 8)⟩

/-- R78: INBUF once `k` bits of the input have been taken. A byte leaves it when its first bit is taken. -/
def bufAfter (ins : List Byte) (k : Nat) : List Byte := ins.drop ((k + 7) / 8)

/-- R78: between two bytes the reader is empty. -/
theorem readerAfter_empty {k : Nat} (ins : List Byte) (h : 8 ∣ k) : (readerAfter ins k).rbits = 0#4 := by
  cases k with
  | zero => rfl
  | succ k =>
    have hlast : 7 - k % 8 = 0 := by omega
    rw [readerAfter, hlast]

/-- R78: inside a byte the reader holds the byte, and as many of its bits as have not been taken. -/
theorem readerAfter_of_not_dvd {k : Nat} (ins : List Byte) (h : ¬8 ∣ k) :
    readerAfter ins k = ⟨ins.getD (k / 8) 0#8, BitVec.ofNat 4 (7 - k % 8) + 1#4⟩ := by
  cases k with
  | zero => exact absurd (dvd_zero 8) h
  | succ k =>
    have hdiv : (k + 1) / 8 = k / 8 := by omega
    have hmod : 7 - k % 8 = 7 - (k + 1) % 8 + 1 := by omega
    rw [readerAfter, hdiv, hmod, BitVec.ofNat_add]

/-- R78: the reader takes the bits of the input in their order. -/
theorem nextBit_of_readerAfter {s : State} {ins : List Byte} {k : Nat} (hk : k < (inputBits ins).length)
    (hr : s.reader = readerAfter ins k) (hb : s.inPort.buf = bufAfter ins k) :
    NextBit s (ins.getD (k / 8) 0#8) (BitVec.ofNat 4 (7 - k % 8)) (bufAfter ins (k + 1)) := by
  rw [length_inputBits] at hk
  by_cases hd : 8 ∣ k
  · have hlt : k / 8 < ins.length := by omega
    have hnow : (k + 7) / 8 = k / 8 := by omega
    have hthen : (k + 1 + 7) / 8 = k / 8 + 1 := by omega
    refine .inr ⟨hr ▸ readerAfter_empty ins hd, by rw [Nat.mod_eq_zero_of_dvd hd], ?_⟩
    rw [hb, bufAfter, bufAfter, hnow, hthen, List.getD_eq_getElem _ _ hlt, List.drop_eq_getElem_cons hlt]
  · have hsame : (k + 1 + 7) / 8 = (k + 7) / 8 := by omega
    refine .inl ⟨hr.trans (readerAfter_of_not_dvd ins hd), ?_⟩
    rw [hb, bufAfter, bufAfter, hsame]

end Sys2Proof.Machine
end

