-- ==== Sys2Proof/Proofs/Expand.lean ====
section
/-! PROOF. EXPAND and EXPANDX from their acceptance to their completion (spec/44_expander.md), on a closed input: the bytes packed
(O48), the padding (O49), and any other input (O50). -/

namespace Sys2Proof.Machine

/-! ## A part of the input -/

/-- What follows the beginning of the rest of a list. -/
theorem prefix_drop_of_append {l as bs : List Bool} {k : Nat} (h : as ++ bs <+: l.drop k) : bs <+: l.drop (k + as.length) := by
  obtain ⟨rest, hrest⟩ := h
  rw [← List.drop_drop, ← hrest, List.append_assoc, List.drop_left]
  exact List.prefix_append bs rest

/-- The first element of the rest of a list. -/
theorem getElem?_of_prefix_drop {l bits : List Bool} {x : Bool} {k : Nat} (h : x :: bits <+: l.drop k) : l[k]? = some x := by
  obtain ⟨rest, hrest⟩ := h
  have := List.getElem?_drop (xs := l) (i := k) (j := 0)
  rwa [← hrest, eq_comm] at this

/-! ## What a bit string decodes to (R187 to R189) -/

/-- R187 to R189: from the root, the walk on `bits` reaches a leaf, and not before their end, and emits its symbol: along a path,
or on the bit 0 in a tree that is a single Leaf. DEPTH counts the bits in eight bits (R49). -/
inductive Decodes (node : Vector Node 511) (root : NodeIdx) : List Bool → Byte → Prop where
  | path {bits : List Bool} {leaf : NodeIdx} (hpath : follow node root bits = some leaf)
      (hk : (nodeAt node leaf).kind = .leaf) (hd : BitVec.ofNat 8 bits.length ≠ 0#8) :
      Decodes node root bits (nodeAt node leaf).sym
  | single (hk : (nodeAt node root).kind = .leaf) : Decodes node root [false] (nodeAt node root).sym

/-- R151, R152, R191: a symbol's code decodes to the symbol. -/
theorem CodesMatch.decodes {s : State} (hc : CodesMatch s) (h : ArenaInv s [s.root]) {b : Byte}
    (hb : (codeAt s.code b).clen ≠ 0#8) : Decodes s.node s.root (codeBits (codeAt s.code b)) b := by
  obtain ⟨n, hn, rfl⟩ := (hc.clen_ne_zero_iff b).mp hb
  obtain ⟨hleaf, -⟩ := h.leaf n hn
  obtain hone | htwo : s.nleaf.toNat = 1 ∨ 2 ≤ s.nleaf.toNat := by omega
  · have hroot : nodeNo s n = nodeAt s.node s.root := by
      have hlast := h.root_last
      have hcount := h.count
      rw [List.length_singleton] at hcount
      rw [← nodeNo_toNat, show s.root.toNat = n by omega]
    have hcode : codeBits (codeAt s.code (nodeNo s n).sym) = [false] := congrArg codeBits (hc.code_of_single hn hone)
    rw [hcode, hroot]
    exact .single (hroot ▸ hleaf)
  · refine .path (hc.follow_code hn htwo) hleaf ?_
    rwa [length_codeBits, BitVec.ofNat_toNat, BitVec.setWidth_eq]

/-- R197: before the end of such a bit string the walk is at the root or at an Internal node. -/
theorem Decodes.exists_inside {node : Vector Node 511} {root : NodeIdx} {p q : List Bool} {b : Byte}
    (h : Decodes node root (p ++ q) b) (hq : q ≠ []) :
    ∃ m, follow node root p = some m ∧ (p.length = 0 ∨ (nodeAt node m).kind = .internal) := by
  generalize hbits : p ++ q = bits at h
  cases h with
  | path hpath hk =>
    rw [← hbits, follow_append, Option.bind_eq_some_iff] at hpath
    obtain ⟨m, hm, hrest⟩ := hpath
    obtain ⟨x, q, rfl⟩ := List.exists_cons_of_ne_nil hq
    rw [follow] at hrest
    split at hrest
    · exact ⟨m, hm, .inr ‹_›⟩
    · simp at hrest
  | single =>
    have hlen := congrArg List.length hbits
    have := List.length_pos_iff.mpr hq
    rw [List.length_append, List.length_singleton] at hlen
    obtain rfl : p = [] := List.length_eq_zero_iff.mp (by omega)
    exact ⟨root, rfl, .inl rfl⟩

/-- R187 to R189: from the root, the walk on such bit strings one after the other emits `out`. -/
inductive DecodesTo (node : Vector Node 511) (root : NodeIdx) : List Bool → List Byte → Prop where
  | nil : DecodesTo node root [] []
  | snoc {w bits : List Bool} {out : List Byte} {b : Byte} (hw : DecodesTo node root w out) (hb : Decodes node root bits b) :
      DecodesTo node root (w ++ bits) (out ++ [b])

/-- R169, R191: the codes of bytes decode to the bytes. -/
theorem DecodesTo.stream {node : Vector Node 511} {root : NodeIdx} {code : Vector Code 256} {bs : List Byte}
    (h : ∀ b ∈ bs, Decodes node root (codeBits (codeAt code b)) b) : DecodesTo node root (streamOf code bs) bs := by
  induction bs using List.reverseRecOn with
  | nil => exact .nil
  | append_singleton bs b ih =>
    rw [streamOf, List.flatMap_append, List.flatMap_singleton]
    exact .snoc (ih fun x hx => h x (List.mem_append_left _ hx)) (h b (by simp))

/-- R151: in a tree of two leaves or more the root is Internal. -/
theorem ArenaInv.root_internal {s : State} (h : ArenaInv s [s.root]) (hl : 2 ≤ s.nleaf.toNat) :
    (nodeAt s.node s.root).kind = .internal := by
  cases hk : (nodeAt s.node s.root).kind with
  | leaf =>
    have := h.root_kind.mp hk
    omega
  | internal => rfl

/-- R49: DEPTH holds a depth below 2^8. -/
theorem depth_ne_zero_iff {d : Nat} (h : d < 2 ^ 8) : BitVec.ofNat 8 d ≠ 0#8 ↔ d ≠ 0 := by
  rw [ne_eq, ne_eq, ← BitVec.toNat_inj, BitVec.toNat_ofNat, Nat.mod_eq_of_lt h]
  rfl

/-- R154 (d): DEPTH does not wrap on a path of one bit or more. -/
theorem ArenaInv.depth_ne_zero {s : State} (h : ArenaInv s [s.root]) {m : NodeIdx} {bits : List Bool}
    (hf : follow s.node s.root bits = some m) (hne : bits ≠ []) : BitVec.ofNat 8 bits.length ≠ 0#8 := by
  have hlen := h.length_path hf
  have hleaves := h.leafCount
  exact (depth_ne_zero_iff (by omega)).mpr (List.length_pos_iff.mpr hne).ne'

/-- R198 (d): in a tree of two leaves or more every bit string decodes, up to a rest that ends at an Internal node. -/
theorem ArenaInv.exists_decodesTo {s : State} (h : ArenaInv s [s.root]) (hl : 2 ≤ s.nleaf.toNat) (bits : List Bool) :
    ∃ w out rest m, bits = w ++ rest ∧ DecodesTo s.node s.root w out ∧ follow s.node s.root rest = some m
      ∧ (nodeAt s.node m).kind = .internal := by
  induction bits using List.reverseRecOn with
  | nil => exact ⟨[], [], [], s.root, rfl, .nil, rfl, h.root_internal hl⟩
  | append_singleton bits x ih =>
    obtain ⟨w, out, rest, m, rfl, hw, hm, hk⟩ := ih
    have hchild := follow_snoc hm hk x
    cases hkind : (nodeAt s.node (childOf (nodeAt s.node m) x)).kind with
    | internal => exact ⟨w, out, rest ++ [x], _, List.append_assoc .., hw, hchild, hkind⟩
    | leaf =>
      have hsymbol : Decodes s.node s.root (rest ++ [x]) _ := .path hchild hkind (h.depth_ne_zero hchild (by simp))
      exact ⟨w ++ (rest ++ [x]), _, [], s.root, by simp, .snoc hw hsymbol, rfl, h.root_internal hl⟩

/-! ## The state between two bits (R185, R187) -/

/-- R185, R187: the walk between two bits, the engine's place excepted: `k` bits of `ins` are taken, `out` is emitted, and the walk
stands at `cur`, `d` bits from the root. -/
def walked (s : State) (ins : List Byte) (k : Nat) (out : List Byte) (cur : NodeIdx) (d : Nat) : State :=
  { s with
    bytecnt := BitVec.ofNat 32 out.length
    bitcnt := BitVec.ofNat 64 k
    reader := readerAfter ins k
    inPort.buf := bufAfter ins k
    walk := ⟨cur, BitVec.ofNat 8 d, BitVec.ofNat 32 out.length, s.walk.limit⟩
    sink := s.sink ++ out }

section
variable {s : State} (ins : List Byte) (k : Nat) (out : List Byte) (cur : NodeIdx) (d : Nat)

/-- R78, R188: one more bit taken, and the move to `child`. -/
theorem walked_succ (child : NodeIdx) : walked s ins (k + 1) out child (d + 1) =
    { walked s ins k out cur d with
      bitcnt := BitVec.ofNat 64 k + 1#64
      reader := readerAfter ins (k + 1)
      inPort.buf := bufAfter ins (k + 1)
      walk := ⟨child, BitVec.ofNat 8 d + 1#8, BitVec.ofNat 32 out.length, s.walk.limit⟩ } := by
  rw [walked, BitVec.ofNat_add, BitVec.ofNat_add]
  rfl

/-- R187: one more byte emitted, and the return to the root. -/
theorem walked_emitted (v : Byte) : walked s ins k (out ++ [v]) s.root 0 =
    { walked s ins k out cur d with
      bytecnt := BitVec.ofNat 32 out.length + 1#32
      walk := ⟨s.root, 0#8, BitVec.ofNat 32 out.length + 1#32, s.walk.limit⟩
      sink := s.sink ++ out ++ [v] } := by
  rw [walked, List.length_append, List.length_singleton, BitVec.ofNat_add, List.append_assoc]
  rfl

variable {k cur d} (c : Instr)

/-- R78, R188: the walk moves on bit `k` of the input. -/
theorem engineStep_walkRead_walked {x : Bool} (hx : (inputBits ins)[k]? = some x) :
    engineStep (goTo c .walkRead (walked s ins k out cur d))
      = some (walkBit c x (bitTaken (goTo c .walkRead (walked s ins k out cur d)) (ins.getD (k / 8) 0#8)
        (BitVec.ofNat 4 (7 - k % 8)) (bufAfter ins (k + 1)))) := by
  obtain ⟨hk, hx⟩ := List.getElem?_eq_some_iff.mp hx
  have hbit : (BitVec.ofNat 4 (7 - k % 8)).toNat = 7 - k % 8 := Nat.mod_eq_of_lt (by omega)
  rw [engineStep_walkRead rfl, walkRead_of_nextBit c (by omega) (nextBit_of_readerAfter hk rfl rfl), hbit,
    ← getElem_inputBits hk, hx]

variable {c} (h : Quiet s)
include h

/-- R185: the walk needs a bit, unless it has reached a leaf or EXPAND has emitted LEN bytes. -/
theorem Quiet.reaches_walkRead (hat : d = 0 ∨ (nodeAt s.node cur).kind = .internal)
    (hmore : bounded c = true → BitVec.ofNat 32 out.length ≠ s.walk.limit) :
    Reaches (goTo c .walkTop (walked s ins k out cur d)) (goTo c .walkRead (walked s ins k out cur d)) := by
  have hquiet : Quiet (walked s ins k out cur d) := h
  refine hquiet.reaches_of_engineStep (by simp) ((engineStep_walkTop rfl).trans (congrArg some ?_))
  exact walkTop_more (s := goTo c .walkTop (walked s ins k out cur d)) c (hat.imp_left fun hd => by rw [hd]; rfl) hmore

/-- R188: at an Internal node the bit selects the child. -/
theorem Quiet.reaches_child {x : Bool} (hx : (inputBits ins)[k]? = some x) (hk : (nodeAt s.node cur).kind = .internal) :
    Reaches (goTo c .walkRead (walked s ins k out cur d))
      (goTo c .walkTop (walked s ins (k + 1) out (childOf (nodeAt s.node cur) x) (d + 1))) := by
  have hquiet : Quiet (walked s ins k out cur d) := h
  refine hquiet.reaches_of_engineStep (by simp) ((engineStep_walkRead_walked ins out c hx).trans (congrArg some ?_))
  rw [walkBit_internal c x hk, walked_succ ins k out cur d]
  rfl

/-- R189: in a tree that is a single Leaf, 0 reaches the Leaf. -/
theorem Quiet.reaches_singleLeaf (hx : (inputBits ins)[k]? = some false) (hk : (nodeAt s.node cur).kind = .leaf) :
    Reaches (goTo c .walkRead (walked s ins k out cur 0)) (goTo c .walkTop (walked s ins (k + 1) out cur 1)) := by
  have hquiet : Quiet (walked s ins k out cur 0) := h
  refine hquiet.reaches_of_engineStep (by simp) ((engineStep_walkRead_walked ins out c hx).trans (congrArg some ?_))
  rw [walkBit_leaf_false c hk, walked_succ ins k out cur 0]
  rfl

/-- R187: a leaf reached is offered on OUT, accepted and counted, and the walk is at the root again. -/
theorem Quiet.reaches_emitted (hd : BitVec.ofNat 8 d ≠ 0#8) (hk : (nodeAt s.node cur).kind = .leaf) :
    Reaches (goTo c .walkTop (walked s ins k out cur d))
      (goTo c .walkTop (walked s ins k (out ++ [(nodeAt s.node cur).sym]) s.root 0)) := by
  let v := (nodeAt s.node cur).sym
  have hquiet : Quiet (walked s ins k out cur d) := h
  have hoffer : Reaches (goTo c .walkTop (walked s ins k out cur d)) (goTo c .walkOut (offerOut v (walked s ins k out cur d))) :=
    hquiet.reaches_of_engineStep (by simp) ((engineStep_walkTop rfl).trans
      (congrArg some (walkTop_leaf (s := goTo c .walkTop (walked s ins k out cur d)) c hd hk)))
  have hsent : Quiet { walked s ins k out cur d with sink := s.sink ++ out ++ [v] } := h
  have haccepted : (goTo c .walkOut { walked s ins k out cur d with sink := s.sink ++ out ++ [v] }).outPend = none := h.2.2
  refine hoffer.trans ((hquiet.reaches_accepted ..).trans (hsent.reaches_of_engineStep (by simp) ?_))
  rw [engineStep_walkOut rfl, walkOut_accepted c haccepted, walked_emitted ins k out cur d]
  rfl

/-! ## Several bits (R188, R191) -/

/-- R188: the walk follows a path. -/
theorem Quiet.reaches_followed {bits : List Bool} {m : NodeIdx} (hbits : bits <+: (inputBits ins).drop k)
    (hpath : follow s.node cur bits = some m) (hmore : bounded c = true → BitVec.ofNat 32 out.length ≠ s.walk.limit) :
    Reaches (goTo c .walkTop (walked s ins k out cur d))
      (goTo c .walkTop (walked s ins (k + bits.length) out m (d + bits.length))) := by
  induction bits generalizing k cur d with
  | nil =>
    obtain rfl : cur = m := by simpa [follow] using hpath
    exact .refl _
  | cons x bits ih =>
    rw [follow] at hpath
    split at hpath
    · have hbit := h.reaches_child ins out (c := c) (d := d) (getElem?_of_prefix_drop hbits) ‹_›
      have hrest := ih (d := d + 1) (prefix_drop_of_append (as := [x]) hbits) hpath
      rw [List.length_cons, Nat.add_comm bits.length, ← Nat.add_assoc, ← Nat.add_assoc]
      exact (h.reaches_walkRead ins out (.inr ‹_›) hmore).trans (hbit.trans hrest)
    · simp at hpath

/-- R187, R191: the walk decodes one symbol and emits it. -/
theorem Quiet.reaches_decoded {bits : List Bool} {b : Byte} (hdec : Decodes s.node s.root bits b)
    (hbits : bits <+: (inputBits ins).drop k)
    (hmore : bounded c = true → BitVec.ofNat 32 out.length ≠ s.walk.limit) :
    Reaches (goTo c .walkTop (walked s ins k out s.root 0))
      (goTo c .walkTop (walked s ins (k + bits.length) (out ++ [b]) s.root 0)) := by
  cases hdec with
  | path hpath hk hd =>
    have hfollow := h.reaches_followed ins out (d := 0) hbits hpath hmore
    rw [Nat.zero_add] at hfollow
    exact hfollow.trans (h.reaches_emitted ins out hd hk)
  | single hk =>
    have hread := h.reaches_walkRead ins out (k := k) (cur := s.root) (.inl rfl) hmore
    have hbit := h.reaches_singleLeaf ins out (c := c) (getElem?_of_prefix_drop hbits) hk
    exact hread.trans (hbit.trans (h.reaches_emitted ins out (by decide) hk))

/-- R187, R191: the walk decodes one symbol after the other, and emits them. -/
theorem Quiet.reaches_allDecoded {w : List Bool} (hdec : DecodesTo s.node s.root w out) (hbits : w <+: inputBits ins)
    (hmore : bounded c = true → ∀ i < out.length, BitVec.ofNat 32 i ≠ s.walk.limit) :
    Reaches (goTo c .walkTop (walked s ins 0 [] s.root 0)) (goTo c .walkTop (walked s ins w.length out s.root 0)) := by
  induction hdec with
  | nil => exact .refl _
  | @snoc w bits out b _ hb ih =>
    have hfirst := ih ((List.prefix_append w bits).trans hbits) fun hc i hi => hmore hc i (by simp; omega)
    have hlast := h.reaches_decoded ins out (k := w.length) (c := c) hb (by
      have := prefix_drop_of_append (k := 0) (as := w) (l := inputBits ins) hbits
      rwa [Nat.zero_add] at this) fun hc => hmore hc out.length (by simp)
    rw [List.length_append]
    exact hfirst.trans hlast

/-! ## The end of the input (R195, R196) -/

/-- R196: EXPANDX ends where it needs a bit and all bits of the closed input are taken. -/
theorem Quiet.reaches_exhausted (hk : k = 8 * ins.length) (hclosed : s.inPort.closed = true)
    (hp : s.status.partialWalk = false) :
    Reaches (goTo .expandx .walkRead (walked s ins k out cur d)) (completeCommand .expandx
      { walked s ins k out cur d with status.partialWalk := decide (BitVec.ofNat 8 d ≠ 0#8) }) := by
  have hquiet : Quiet (walked s ins k out cur d) := h
  have hend : Quiet { walked s ins k out cur d with status.partialWalk := decide (BitVec.ofNat 8 d ≠ 0#8) } := h
  have hempty : (readerAfter ins k).rbits = 0#4 := readerAfter_empty ins ⟨ins.length, hk⟩
  have hbuf : bufAfter ins k = [] := List.drop_eq_nil_of_le (by omega)
  have hin : (walked s ins k out cur d).inPort = ⟨[], true⟩ := by rw [← hbuf, ← hclosed]; rfl
  exact (hquiet.reaches_of_engineStep (by simp) ((engineStep_walkRead rfl).trans ((walkRead_exhausted .expandx hempty hin).trans
    (congrArg some (walkExhausted_unbounded rfl hp))))).trans (hend.reaches_completed .expandx)

end

/-! ## EXPAND (R191) -/

/-- R185: an accepted EXPAND or EXPANDX comes to the walk's loop with no bit taken and nothing emitted. -/
theorem Quiet.reaches_walkTop {s : State} (h : Quiet s) {c : Instr} (hc : c = .expand ∨ c = .expandx) (htv : s.status.tv = true) :
    Reaches (acceptCommand c s)
      (goTo c .walkTop (walked (walkEntered c (acceptCommand c s)) s.inPort.buf 0 [] s.root 0)) := by
  have hquiet : Quiet (acceptCommand c s) := h
  have hstart : walked (walkEntered c (acceptCommand c s)) s.inPort.buf 0 [] s.root 0 = walkEntered c (acceptCommand c s) := by
    rw [walked, List.append_nil]
    rfl
  have hturn := hquiet.reaches_engineTurn
  rwa [engineTurn_walkStart hc htv, ← hstart] at hturn

/-- R191: EXPAND ends once what decodes to LEN bytes is taken. -/
theorem Quiet.reaches_expanded {s : State} (h : Quiet s) (htv : s.status.tv = true) {w : List Bool} {out : List Byte}
    (hdec : DecodesTo s.node s.root w out) (hbits : w <+: inputBits s.inPort.buf) (hlen : out.length < 2 ^ 32)
    (hlimit : s.len = BitVec.ofNat 32 out.length) :
    Reaches (acceptCommand .expand s) (completeCommand .expand
      (walked (walkEntered .expand (acceptCommand .expand s)) s.inPort.buf w.length out s.root 0)) := by
  have hquiet : Quiet (walkEntered .expand (acceptCommand .expand s)) := h
  have hmore : ∀ i < out.length, BitVec.ofNat 32 i ≠ s.len := fun i hi he => by
    have := congrArg BitVec.toNat (he.trans hlimit)
    rw [BitVec.toNat_ofNat, BitVec.toNat_ofNat] at this
    omega
  have hloop := hquiet.reaches_allDecoded s.inPort.buf out (c := .expand) hdec hbits fun _ => hmore
  have hwalked : Quiet (walked (walkEntered .expand (acceptCommand .expand s)) s.inPort.buf w.length out s.root 0) := h
  have hend := hwalked.reaches_of_engineStep (c := .expand) (p := .walkTop) (by simp) ((engineStep_walkTop rfl).trans
    (congrArg some (walkTop_limit .expand (.inl rfl) rfl hlimit.symm)))
  exact (h.reaches_walkTop (.inl rfl) htv).trans (hloop.trans (hend.trans (hwalked.reaches_completed .expand)))

/-- R169: the packed bytes of a stream begin with the stream. -/
theorem prefix_inputBits_packedBytes (bits : List Bool) : bits <+: inputBits (packedBytes bits) := by
  rw [inputBits_packedBytes]
  exact List.prefix_append _ _

/-- Settles O48: a byte's code decodes to the byte. -/
theorem expandReproducesTheBytes : Obligations.ExpandReproducesTheBytes := by
  unfold Obligations.ExpandReproducesTheBytes
  intro s bs hb htv ha hcodes h hin hlen hlimit hc
  have hdec : DecodesTo s.node s.root (streamOf s.code bs) bs := .stream fun b hmem => hcodes.decodes ha (hc b hmem)
  have hbits : streamOf s.code bs <+: inputBits s.inPort.buf := by
    rw [hin]
    exact prefix_inputBits_packedBytes _
  refine ⟨_, _, exec_accepted rfl hb, h.reaches_expanded htv hdec hbits hlen hlimit, ?_⟩
  rw [completeCommand_of_endsSession rfl, walked, ← hlimit]
  rfl

/-! ## EXPANDX (R195, R197, R198) -/

/-- R195, R196: EXPANDX of an input that decodes up to a rest which ends inside the tree. -/
theorem Quiet.reaches_expandxed {s : State} (h : Quiet s) (htv : s.status.tv = true) (hclosed : s.inPort.closed = true)
    {w rest : List Bool} {out : List Byte} {m : NodeIdx} (hbits : inputBits s.inPort.buf = w ++ rest)
    (hdec : DecodesTo s.node s.root w out) (hpath : follow s.node s.root rest = some m)
    (hat : rest.length = 0 ∨ (nodeAt s.node m).kind = .internal) :
    Reaches (acceptCommand .expandx s) (completeCommand .expandx
      { walked (walkEntered .expandx (acceptCommand .expandx s)) s.inPort.buf (w ++ rest).length out m rest.length with
        status.partialWalk := decide (BitVec.ofNat 8 rest.length ≠ 0#8) }) := by
  let t := walkEntered .expandx (acceptCommand .expandx s)
  have hquiet : Quiet t := h
  have hall : (w ++ rest).length = 8 * s.inPort.buf.length := by rw [← hbits, length_inputBits]
  have hrest : rest <+: (inputBits s.inPort.buf).drop w.length := by rw [hbits, List.drop_left]
  have hfollowed := hquiet.reaches_followed s.inPort.buf out (d := 0) (c := .expandx) hrest hpath (by simp [bounded])
  rw [← List.length_append, Nat.zero_add] at hfollowed
  refine (h.reaches_walkTop (.inr rfl) htv).trans ?_
  refine (hquiet.reaches_allDecoded s.inPort.buf out hdec ⟨rest, hbits.symm⟩ (by simp [bounded])).trans (hfollowed.trans ?_)
  refine (hquiet.reaches_walkRead s.inPort.buf out hat (by simp [bounded])).trans ?_
  exact hquiet.reaches_exhausted s.inPort.buf out hall hclosed rfl

/-- R197: copies of a symbol whose code is `d` zeros pack to that many zeros each. -/
theorem streamOf_append_replicate {code : Vector Code 256} (bs : List Byte) {z : Sym} {d : Nat}
    (hz : codeBits (codeAt code z) = List.replicate d false) (q : Nat) :
    streamOf code (bs ++ List.replicate q z) = streamOf code bs ++ List.replicate (q * d) false := by
  rw [streamOf, List.flatMap_append]
  congr 1
  induction q with
  | zero => simp
  | succ q ih => rw [List.replicate_succ, List.flatMap_cons, ih, hz, List.replicate_append_replicate, Nat.succ_mul, Nat.add_comm]

/-- R197: zeros are as many whole codes of such a symbol as fit, and a rest. -/
theorem streamOf_append_zeros {code : Vector Code 256} (bs : List Byte) {z : Sym} {d : Nat}
    (hz : codeBits (codeAt code z) = List.replicate d false) (p : Nat) : streamOf code bs ++ List.replicate p false
      = streamOf code (bs ++ List.replicate (p / d) z) ++ List.replicate (p % d) false := by
  rw [streamOf_append_replicate bs hz, List.append_assoc, List.replicate_append_replicate, Nat.div_add_mod']

/-- Settles O49: the padding decodes as whole codes of the symbol, and what is left over is the beginning of one. -/
theorem expandxAddsTheSpuriousSymbols : Obligations.ExpandxAddsTheSpuriousSymbols := by
  unfold Obligations.ExpandxAddsTheSpuriousSymbols
  intro s bs z hb htv ha hcodes h hin hc hz hzeros
  generalize hp : padding (streamOf s.code bs).length = p
  generalize hd : (codeAt s.code z).clen.toNat = d
  have hpos : 0 < d := Nat.pos_of_ne_zero fun h0 => hz (BitVec.eq_of_toNat_eq (hd.trans h0))
  have hzcode : codeBits (codeAt s.code z) = List.replicate d false :=
    List.eq_replicate_iff.mpr ⟨(length_codeBits _).trans hd, hzeros⟩
  have hmod : p % d < d := Nat.mod_lt p hpos
  have hdecz := hcodes.decodes ha hz
  rw [hzcode, ← Nat.add_sub_cancel' hmod.le, ← List.replicate_append_replicate] at hdecz
  obtain ⟨m, hm, hat⟩ := hdecz.exists_inside (by simp; omega)
  have hbits : inputBits s.inPort.buf
      = streamOf s.code (bs ++ List.replicate (p / d) z) ++ List.replicate (p % d) false := by
    rw [hin, inputBits_packedBytes, hp, streamOf_append_zeros bs hzcode]
  have hdec : DecodesTo s.node s.root (streamOf s.code (bs ++ List.replicate (p / d) z)) (bs ++ List.replicate (p / d) z) := by
    refine .stream fun b hmem => hcodes.decodes ha ?_
    obtain hb | hb := List.mem_append.mp hmem
    · exact hc b hb
    · rwa [List.eq_of_mem_replicate hb]
  refine ⟨_, _, exec_accepted rfl hb, h.reaches_expandxed htv (congrArg InPort.closed hin) hbits hdec hm hat, ?_⟩
  have hcount : (streamOf s.code (bs ++ List.replicate (p / d) z) ++ List.replicate (p % d) false).length
      = (streamOf s.code bs).length + p := by
    rw [← hbits, hin, inputBits_packedBytes, hp, List.length_append, List.length_replicate]
  have hpartial : BitVec.ofNat 8 (p % d) ≠ 0#8 ↔ p % d ≠ 0 := by
    have hsmall : p < 8 := hp ▸ Nat.mod_lt _ (by decide)
    exact depth_ne_zero_iff (by have := Nat.mod_le p d; omega)
  rw [completeCommand_of_endsSession rfl, walked, hcount, List.length_replicate, decide_eq_decide.mpr hpartial,
    List.length_append, List.length_replicate, ← List.append_assoc]
  rfl

/-- Settles O50: any input decodes, up to a rest that ends inside the tree. -/
theorem expandxDecodesEveryBitPattern : Obligations.ExpandxDecodesEveryBitPattern := by
  unfold Obligations.ExpandxDecodesEveryBitPattern
  intro s bs hb htv ha hl h hin
  obtain ⟨w, out, rest, m, hbits, hdec, hm, hk⟩ := ha.exists_decodesTo hl (inputBits s.inPort.buf)
  have hcount : (w ++ rest).length = 8 * bs.length := by rw [← hbits, length_inputBits, hin]
  refine ⟨_, _, exec_accepted rfl hb, h.reaches_expandxed htv (congrArg InPort.closed hin) hbits hdec hm (.inr hk), ?_⟩
  rw [completeCommand_of_endsSession rfl, hcount]
  exact ⟨rfl, rfl, rfl, rfl, rfl, out, rfl, rfl⟩

end Sys2Proof.Machine
end

