-- ==== Sys2Proof/Proofs/HostRuns.lean ====
section
/-! SUPPORT. Runs of a host program: while the host waits for BUSY = 0 (spec/30_encoding.md R97) the engine runs as it does with the
host silent, and the next command follows. -/

namespace Sys2Proof.Machine

/-- `s` with `a` as the moves still to come. -/
def withAgenda (a : List Move) (s : State) : State := { s with agenda := a }

/-- A quiet host has no move to come. -/
theorem Quiet.withAgenda_nil {s : State} (h : Quiet s) : withAgenda [] s = s := by
  rw [withAgenda, ← h.1]

/-! ## The engine does not read the agenda (R244) -/

section
variable (a : List Move) (c : Instr) (s : State)

theorem buildStart_withAgenda : buildStart (withAgenda a s) = withAgenda a (buildStart s) := by
  rw [buildStart_eq, buildStart_eq]
  rfl

theorem buildLoop_withAgenda : buildLoop c (withAgenda a s) = withAgenda a (buildLoop c s) :=
  (apply_ite (withAgenda a) (1 < s.forest.length) (goTo c .buildLoop (mergeStep s)) (goTo c .complete (finishTree s))).symm

theorem deriveStart_withAgenda : deriveStart (withAgenda a s) = withAgenda a (deriveStart s) := by
  unfold deriveStart withAgenda
  dsimp only
  split
  · split <;> rfl
  · rfl

theorem nextVisit_withAgenda : nextVisit c (withAgenda a s) = withAgenda a (nextVisit c s) := by
  unfold nextVisit withAgenda
  dsimp only
  split <;> rfl

theorem deriveVisit_withAgenda (v : Visit) : deriveVisit c v (withAgenda a s) = withAgenda a (deriveVisit c v s) := by
  unfold deriveVisit withAgenda
  dsimp only
  split
  · exact nextVisit_withAgenda a c { s with code := setCode s.code (nodeAt s.node v.node).sym ⟨v.len, v.val⟩ }
  · rfl

theorem compressStart_withAgenda : compressStart (withAgenda a s) = withAgenda a (compressStart s) := by
  unfold compressStart withAgenda
  dsimp only
  split <;> rfl

theorem compressRead_withAgenda : compressRead c (withAgenda a s) = (compressRead c s).map (withAgenda a) := by
  unfold compressRead withAgenda
  dsimp only
  split
  · split <;> rfl
  · split <;> rfl

theorem compressPack_withAgenda (b : Byte) (i : BitVec 8) :
    compressPack c b i (withAgenda a s) = withAgenda a (compressPack c b i s) := by
  unfold compressPack withAgenda
  simp only [bitPacked_eq]
  split <;> rfl

theorem compressPackOut_withAgenda (b : Byte) (i : BitVec 8) :
    compressPackOut c b i (withAgenda a s) = (compressPackOut c b i s).map (withAgenda a) := by
  unfold compressPackOut withAgenda
  simp only [bitPacked_eq]
  split <;> rfl

theorem compressFlush_withAgenda : compressFlush c (withAgenda a s) = withAgenda a (compressFlush c s) := by
  unfold compressFlush withAgenda
  dsimp only
  split <;> rfl

theorem compressFlushOut_withAgenda : compressFlushOut c (withAgenda a s) = (compressFlushOut c s).map (withAgenda a) := by
  unfold compressFlushOut withAgenda
  dsimp only
  split <;> rfl

theorem walkStart_withAgenda : walkStart c (withAgenda a s) = withAgenda a (walkStart c s) := by
  unfold walkStart withAgenda
  dsimp only
  split <;> rfl

theorem walkTop_withAgenda : walkTop c (withAgenda a s) = withAgenda a (walkTop c s) := by
  unfold walkTop withAgenda
  dsimp only
  split
  · rfl
  · split <;> rfl

theorem walkBit_withAgenda (x : Bool) : walkBit c x (withAgenda a s) = withAgenda a (walkBit c x s) := by
  unfold walkBit withAgenda
  dsimp only
  split
  · split <;> rfl
  · rfl

theorem takeBit_withAgenda (r : BitReader) : takeBit c r (withAgenda a s) = withAgenda a (takeBit c r s) :=
  walkBit_withAgenda a c { s with reader := ⟨r.rbyte, r.rbits - 1#4⟩, bitcnt := s.bitcnt + 1#64 } _

theorem walkExhausted_withAgenda : walkExhausted c (withAgenda a s) = withAgenda a (walkExhausted c s) := by
  unfold walkExhausted withAgenda
  dsimp only
  split <;> rfl

theorem walkRead_withAgenda : walkRead c (withAgenda a s) = (walkRead c s).map (withAgenda a) := by
  unfold walkRead withAgenda
  dsimp only
  split
  · split
    · split
      · exact congrArg some (walkExhausted_withAgenda a c s)
      · rfl
    · rename_i rest _
      exact congrArg some (takeBit_withAgenda a c { s with inPort.buf := rest } _)
  · exact congrArg some (takeBit_withAgenda a c s s.reader)

theorem walkOut_withAgenda : walkOut c (withAgenda a s) = (walkOut c s).map (withAgenda a) := by
  unfold walkOut withAgenda
  dsimp only
  split <;> rfl

theorem startBody_withAgenda : startBody c (withAgenda a s) = withAgenda a (startBody c s) := by
  cases c with
  | nop | srst | ack | fclr => rfl
  | build => exact buildStart_withAgenda a s
  | derive => exact deriveStart_withAgenda a s
  | compress => exact compressStart_withAgenda a s
  | expand | expandx => exact walkStart_withAgenda a _ s

theorem completeCommand_withAgenda : completeCommand c (withAgenda a s) = withAgenda a (completeCommand c s) := by
  unfold completeCommand
  dsimp only
  split <;> rfl

/-- A micro-step neither reads nor writes the agenda. -/
theorem engineStep_withAgenda : engineStep (withAgenda a s) = (engineStep s).map (withAgenda a) := by
  match he : s.engine with
  | none => rw [engineStep_idle he, engineStep_idle (s := withAgenda a s) he, Option.map_none]
  | some (c, p) =>
    have he' : (withAgenda a s).engine = some (c, p) := he
    cases p with
    | start => rw [engineStep_start he, engineStep_start he', startBody_withAgenda, Option.map_some]
    | buildLoop => rw [engineStep_buildLoop he, engineStep_buildLoop he', buildLoop_withAgenda, Option.map_some]
    | deriveVisit v => rw [engineStep_deriveVisit he, engineStep_deriveVisit he', deriveVisit_withAgenda, Option.map_some]
    | deriveDone => rw [engineStep_deriveDone he, engineStep_deriveDone he']; rfl
    | compressRead => rw [engineStep_compressRead he, engineStep_compressRead he', compressRead_withAgenda]
    | compressPack b i =>
      rw [engineStep_compressPack he, engineStep_compressPack he', compressPack_withAgenda, Option.map_some]
    | compressPackOut b i => rw [engineStep_compressPackOut he, engineStep_compressPackOut he', compressPackOut_withAgenda]
    | compressFlush => rw [engineStep_compressFlush he, engineStep_compressFlush he', compressFlush_withAgenda, Option.map_some]
    | compressFlushOut => rw [engineStep_compressFlushOut he, engineStep_compressFlushOut he', compressFlushOut_withAgenda]
    | walkTop => rw [engineStep_walkTop he, engineStep_walkTop he', walkTop_withAgenda, Option.map_some]
    | walkRead => rw [engineStep_walkRead he, engineStep_walkRead he', walkRead_withAgenda]
    | walkOut => rw [engineStep_walkOut he, engineStep_walkOut he', walkOut_withAgenda]
    | raising e => rw [engineStep_raising he, engineStep_raising he']; rfl
    | complete => rw [engineStep_complete he, engineStep_complete he', completeCommand_withAgenda, Option.map_some]

/-- Nor does a turn of the engine. -/
theorem engineTurn_withAgenda : engineTurn (withAgenda a s) = withAgenda a (engineTurn s) := by
  have hraises : raises (withAgenda a s) = raises s := rfl
  unfold engineTurn
  rw [engineStep_withAgenda, hraises]
  cases engineStep s with
  | none => rfl
  | some t =>
    simp only [Option.map_some]
    split
    · rw [engineStep_withAgenda, Option.getD_map]
    · rfl

/-- Nor does the turn of whoever can move while the host waits. -/
theorem restTurn_withAgenda : restTurn (withAgenda a s) = withAgenda a (restTurn s) := by
  have hready : (withAgenda a s).sinkReady = s.sinkReady := rfl
  have hout : (withAgenda a s).outPend = s.outPend := rfl
  unfold restTurn
  rw [engineTurn_withAgenda, hready, hout]
  split
  · split <;> rfl
  · rfl

end

/-! ## The end of a command (R24, R102) -/

/-- R24: a command's end is its completion step, which leaves OUT alone. -/
theorem engineTurn_idle {s : State} (hs : s.status.busy = false → s.engine = none) (h : (engineTurn s).status.busy = false) :
    (engineTurn s).engine = none ∧ (engineTurn s).outPend = s.outPend := by
  obtain ⟨hstep, hturn⟩ | ⟨hraise, hstep⟩ | ⟨c, e, -, hturn⟩ := engineTurn_cases s
  · rw [hturn] at h ⊢
    exact ⟨hs h, rfl⟩
  · generalize engineTurn s = t at h hstep
    cases engineStep_effect hstep with
    | raise c e he => exact absurd ⟨c, e, he⟩ hraise
    | complete c => simp
    | body c p he _ g =>
      obtain ⟨q, u, rfl, ⟨hbusy, -⟩, -⟩ := g
      rw [goTo_status, hbusy] at h
      simp [hs h] at he
  · simp [hturn]

/-- At BUSY = 0 the engine is idle and no byte waits on OUT. -/
def RestsWhenIdle (s : State) : Prop := s.status.busy = false → s.engine = none ∧ s.outPend = none

/-- Then nobody but the host can move. -/
theorem RestsWhenIdle.restTurn_eq {s : State} (h : RestsWhenIdle s) (hb : s.status.busy = false) : restTurn s = s := by
  obtain ⟨he, ho⟩ := h hb
  rw [restTurn, ho, engineTurn_of_none (engineStep_idle he), ite_self]

/-- A sink that is ready has taken every byte before the command completes. -/
theorem RestsWhenIdle.restTurn {s : State} (h : RestsWhenIdle s) (hr : s.sinkReady = true) : RestsWhenIdle (restTurn s) := by
  rw [Machine.restTurn, if_pos hr]
  split
  · exact fun hb => ⟨(h hb).1, rfl⟩
  · rename_i ho
    intro hb
    obtain ⟨he, hout⟩ := engineTurn_idle (fun hb => (h hb).1) hb
    exact ⟨he, hout.trans ho⟩

/-- A sink that is ready stays so. -/
theorem restTurn_sinkReady (s : State) : (restTurn s).sinkReady = s.sinkReady := by
  obtain ⟨-, -, -, -, hr, -⟩ := engineTurn_frame s
  unfold restTurn
  split
  · split
    · rfl
    · exact hr
  · exact hr

/-! ## A host that waits (R70, R97) -/

/-- R97: while BUSY = 1 the wait stays and the engine has the turn. -/
theorem step_waitIdle_busy {s : State} {rest : List Move} (ha : s.agenda = .host .waitIdle :: rest) (hb : s.status.busy = true) :
    step s = .next (restTurn s) :=
  step_of_settled (by rw [turn_host ha, hostTurn, if_pos hb])

/-- R97: at BUSY = 0 the wait is over. -/
theorem step_waitIdle_idle {s : State} {rest : List Move} (ha : s.agenda = .host .waitIdle :: rest) (hb : s.status.busy = false) :
    step s = .next (withAgenda rest s) :=
  step_of_settled (by rw [turn_host ha, hostTurn, if_neg (by simp [hb])]; rfl)

/-- R97: what a run with the host silent reaches, a run with the host waiting reaches too, and the wait is over there. -/
theorem Reaches.waiting {s u : State} (h : Reaches s u) (ha : s.agenda = []) (hr : s.sinkReady = true) (hs : RestsWhenIdle s)
    (hu : u.status.busy = false) (rest : List Move) :
    Reaches (withAgenda (.host .waitIdle :: rest) s) (withAgenda rest u) := by
  obtain ⟨k, hk⟩ := h
  induction k generalizing s with
  | zero =>
    obtain rfl := Host.Outcome.next.inj hk
    exact .of_step (step_waitIdle_idle rfl hu)
  | succ k ih =>
    have hstep : core.step s = .next (restTurn s) := step_of_no_agenda ha
    simp only [Host.Core.run, hstep] at hk
    have hgo := ih ((restTurn_agenda s).trans ha) ((restTurn_sinkReady s).trans hr) (hs.restTurn hr) hk
    cases hb : s.status.busy with
    | false => rwa [hs.restTurn_eq hb] at hgo
    | true =>
      refine .head (step_waitIdle_busy rfl hb) ?_
      rwa [restTurn_withAgenda]

/-- R97: RUN of a command that, with the host silent, comes to its end in `u`. -/
theorem Quiet.reaches_run {s u : State} {c : Instr} (h : Quiet s) (hc : setsBusy c = true) (hb : s.status.busy = false)
    (hu : u.status.busy = false) (hrun : Reaches (acceptCommand c s) u) (rest : List Move) :
    Reaches (withAgenda (Program.run c ++ rest) s) (withAgenda rest u) := by
  obtain ⟨ha, hr, -⟩ := h
  have hcmd : step (withAgenda (Program.run c ++ rest) s) = .next (acceptCommand c (withAgenda (.host .waitIdle :: rest) s)) :=
    (step_cmdWrite rfl (decode_encode c)).trans (exec_accepted hc hb)
  exact .head hcmd (hrun.waiting ha hr (fun hbusy => by simp at hbusy) hu rest)

/-! ## Commands that use no stream -/

/-- No byte is on OUT, and the engine is idle or in a body that offers none. -/
def OffStream (s : State) : Prop := s.outPend = none ∧ ∀ x ∈ s.engine, placeFits x.1 x.2 = true ∧ endsSession x.1 = false

/-- R79: bytes are offered in the bodies of the stream commands only. -/
theorem endsSession_of_mayOffer {c : Instr} {p : Point} (hp : placeFits c p = true) (ho : mayOffer p = true) :
    endsSession c = true := by
  cases p with
  | compressPackOut | compressFlushOut =>
    obtain rfl : c = .compress := by simpa [placeFits] using hp
    rfl
  | walkOut =>
    obtain rfl | rfl : c = .expand ∨ c = .expandx := by simpa [placeFits] using hp
    · rfl
    · rfl
  | _ => simp [mayOffer] at ho

theorem OffStream.engineStep {s t : State} (hs : OffStream s) (h : engineStep s = some t) : OffStream t := by
  obtain ⟨hout, hplace⟩ := hs
  cases engineStep_effect h with
  | raise c e he =>
    obtain ⟨hfits, hends⟩ := hplace _ he
    refine ⟨hout, ?_⟩
    rintro _ ⟨rfl⟩
    exact ⟨(raisedBy_spec hfits).1, hends⟩
  | complete c he => exact ⟨by simpa using hout, by simp⟩
  | body c p he _ g =>
    obtain ⟨q, u, rfl, -, hB⟩ := g
    obtain ⟨hfits, hends⟩ := hplace _ he
    have B := hB hfits
    refine ⟨?_, ?_⟩
    · by_contra hne
      obtain hs | hq := B.out (Option.isSome_iff_ne_none.mpr hne)
      · simp [hout] at hs
      · exact absurd (endsSession_of_mayOffer B.fits hq) (by simp [hends])
    · rintro _ ⟨rfl⟩
      exact ⟨B.fits, hends⟩

/-- With the host silent such a command runs as the engine alone does. -/
theorem Quiet.reaches_engineRun {s : State} (h : Quiet s) (hs : OffStream s) (k : Nat) : Reaches s (engineRun k s) := by
  induction k generalizing s with
  | zero => exact .refl s
  | succ k ih =>
    have hfirst := h.reaches_engineTurn
    have hturn : OffStream (engineTurn s) := engineTurn_keeps (fun _ _ hu hstep => hu.engineStep hstep) s hs
    obtain ⟨ha, hr, -⟩ := h
    obtain ⟨-, -, -, hagenda, hready, -⟩ := engineTurn_frame s
    exact hfirst.trans (ih ⟨hagenda.trans ha, hready.trans hr, hturn.1⟩ hturn)

/-- R97: RUN of a command that uses no stream. -/
theorem Quiet.reaches_run_of_engineRun {s u : State} {c : Instr} (h : Quiet s) (hc : setsBusy c = true) (he : endsSession c = false)
    (hb : s.status.busy = false) {k : Nat} (hk : engineRun k (acceptCommand c s) = u) (hu : u.status.busy = false)
    (rest : List Move) : Reaches (withAgenda (Program.run c ++ rest) s) (withAgenda rest u) := by
  have hquiet : Quiet (acceptCommand c s) := h
  have hoff : OffStream (acceptCommand c s) := ⟨h.2.2, by rintro _ ⟨rfl⟩; exact ⟨hc, he⟩⟩
  exact h.reaches_run hc hb hu (hk ▸ hquiet.reaches_engineRun hoff k) rest

end Sys2Proof.Machine
end

