-- ==== Sys2Proof/Proofs/RoundTrip.lean ====
section
/-! PROOF. The round trip (spec/44_expander.md R200, O51): BUILD, DERIVE and COMPRESS, then EXPAND on the same tree, kept or built
again. -/

namespace Sys2Proof.Machine

/-! ## The tree commands -/

/-- `u` follows `s` by a command that succeeded and left the streams, FREQ and the host's side alone. -/
structure Succeeds (s u : State) : Prop where
  stopped : u.engine = none
  idle : u.status.busy = false
  err : u.status.err = s.status.err
  freq : u.freq = s.freq
  inPort : u.inPort = s.inPort
  sink : u.sink = s.sink
  quiet : Quiet s → Quiet u

/-- R144: BUILD of a vector with a count leaves its tree. -/
theorem exists_built {s : State} (hb : s.status.busy = false) (hx : ∃ x, 0#32 < freqAt s.freq x) :
    ∃ k u, engineRun k (acceptCommand .build s) = u ∧ Succeeds s u ∧ u.status.tv = true ∧ ArenaInv u [u.root]
      ∧ LeavesOf u s.freq := by
  obtain ⟨t, k, u, ht, hk, ha, hl, -, -, -, -, -, hu⟩ := buildBuildsTheTree s hb hx
  obtain rfl := Host.Outcome.next.inj ((exec_accepted rfl hb).symm.trans ht)
  refine ⟨k, u, hk, ⟨?_, ?_, ?_, ?_, ?_, ?_, fun h => ?_⟩, ?_, ha, hl⟩ <;> rw [hu]
  exact h

/-- R150, R154: DERIVE on a tree keeps it and leaves its code table. -/
theorem exists_derived {s : State} (hb : s.status.busy = false) (htv : s.status.tv = true) (ha : ArenaInv s [s.root]) :
    ∃ k u, engineRun k (acceptCommand .derive s) = u ∧ Succeeds s u ∧ SameTree s u ∧ u.status.cv = true
      ∧ CodesMatch u := by
  obtain ⟨t, k, u, ht, hk, hc, hu⟩ := deriveDerivesTheCodes s hb htv ha
  obtain rfl := Host.Outcome.next.inj ((exec_accepted rfl hb).symm.trans ht)
  refine ⟨k, u, hk, ⟨?_, ?_, ?_, ?_, ?_, ?_, fun h => ?_⟩, ⟨?_, ?_, ?_, ?_, ?_, ?_⟩, ?_, hc⟩ <;> rw [hu]
  exact h

/-! ## BUILD again (R144 (d)) -/

/-- R223: an idle engine stays idle. -/
theorem engineRun_of_stopped {s : State} (h : s.engine = none) (k : Nat) : engineRun k s = s := by
  induction k with
  | zero => rfl
  | succ k ih => rw [engineRun_succ, engineTurn_of_none (engineStep_idle h), ih]

/-- A body has one end. -/
theorem engineRun_end_unique {s : State} {j k : Nat} (hj : (engineRun j s).engine = none) (hk : (engineRun k s).engine = none) :
    engineRun j s = engineRun k s := by
  obtain ⟨i, rfl⟩ | ⟨i, rfl⟩ := (Nat.le_total j k).imp Nat.exists_eq_add_of_le Nat.exists_eq_add_of_le
  · rw [engineRun_add, engineRun_of_stopped hj]
  · rw [engineRun_add, engineRun_of_stopped hk]

/-- R24: at BUSY = 0 a body has come to its end. -/
theorem engineRun_stopped {s : State} (hs : s.status.busy = false → s.engine = none) {k : Nat}
    (h : (engineRun k s).status.busy = false) : (engineRun k s).engine = none := by
  induction k generalizing s with
  | zero => exact hs h
  | succ k ih => exact ih (fun hb => (engineTurn_idle hs hb).1) h

/-- The tree of `t` is one that BUILD makes of FREQ. -/
def HoldsBuiltTree (t : State) : Prop :=
  ∃ s k, s.status.busy = false ∧ s.freq = t.freq ∧ (engineRun k (acceptCommand .build s)).engine = none
    ∧ (engineRun k (acceptCommand .build s)).node = t.node ∧ (engineRun k (acceptCommand .build s)).root = t.root

/-- R144 (d): it is the only such tree. -/
theorem HoldsBuiltTree.unique {s t : State} (hs : HoldsBuiltTree s) (ht : HoldsBuiltTree t) (hfreq : s.freq = t.freq) :
    s.node = t.node ∧ s.root = t.root := by
  obtain ⟨p, j, hp, hpf, hj, hpn, hpr⟩ := hs
  obtain ⟨q, k, hq, hqf, hk, hqn, hqr⟩ := ht
  obtain ⟨p', q', i, -, hap, haq, hend, hend', hnode, -, -, hroot, -⟩ :=
    buildDependsOnFreqAlone p q hp hq (hpf.trans (hfreq.trans hqf.symm))
  obtain rfl := Host.Outcome.next.inj ((exec_accepted rfl hp).symm.trans hap)
  obtain rfl := Host.Outcome.next.inj ((exec_accepted rfl hq).symm.trans haq)
  have hpi := engineRun_end_unique hj (engineRun_stopped (by simp) hend)
  have hqi := engineRun_end_unique hk (engineRun_stopped (by simp) hend')
  rw [← hpn, ← hpr, ← hqn, ← hqr, hpi, hqi]
  exact ⟨hnode, hroot⟩

/-- R200: whether the tree is kept or built again, it is there for the next command. -/
theorem HoldsBuiltTree.kept {t : State} (ht : HoldsBuiltTree t) (h : Quiet t) (hstop : t.engine = none)
    (hb : t.status.busy = false) (htv : t.status.tv = true) (hx : ∃ x, 0#32 < freqAt t.freq x) {again : List Move}
    (hagain : again = [] ∨ again = Program.run .build) : ∃ v, Succeeds t v ∧ v.status.tv = true ∧ v.node = t.node
      ∧ v.root = t.root ∧ ∀ rest, Reaches (withAgenda (again ++ rest) t) (withAgenda rest v) := by
  obtain rfl | rfl := hagain
  · exact ⟨t, ⟨hstop, hb, rfl, rfl, rfl, rfl, id⟩, htv, rfl, rfl, fun rest => .refl _⟩
  · obtain ⟨k, v, hk, hv, htvv, -⟩ := exists_built hb hx
    have hvt : HoldsBuiltTree v := ⟨t, k, hb, hv.freq.symm, hk ▸ hv.stopped, by rw [hk], by rw [hk]⟩
    obtain ⟨hnode, hroot⟩ := hvt.unique ht hv.freq
    exact ⟨v, hv, htvv, hnode, hroot, h.reaches_run_of_engineRun rfl rfl hb hk hv.idle⟩

/-! ## The host's EXPAND (R200) -/

/-- R97, R109, R191: the host sets LEN and runs EXPAND. -/
theorem Quiet.exists_expanded {s : State} (h : Quiet s) (hb : s.status.busy = false) (htv : s.status.tv = true) {w : List Bool}
    {out : List Byte} (hdec : DecodesTo s.node s.root w out) (hbits : w <+: inputBits s.inPort.buf) (hlen : out.length < 2 ^ 32) :
    ∃ u, Reaches (withAgenda (Program.wr 0x0014#16 (BitVec.ofNat 32 out.length) ++ Program.run .expand) s) u
      ∧ u.agenda = [] ∧ u.status.busy = false ∧ u.status.err = s.status.err ∧ u.sink = s.sink ++ out := by
  obtain ⟨-, hset, -⟩ := hostWritesAreAsSpecified
    (withAgenda (Program.wr 0x0014#16 (BitVec.ofNat 32 out.length) ++ Program.run .expand) s) 0x0014#16 _ _ rfl (by decide)
  have hsized : Quiet { s with len := BitVec.ofNat 32 out.length } := h
  have hrun := hsized.reaches_run (c := .expand) rfl hb (by simp) (hsized.reaches_expanded htv hdec hbits hlen rfl) []
  exact ⟨_, .head (hset ⟨rfl, hb⟩) hrun, rfl, by simp [withAgenda], by simp [withAgenda, walked, walkEntered], by
    simp [withAgenda, walked, walkEntered]⟩

/-- R132: a symbol with a count is a leaf's, and has a code. -/
theorem CodesMatch.coded_of_count {s t : State} {freq : Vector Word 256} (hc : CodesMatch t) (hl : LeavesOf s freq)
    (ht : SameTree s t) {b : Byte} (hb : 0#32 < freqAt freq b) : (codeAt t.code b).clen ≠ 0#8 := by
  obtain ⟨hnode, hnleaf, -⟩ := ht
  obtain ⟨n, hn, hsym⟩ := (hl.present b).mp hb
  refine (hc.clen_ne_zero_iff b).mpr ⟨n, hnleaf ▸ hn, ?_⟩
  rw [nodeNo, hnode]
  exact hsym

/-- R200: BUILD, DERIVE and COMPRESS succeed on bytes that all have a count. What they emit holds a bit string that decodes to the
bytes on the tree of BUILD. -/
theorem Quiet.exists_compressed {s : State} (h : Quiet s) (hb : s.status.busy = false) {bs : List Byte}
    (hin : s.inPort = ⟨bs, true⟩) (hne : bs ≠ []) (hpos : ∀ b ∈ bs, 0#32 < freqAt s.freq b) :
    ∃ t w, Reaches (withAgenda (Program.run .build ++ (Program.run .derive ++ Program.run .compress)) s) t ∧ Quiet t
      ∧ t.engine = none ∧ t.status.busy = false ∧ t.status.tv = true ∧ t.status.err = s.status.err ∧ t.freq = s.freq
      ∧ t.bytecnt = BitVec.ofNat 32 bs.length ∧ t.sink = s.sink ++ packedBytes w ∧ HoldsBuiltTree t
      ∧ DecodesTo t.node t.root w bs := by
  obtain ⟨j, b, hj, hsb, htv, ha, hl⟩ := exists_built hb ⟨bs.head hne, hpos _ (List.head_mem hne)⟩
  obtain ⟨k, d, hk, hsd, htree, hcv, hc⟩ := exists_derived hsb.idle htv ha
  have hqb := hsb.quiet h
  have hqd := hsd.quiet hqb
  have hcoded (y : Byte) (hy : y ∈ bs) : (codeAt d.code y).clen ≠ 0#8 := hc.coded_of_count hl htree (hpos y hy)
  obtain ⟨a, t, haccept, hcompress, ht⟩ :=
    compressPacksTheCodes d bs hsd.idle hcv hqd (hsd.inPort.trans (hsb.inPort.trans hin)) hcoded
  obtain rfl := Host.Outcome.next.inj ((exec_accepted rfl hsd.idle).symm.trans haccept)
  have hbuild := h.reaches_run_of_engineRun rfl rfl hb hj hsb.idle (Program.run .derive ++ Program.run .compress)
  have hderive := hqb.reaches_run_of_engineRun rfl rfl hsb.idle hk hsd.idle (Program.run .compress)
  have had := ha.tree htree
  obtain ⟨hnode, -, -, hroot, htvd, -⟩ := htree
  rw [← hroot] at had
  have hdec : DecodesTo d.node d.root (streamOf d.code bs) bs :=
    .stream fun y hy => hc.decodes had (hcoded y hy)
  have hfreq : d.freq = s.freq := hsd.freq.trans hsb.freq
  have hbuilt : HoldsBuiltTree d := ⟨s, j, hb, hfreq.symm, hj ▸ hsb.stopped, by rw [hj, hnode], by rw [hj, hroot]⟩
  have hqt : Quiet t := by rw [ht]; exact hqd
  have hcomp := hqd.reaches_run rfl hsd.idle (by rw [ht]) hcompress []
  rw [hqt.withAgenda_nil] at hcomp
  refine ⟨t, streamOf d.code bs, hbuild.trans (hderive.trans hcomp), hqt, ?_⟩
  rw [ht]
  exact ⟨rfl, rfl, htvd.trans htv, hsd.err.trans hsb.err, hfreq, rfl, by rw [hsd.sink, hsb.sink], hbuilt, hdec⟩

/-- Settles O51: the codes of the bytes decode to them on the tree they are derived from, and a second BUILD leaves that tree. -/
theorem roundTripReproducesTheInput : Obligations.RoundTripReproducesTheInput := by
  unfold Obligations.RoundTripReproducesTheInput
  intro s bs hb hready hout hin hne hlen hpos
  have hs : Quiet (withAgenda [] s) := ⟨rfl, hready, hout⟩
  obtain ⟨t, w, hrun, hq, hstop, hbt, htv, herr, hfreq, hcount, hsink, hbuilt, hdec⟩ := hs.exists_compressed hb hin hne hpos
  refine ⟨t, packedBytes w, hrun, hq.1, hbt, herr, hcount, hsink, fun again hagain => ?_⟩
  have hx : ∃ x, 0#32 < freqAt t.freq x := ⟨bs.head hne, hfreq ▸ hpos _ (List.head_mem hne)⟩
  have hagain' : HoldsBuiltTree { t with inPort := ⟨packedBytes w, true⟩ } := hbuilt
  obtain ⟨v, hv, htvv, hnode, hroot, hreach⟩ := hagain'.kept hq hstop hbt htv hx hagain
  have hbits : w <+: inputBits v.inPort.buf := by
    rw [hv.inPort]
    exact prefix_inputBits_packedBytes w
  have hdecv : DecodesTo v.node v.root w bs := by
    rw [hnode, hroot]
    exact hdec
  obtain ⟨u, hexpand, hagenda, hbu, herru, hsinku⟩ := (hv.quiet hq).exists_expanded hv.idle htvv hdecv hbits hlen
  have hgo := (hreach _).trans hexpand
  rw [← hcount, ← List.append_assoc] at hgo
  exact ⟨u, hgo, hagenda, hbu, herru.trans (hv.err.trans herr), by rw [hsinku, hv.sink]⟩

end Sys2Proof.Machine
end

