-- ==== Sys2Proof/Proofs/Exceptions.lean ====
section
/-! PROOF. Errors and the IRQ (spec/60_exceptions.md): the turn in which an error is raised (O11), a command whose precondition fails
(O17), and the IRQ line (O31). -/

namespace Sys2Proof.Machine

/-! ## The turn in which an error is raised (R213, R214) -/

/-- R214: the raise as a micro-step. -/
theorem failCommand_eq (c : Instr) (e : ErrCode) (s : State) : failCommand c e s = { s with
    status := { s.status with inwait := false, err := true }
    errcode := if s.status.err then s.errcode else e
    engine := some (c, .complete) } := by
  rw [failCommand, goTo, heldAtIn_false _ rfl]
  rfl

/-- R102, R213: an error completion of a command that ends the IN session. -/
theorem completeCommand_raiseError_of_endsSession {c : Instr} (hc : endsSession c = true) (e : ErrCode) (s : State) :
    completeCommand c (raiseError e s) = { s with
      status := { s.status with inwait := false, busy := false, done := true, err := true }
      errcode := if s.status.err then s.errcode else e
      engine := none
      inPort := ⟨[], false⟩
      reader.rbits := 0#4
      packer := ⟨0#8, 0#3⟩ } :=
  completeCommand_of_endsSession hc (raiseError e s)

/-- R102, R213: an error completion of any other command. -/
theorem completeCommand_raiseError_of_not_endsSession {c : Instr} (hc : endsSession c = false) (e : ErrCode) (s : State) :
    completeCommand c (raiseError e s) = { s with
      status := { s.status with inwait := false, busy := false, done := true, err := true }
      errcode := if s.status.err then s.errcode else e
      engine := none } :=
  completeCommand_of_not_endsSession hc (raiseError e s)

/-- R244: a move that names the engine is its turn, which does not read the agenda. -/
theorem step_engine {s : State} {rest : List Move} (ha : s.agenda = .engine :: rest) :
    step s = .next (withAgenda rest (engineTurn s)) := by
  rw [← engineTurn_withAgenda]
  exact step_of_settled (by rw [turn, ha]; rfl)

/-- Settles O11: the turn is the raise and the completion, and the stream commands are those that end the session. -/
theorem raisingAnErrorIsPrecise : Obligations.RaisingAnErrorIsPrecise := by
  unfold Obligations.RaisingAnErrorIsPrecise
  intro s c e he
  rw [engineStep_raising he, failCommand_eq, engineTurn_raising he]
  refine ⟨rfl, fun rest ha => ?_, fun hc => ?_, fun hc => ?_⟩
  · rw [step_engine ha, engineTurn_raising he]
    rfl
  · have hends : endsSession c = true := by obtain rfl | rfl | rfl := hc <;> rfl
    exact completeCommand_raiseError_of_endsSession hends e s
  · have hends : endsSession c = false := by obtain rfl | rfl | rfl | rfl := hc <;> rfl
    exact completeCommand_raiseError_of_not_endsSession hends e s

/-! ## Failed preconditions (R155, R166, R186, R212) -/

section
variable {s : State}

/-- R155: DERIVE needs a tree. -/
theorem deriveStart_of_no_tree (htv : s.status.tv = false) : deriveStart s = goTo .derive (.raising .noTree) s :=
  if_neg (by simp [htv])

/-- R166: COMPRESS needs a code table. -/
theorem compressStart_of_no_code (hcv : s.status.cv = false) : compressStart s = goTo .compress (.raising .noCode) s :=
  if_neg (by simp [hcv])

/-- R186: the walk needs a tree. -/
theorem walkStart_of_no_tree (c : Instr) (htv : s.status.tv = false) : walkStart c s = goTo c (.raising .noTree) s :=
  if_neg (by simp [htv])

/-- R166, R186: a stream command whose precondition fails comes to its error in its first micro-step, with nothing changed. -/
theorem startBody_of_failed_precondition {c : Instr} {e : ErrCode}
    (h : (c = .compress ∧ e = .noCode ∧ s.status.cv = false) ∨ ((c = .expand ∨ c = .expandx) ∧ e = .noTree ∧ s.status.tv = false)) :
    startBody c s = goTo c (.raising e) s := by
  obtain ⟨rfl, rfl, hcv⟩ | ⟨rfl | rfl, rfl, htv⟩ := h
  · exact compressStart_of_no_code hcv
  · exact walkStart_of_no_tree .expand htv
  · exact walkStart_of_no_tree .expandx htv

end

/-- Settles O17: the first micro-step comes to the error, and the second turn raises it and completes the command. -/
theorem failedPreconditionsChangeNothingElse : Obligations.FailedPreconditionsChangeNothingElse := by
  unfold Obligations.FailedPreconditionsChangeNothingElse
  refine fun s hb => ⟨fun htv => ?_, fun c e h => ?_⟩
  · have hstart : startBody .derive (acceptCommand .derive s) = goTo .derive (.raising .noTree) (acceptCommand .derive s) :=
      deriveStart_of_no_tree htv
    refine ⟨acceptCommand .derive s, 2, exec_accepted rfl hb, ?_⟩
    rw [engineRun_of_startBody_raising hstart, completeCommand_raiseError_of_not_endsSession rfl]
    rfl
  · have hends : endsSession c = true := by obtain ⟨rfl, -⟩ | ⟨rfl | rfl, -⟩ := h <;> rfl
    have hsets : setsBusy c = true := by obtain ⟨rfl, -⟩ | ⟨rfl | rfl, -⟩ := h <;> rfl
    have hstart := startBody_of_failed_precondition (s := acceptCommand c s) h
    refine ⟨acceptCommand c s, 2, exec_accepted hsets hb, ?_⟩
    rw [engineRun_of_startBody_raising hstart, completeCommand_raiseError_of_endsSession hends]
    rfl

/-! ## The IRQ line (R52, R217) -/

/-- R217: reset ends the IRQ. -/
@[simp] theorem irq_resetBlock (s : State) : irq (resetBlock s) = false := rfl

/-- R217: acceptance ends the DONE source of the IRQ. -/
@[simp] theorem irq_acceptCommand (c : Instr) (s : State) : irq (acceptCommand c s) = (s.status.err && s.ie.errIe) := by
  simp [irq]

/-- R217: completion raises the IRQ if DONE_IE is set; an enabled error holds it. -/
@[simp] theorem irq_completeCommand (c : Instr) (s : State) :
    irq (completeCommand c s) = (s.ie.doneIe || (s.status.err && s.ie.errIe)) := by
  simp [irq]

/-- Settles O31: each of the four events leaves DONE and ERR known, and none changes IE but SRST, which clears it. -/
theorem irqFollowsDoneAndErr : Obligations.IrqFollowsDoneAndErr := by
  unfold Obligations.IrqFollowsDoneAndErr
  refine fun s => ⟨⟨resetBlock s, rfl, irq_resetBlock s⟩, fun c hc hb => ?_, fun c he => ?_, fun c e he => ?_⟩
  · exact ⟨acceptCommand c s, exec_accepted hc hb, irq_acceptCommand c s⟩
  · exact ⟨completeCommand c s, engineStep_complete he, irq_completeCommand c s⟩
  · rw [engineTurn_raising he]
    simp

end Sys2Proof.Machine
end

