-- ==== Sys2Proof/Proofs/Reset.lean ====
section
/-! PROOF. The reset state (spec/70_reset_and_hazards.md R240): what the host reads in it (O14), and the invariants (O18). -/

namespace Sys2Proof.Machine

/-! ## The windows of cleared tables (R42, R45) -/

/-- R42: an entry that is not allocated reads 0 while no node is. -/
theorem nodeWord_of_clear {s : State} {n : NodeIdx} (w : BitVec 2) (hn : s.nnode = 0#10) (he : nodeAt s.node n = Node.zero) :
    nodeWord s n w = 0#32 := by
  unfold nodeWord
  dsimp only
  rw [he, hn]
  split
  · rfl
  · split
    · simp [Node.zero]
    · rfl
    · rfl
    · rfl

/-- R45: a symbol without a code reads 0. -/
theorem codeWord_of_clear {s : State} {x : Sym} (w : BitVec 4) (he : codeAt s.code x = Code.zero) : codeWord s x w = 0#32 := by
  unfold codeWord
  dsimp only
  rw [he]
  split
  · rfl
  · split
    · exact BitVec.extractLsb'_zero
    · rfl

/-! ## What a reset leaves (R240) -/

section
variable (s : State)

@[simp] theorem freqAt_resetBlock (x : Sym) : freqAt (resetBlock s).freq x = 0#32 := freqAt_clearedFreqs x

@[simp] theorem nodeAt_resetBlock (n : NodeIdx) : nodeAt (resetBlock s).node n = Node.zero := nodeAt_clearedNodes n

@[simp] theorem codeAt_resetBlock (x : Sym) : codeAt (resetBlock s).code x = Code.zero := codeAt_clearedCodes x

/-- R240: ID keeps its constant, and every other word of the port is 0. -/
theorem portValue_resetBlock (r : PortReg) : portValue (resetBlock s) r = if r = .id then 0x48554646#32 else 0#32 := by
  cases r with
  | status => exact (show statusWord State.reset.status = 0#32 by decide)
  | errcode => exact (show errcodeWord State.reset.errcode = 0#32 by decide)
  | ie => exact (show ieWord State.reset.ie = 0#32 by decide)
  | bitcntHi => exact BitVec.extractLsb'_zero
  | freq x => exact freqAt_resetBlock s x
  | node n w => exact nodeWord_of_clear w rfl (nodeAt_resetBlock s n)
  | code x w => exact codeWord_of_clear w (codeAt_resetBlock s x)
  | _ => rfl

end

/-- A state that a reset has left does not change in the next one. -/
theorem resetBlock_reset : resetBlock State.reset = State.reset := rfl

/-- Settles O14: the reset input and SRST are one operation, and it leaves every register as the model's reset state has it. -/
theorem resetStateIsAsSpecified : Obligations.ResetStateIsAsSpecified := by
  unfold Obligations.ResetStateIsAsSpecified
  refine ⟨fun s => ⟨resetBlock s, rfl, rfl⟩, fun s rest ha => step_of_settled (turn_host ha), fun t ht => ?_⟩
  obtain ⟨s, rfl⟩ : ∃ s, t = resetBlock s := by
    obtain rfl | ⟨s, hs⟩ := ht
    · exact ⟨State.reset, resetBlock_reset.symm⟩
    · exact ⟨s, (Host.Outcome.next.inj hs).symm⟩
  exact ⟨portValue_resetBlock s, freqAt_resetBlock s, nodeAt_resetBlock s, codeAt_resetBlock s, rfl, rfl, rfl, rfl, rfl, rfl,
    irq_resetBlock s⟩

/-- Settles O18: the reset state is what a reset leaves of it, and any reset establishes the invariants. -/
theorem resetMeetsTheInvariants : Obligations.ResetMeetsTheInvariants := by
  unfold Obligations.ResetMeetsTheInvariants
  exact ⟨lifecycleInv_resetBlock State.reset, treeInv_resetBlock State.reset, codeInv_resetBlock State.reset⟩

end Sys2Proof.Machine
end

