-- ==== Sys2Proof/Proofs/Hazards.lean ====
section
/-! PROOF. When the engine is held, and what lifts a hold (spec/70_reset_and_hazards.md R247, O22). -/

namespace Sys2Proof.Machine

/-! ## The places that may hold the engine (R247) -/

/-- R165, R170: COMPRESS is held at its IN read while INBUF is empty and IN is open. -/
theorem compressRead_eq_none_iff (c : Instr) (s : State) :
    compressRead c s = none ↔ heldAtIn .compressRead s.reader s.inPort = true := by
  unfold compressRead
  split
  · rename_i hbuf
    split <;> simp_all [heldAtIn, readsIn]
  · rename_i hbuf
    simp [heldAtIn, hbuf]

/-- R78, R185: so is the walk, if its reader holds no bit. -/
theorem walkRead_eq_none_iff (c : Instr) (s : State) : walkRead c s = none ↔ heldAtIn .walkRead s.reader s.inPort = true := by
  unfold walkRead
  split
  · split
    · split <;> simp_all [heldAtIn, readsIn]
    · rename_i hbuf
      simp [heldAtIn, hbuf]
  · rename_i hr
    simp [heldAtIn, readsIn, hr]

/-- R80: COMPRESS is held while a full byte is on OUT. -/
theorem compressPackOut_eq_none_iff (c : Instr) (b : Byte) (i : BitVec 8) (s : State) :
    compressPackOut c b i s = none ↔ s.outPend.isSome = true := by
  unfold compressPackOut
  split <;> simp_all

/-- R80: COMPRESS is held while the flushed byte is on OUT. -/
theorem compressFlushOut_eq_none_iff (c : Instr) (s : State) : compressFlushOut c s = none ↔ s.outPend.isSome = true := by
  unfold compressFlushOut
  split <;> simp_all

/-- R187: the walk is held while a symbol is on OUT. -/
theorem walkOut_eq_none_iff (c : Instr) (s : State) : walkOut c s = none ↔ s.outPend.isSome = true := by
  unfold walkOut
  split <;> simp_all

/-- R247: what a running engine waits for: a byte or the end of IN at an IN read, or the sink at a place that offers a byte. -/
theorem engineStep_eq_none_iff {s : State} {c : Instr} {p : Point} (he : s.engine = some (c, p)) :
    engineStep s = none ↔ heldAtIn p s.reader s.inPort = true ∨ (mayOffer p = true ∧ s.outPend.isSome = true) := by
  cases p with
  | start => simp [engineStep_start he, heldAtIn, readsIn, mayOffer]
  | buildLoop => simp [engineStep_buildLoop he, heldAtIn, readsIn, mayOffer]
  | deriveVisit v => simp [engineStep_deriveVisit he, heldAtIn, readsIn, mayOffer]
  | deriveDone => simp [engineStep_deriveDone he, heldAtIn, readsIn, mayOffer]
  | compressRead => simp [engineStep_compressRead he, compressRead_eq_none_iff, mayOffer]
  | compressPack b i => simp [engineStep_compressPack he, heldAtIn, readsIn, mayOffer]
  | compressPackOut b i => simp [engineStep_compressPackOut he, compressPackOut_eq_none_iff, heldAtIn, readsIn, mayOffer]
  | compressFlush => simp [engineStep_compressFlush he, heldAtIn, readsIn, mayOffer]
  | compressFlushOut => simp [engineStep_compressFlushOut he, compressFlushOut_eq_none_iff, heldAtIn, readsIn, mayOffer]
  | walkTop => simp [engineStep_walkTop he, heldAtIn, readsIn, mayOffer]
  | walkRead => simp [engineStep_walkRead he, walkRead_eq_none_iff, mayOffer]
  | walkOut => simp [engineStep_walkOut he, walkOut_eq_none_iff, heldAtIn, readsIn, mayOffer]
  | raising e => simp [engineStep_raising he, heldAtIn, readsIn, mayOffer]
  | complete => simp [engineStep_complete he, heldAtIn, readsIn, mayOffer]

/-- R247: no place both reads IN and offers a byte. -/
theorem mayOffer_of_heldAtIn {p : Point} {r : BitReader} {i : InPort} (h : heldAtIn p r i = true) : mayOffer p = false := by
  cases p with
  | compressPackOut | compressFlushOut | walkOut => simp [heldAtIn, readsIn] at h
  | _ => rfl

/-- R31: a hold at an IN read is at an empty, open IN. -/
theorem inPort_of_heldAtIn {p : Point} {r : BitReader} {i : InPort} (h : heldAtIn p r i = true) : i = ⟨[], false⟩ := by
  simp only [heldAtIn, Bool.and_eq_true, List.isEmpty_iff, Bool.not_eq_true'] at h
  obtain ⟨⟨-, hbuf⟩, hopen⟩ := h
  rw [← hbuf, ← hopen]

/-- R248: an engine that is held stays where it is for as long as the host does nothing. -/
theorem engineRun_of_held {s : State} (h : engineStep s = none) (k : Nat) : engineRun k s = s := by
  induction k with
  | zero => rfl
  | succ k ih => rw [engineRun_succ, engineTurn_of_none h, ih]

/-! ## The holds of a state that meets the lifecycle invariant -/

section
variable {s : State} (hs : LifecycleInv s)
include hs

/-- R31: INWAIT = 1 says where a running engine is held. -/
theorem LifecycleInv.exists_heldAtIn (h : s.status.inwait = true) :
    ∃ c p, s.engine = some (c, p) ∧ heldAtIn p s.reader s.inPort = true := by
  rw [hs.inwait] at h
  obtain ⟨⟨c, p⟩, he, hp⟩ := (Option.any_eq_true _ _).mp h
  exact ⟨c, p, he, hp⟩

/-- R79: a byte on OUT says where a running engine is held. -/
theorem LifecycleInv.exists_mayOffer (h : s.outPend.isSome = true) : ∃ c p, s.engine = some (c, p) ∧ mayOffer p = true := by
  obtain ⟨⟨c, p⟩, he, hp⟩ := (Option.any_eq_true _ _).mp (hs.out h)
  exact ⟨c, p, he, hp⟩

/-- R247: idle, held at IN, or held at OUT. -/
theorem LifecycleInv.engineStep_eq_none_iff :
    Machine.engineStep s = none ↔ s.status.busy = false ∨ s.status.inwait = true ∨ s.outPend.isSome = true := by
  constructor
  · intro h
    match he : s.engine with
    | none => exact .inl (by rw [hs.busy, he]; rfl)
    | some (c, p) =>
      obtain hin | ⟨-, hout⟩ := (Machine.engineStep_eq_none_iff he).mp h
      · exact .inr (.inl (by rw [hs.inwait, he]; exact hin))
      · exact .inr (.inr hout)
  · rintro (hidle | hin | hout)
    · exact engineStep_idle (hs.idle hidle)
    · exact hs.held_of_inwait hin
    · obtain ⟨c, p, he, hp⟩ := hs.exists_mayOffer hout
      exact (Machine.engineStep_eq_none_iff he).mpr (.inr ⟨hp, hout⟩)

/-- R31, R247: any change of IN that leaves it not both empty and open lifts the hold at IN. -/
theorem LifecycleInv.isSome_engineStep_of_inPort (h : s.status.inwait = true) {t : State} (he : t.engine = s.engine)
    (ht : t.inPort ≠ ⟨[], false⟩) : (Machine.engineStep t).isSome = true := by
  obtain ⟨c, p, hp, hheld⟩ := hs.exists_heldAtIn h
  rw [Option.isSome_iff_ne_none, Ne, Machine.engineStep_eq_none_iff (he.trans hp), mayOffer_of_heldAtIn hheld]
  rintro (hin | ⟨hoff, -⟩)
  · exact ht (inPort_of_heldAtIn hin)
  · simp at hoff

/-- R79, R247: once the sink has the byte, the engine goes on. -/
theorem LifecycleInv.isSome_engineStep_acceptOut (h : s.outPend.isSome = true) (v : Byte) :
    (Machine.engineStep (Machine.acceptOut v s)).isSome = true := by
  obtain ⟨c, p, hp, hoff⟩ := hs.exists_mayOffer h
  rw [Option.isSome_iff_ne_none, Ne, Machine.engineStep_eq_none_iff (s := Machine.acceptOut v s) hp]
  rintro (hin | ⟨-, hout⟩)
  · simp [mayOffer_of_heldAtIn hin] at hoff
  · simp at hout

end

/-- Settles O22: what a place waits for is read off the place, and INWAIT and OUTPEND say it by the invariant; a Push, a Close or an
acceptance ends what is waited for. -/
theorem engineIsHeldOnlyAtTheStreams : Obligations.EngineIsHeldOnlyAtTheStreams := by
  unfold Obligations.EngineIsHeldOnlyAtTheStreams
  intro s hs
  refine ⟨hs.engineStep_eq_none_iff, engineRun_of_held, fun hin => ⟨?_, fun b => ?_, ?_⟩, fun v hv => ?_⟩
  · obtain ⟨c, p, -, hheld⟩ := hs.exists_heldAtIn hin
    exact inPort_of_heldAtIn hheld
  · exact hs.isSome_engineStep_of_inPort hin rfl (by simp)
  · exact hs.isSome_engineStep_of_inPort hin rfl (by simp)
  · exact hs.isSome_engineStep_acceptOut (by simp [hv]) v

end Sys2Proof.Machine
end

