-- ==== Sys2Proof/Proofs/Completion.lean ====
section
/-! PROOF. With a sink that is always ready and a closed IN every command completes (spec/70_reset_and_hazards.md R256, O53): a
bound on the turns a running command still needs goes down in every one of them. -/

namespace Sys2Proof.Machine

/-! ## A bound on the turns left -/

/-- The bits the walk can still take: those of INBUF and those in the reader (R78). -/
def bitsLeft (s : State) : Nat := 8 * s.inPort.buf.length + s.reader.rbits.toNat

/-- A bound on the visits the pending ones lead to: a child's index is below its parent's (R43), so `3 ^ n` visits are enough for
the subtree of node `n`. -/
def visitTurns (pending : List Visit) : Nat := (pending.map fun v => 3 ^ v.node.toNat).sum

/-- A bound on the turns COMPRESS needs from its loop on. A byte's code has at most 255 bits (R44), and a bit takes at most three
turns: it is packed, the sink takes the byte it fills, and the engine goes on. -/
def readTurns (s : State) : Nat := (3 * 255 + 4) * s.inPort.buf.length + 5

/-- A bound on the turns a body needs from a place on, with IN closed and no byte on OUT. The start allows for DERIVE on the whole
tree, for the input, and for BUILD's at most 256 leaves (R37). -/
def turnsAt (s : State) : Point → Nat
  | .start => visitTurns [⟨s.root, 0#8, 0#256⟩] + readTurns s + 300
  | .buildLoop => s.forest.length + 2
  | .deriveVisit v => visitTurns (v :: s.stack) + 2
  | .deriveDone => 2
  | .compressRead => readTurns s
  | .compressPack b i => readTurns s + 3 * ((codeAt s.code b).clen.toNat - i.toNat) + 3
  | .compressPackOut b i => readTurns s + 3 * ((codeAt s.code b).clen.toNat - i.toNat) + 1
  | .compressFlush => 4
  | .compressFlushOut => 2
  | .walkTop => 5 * bitsLeft s + if s.walk.depth = 0#8 then 4 else 7
  | .walkRead => 5 * bitsLeft s + 3
  | .walkOut => 5 * bitsLeft s + 5
  | .raising _ => 2
  | .complete => 1

/-- A bound on the turns until BUSY = 0: those of the body, and the sink's for a byte on OUT. -/
def turnsLeft (s : State) : Nat :=
  match s.engine with
  | none => 0
  | some (_, p) => turnsAt s p + s.outPend.isSome.toNat

theorem turnsLeft_idle {s : State} (h : s.engine = none) : turnsLeft s = 0 := by simp only [turnsLeft, h]

theorem turnsLeft_running {s : State} {c : Instr} {p : Point} (h : s.engine = some (c, p)) :
    turnsLeft s = turnsAt s p + s.outPend.isSome.toNat := by simp only [turnsLeft, h]

theorem turnsLeft_goTo (c : Instr) (p : Point) (s : State) : turnsLeft (goTo c p s) = turnsAt s p + s.outPend.isSome.toNat := by
  rw [turnsLeft_running (goTo_engine c p s)]
  cases p <;> rfl

theorem turnsAt_offerOut (v : Byte) (s : State) (p : Point) : turnsAt (offerOut v s) p = turnsAt s p := by
  cases p <;> rfl

theorem turnsAt_acceptOut (v : Byte) (s : State) (p : Point) : turnsAt (acceptOut v s) p = turnsAt s p := by
  cases p <;> rfl

/-- A micro-step that offers no byte comes nearer to the end if the place it goes on to is nearer. -/
theorem turnsLeft_goTo_lt {c : Instr} {p : Point} {u : State} {n : Nat} (h : turnsAt u p < n) (ho : u.outPend = none) :
    turnsLeft (goTo c p u) < n := by
  rw [turnsLeft_goTo, ho]
  exact h

/-- A micro-step that offers a byte leaves the sink's turn too. -/
theorem turnsLeft_offer_lt {c : Instr} {p : Point} {v : Byte} {u : State} {n : Nat} (h : turnsAt u p + 1 < n) :
    turnsLeft (goTo c p (offerOut v u)) < n := by
  rw [turnsLeft_goTo, turnsAt_offerOut]
  exact h

/-! ## The subtrees that wait (R43, R152) -/

theorem visitTurns_cons (v : Visit) (pending : List Visit) : visitTurns (v :: pending) = 3 ^ v.node.toNat + visitTurns pending := by
  simp [visitTurns]

/-- R41: an Internal node is allocated. -/
theorem ArenaInv.allocated_of_internal {s : State} {roots : List NodeIdx} (h : ArenaInv s roots) {n : NodeIdx}
    (hk : (nodeAt s.node n).kind = .internal) : n.toNat < s.nnode.toNat := by
  by_contra hge
  have hfree : nodeAt s.node n = Node.zero := by
    by_cases hn : n = 511#9
    · rw [hn, nodeAt_unused]
    · rw [← nodeNo_toNat]
      exact h.free n.toNat (by bv_omega) (by omega)
  simp [hfree, Node.zero] at hk

/-- R43 (a): the two subtrees of an Internal node take fewer visits than its own. -/
theorem ArenaInv.three_pow_children {s : State} {roots : List NodeIdx} (h : ArenaInv s roots) {n : NodeIdx}
    (hk : (nodeAt s.node n).kind = .internal) :
    3 ^ (nodeAt s.node n).left.toNat + 3 ^ (nodeAt s.node n).right.toNat < 3 ^ n.toNat := by
  have hchild (b : Bool) : 3 * 3 ^ (childOf (nodeAt s.node n) b).toNat ≤ 3 ^ n.toNat := by
    rw [← pow_succ']
    exact Nat.pow_le_pow_right (by omega) (h.childOf_lt (h.allocated_of_internal hk) hk b)
  have hl : 3 * 3 ^ (nodeAt s.node n).left.toNat ≤ 3 ^ n.toNat := hchild false
  have hr : 3 * 3 ^ (nodeAt s.node n).right.toNat ≤ 3 ^ n.toNat := hchild true
  have := Nat.pow_pos (n := n.toNat) (show 0 < 3 by omega)
  omega

section
variable {s : State} (ho : s.outPend = none)
include ho

/-! ## BUILD (R141) -/

theorem turnsLeft_buildStart : turnsLeft (buildStart s) < turnsAt s .start := by
  have hl := length_presentSymbols_le s.freq
  unfold buildStart
  dsimp only
  split
  · exact turnsLeft_goTo_lt (by simp only [turnsAt]; omega) ho
  · exact turnsLeft_goTo_lt (by simp only [turnsAt, initialForest, List.length_map, List.length_range]; omega) ho

/-- R138: each merge takes one entry out of the forest. -/
theorem turnsLeft_buildLoop (c : Instr) : turnsLeft (buildLoop c s) < turnsAt s .buildLoop := by
  unfold buildLoop
  split
  · have := length_forest_mergeStep ‹_›
    exact turnsLeft_goTo_lt (by simp only [turnsAt]; omega) ho
  · exact turnsLeft_goTo_lt (by simp only [turnsAt]; omega) ho

/-! ## DERIVE (R152) -/

theorem turnsLeft_deriveStart : turnsLeft (deriveStart s) < turnsAt s .start := by
  unfold deriveStart
  dsimp only
  split
  · split
    · exact turnsLeft_goTo_lt (by simp only [turnsAt]; omega) ho
    · exact turnsLeft_goTo_lt (by simp only [turnsAt]; omega) ho
  · exact turnsLeft_goTo_lt (by simp only [turnsAt]; omega) ho

theorem turnsLeft_nextVisit (c : Instr) (code : Vector Code 256) :
    turnsLeft (nextVisit c { s with code := code }) < visitTurns s.stack + 3 := by
  unfold nextVisit
  split
  · exact turnsLeft_goTo_lt (by simp only [turnsAt]; omega) ho
  · rename_i hst
    change s.stack = _ at hst
    rw [hst]
    exact turnsLeft_goTo_lt (by simp only [turnsAt]; omega) ho

/-- R152: a Leaf's visit is over; an Internal node's goes on with two nodes of smaller index. -/
theorem turnsLeft_deriveVisit (c : Instr) (v : Visit) (ha : ArenaInv s [s.root]) :
    turnsLeft (deriveVisit c v s) < turnsAt s (.deriveVisit v) := by
  unfold deriveVisit
  dsimp only
  split
  · refine (turnsLeft_nextVisit ho c _).trans_le ?_
    have := Nat.pow_pos (n := v.node.toNat) (show 0 < 3 by omega)
    simp only [turnsAt, visitTurns_cons]
    omega
  · have := ha.three_pow_children ‹_›
    exact turnsLeft_goTo_lt (by simp only [turnsAt, visitTurns_cons]; omega) ho

theorem turnsLeft_deriveDone (c : Instr) : turnsLeft (deriveDone c s) < turnsAt s .deriveDone :=
  turnsLeft_goTo_lt (by simp only [turnsAt]; omega) ho

/-! ## COMPRESS (R165 to R168) -/

theorem turnsLeft_compressStart : turnsLeft (compressStart s) < turnsAt s .start := by
  unfold compressStart
  split
  · exact turnsLeft_goTo_lt (by simp only [turnsAt, readTurns]; omega) ho
  · exact turnsLeft_goTo_lt (by simp only [turnsAt]; omega) ho

/-- R165: a byte taken from INBUF leads to at most 255 bits, and a closed IN to the flush. -/
theorem turnsLeft_compressRead {t : State} {c : Instr} (h : compressRead c s = some t) : turnsLeft t < turnsAt s .compressRead := by
  unfold compressRead at h
  split at h
  · split at h
    · rw [← Option.some.inj h]
      exact turnsLeft_goTo_lt (by simp only [turnsAt, readTurns]; omega) ho
    · simp at h
  · rename_i b rest hbuf
    have hlen := (codeAt s.code b).clen.isLt
    rw [← Option.some.inj h]
    dsimp only
    split
    · exact turnsLeft_goTo_lt (by simp only [turnsAt, readTurns, hbuf, List.length_cons]; omega) ho
    · exact turnsLeft_goTo_lt (by simp only [turnsAt, readTurns, hbuf, List.length_cons]; omega) ho

/-- R165: a bit packed is one bit less, or the end of the byte. -/
theorem turnsLeft_bitPacked (c : Instr) (b : Byte) (i : BitVec 8) (pk : Packer) :
    turnsLeft (bitPacked c b i { s with packer := pk }) < turnsAt s (.compressPackOut b i) := by
  unfold bitPacked
  dsimp only
  split
  · have hnext : (i + 1#8).toNat = i.toNat + 1 := by bv_omega
    exact turnsLeft_goTo_lt (by simp only [turnsAt, readTurns, hnext]; omega) ho
  · exact turnsLeft_goTo_lt (by simp only [turnsAt, readTurns]; omega) ho

theorem turnsLeft_compressPack (c : Instr) (b : Byte) (i : BitVec 8) :
    turnsLeft (compressPack c b i s) < turnsAt s (.compressPack b i) := by
  unfold compressPack
  dsimp only
  split
  · exact turnsLeft_offer_lt (by simp only [turnsAt, readTurns]; omega)
  · exact (turnsLeft_bitPacked ho c b i _).trans (by simp only [turnsAt]; omega)

theorem turnsLeft_compressPackOut {t : State} {c : Instr} {b : Byte} {i : BitVec 8} (h : compressPackOut c b i s = some t) :
    turnsLeft t < turnsAt s (.compressPackOut b i) := by
  unfold compressPackOut at h
  split at h
  · simp at h
  · rw [← Option.some.inj h]
    exact turnsLeft_bitPacked ho c b i _

theorem turnsLeft_compressFlush (c : Instr) : turnsLeft (compressFlush c s) < turnsAt s .compressFlush := by
  unfold compressFlush
  split
  · exact turnsLeft_goTo_lt (by simp only [turnsAt]; omega) ho
  · exact turnsLeft_offer_lt (by simp only [turnsAt]; omega)

theorem turnsLeft_compressFlushOut {t : State} {c : Instr} (h : compressFlushOut c s = some t) :
    turnsLeft t < turnsAt s .compressFlushOut := by
  unfold compressFlushOut at h
  split at h
  · simp at h
  · rw [← Option.some.inj h]
    exact turnsLeft_goTo_lt (by simp only [turnsAt]; omega) ho

/-! ## The walk (R185 to R196) -/

/-- R185: the walk begins with an empty reader. -/
theorem turnsLeft_walkStart (c : Instr) : turnsLeft (walkStart c s) < turnsAt s .start := by
  unfold walkStart
  split
  · exact turnsLeft_goTo_lt (by simp only [turnsAt, bitsLeft, readTurns, BitVec.toNat_ofNat, if_true]; omega) ho
  · exact turnsLeft_goTo_lt (by simp only [turnsAt]; omega) ho

/-- R187: only a walk that has taken a bit since its last symbol offers one. -/
theorem turnsLeft_walkTop (c : Instr) : turnsLeft (walkTop c s) < turnsAt s .walkTop := by
  unfold walkTop
  dsimp only
  split
  · rename_i hleaf
    exact turnsLeft_offer_lt (by simp only [turnsAt, if_neg hleaf.1]; exact Nat.lt_succ_self _)
  · have hmore : 5 * bitsLeft s + 4 ≤ turnsAt s .walkTop := by
      simp only [turnsAt]
      split <;> omega
    split
    · exact turnsLeft_goTo_lt (by simp only [turnsAt] at hmore ⊢; omega) ho
    · exact turnsLeft_goTo_lt (by simp only [turnsAt] at hmore ⊢; omega) ho

/-- R187: after a symbol the walk is at the root, with no bit taken. -/
theorem turnsLeft_walkOut {t : State} {c : Instr} (h : walkOut c s = some t) : turnsLeft t < turnsAt s .walkOut := by
  rw [walkOut_accepted c ho, Option.some.injEq] at h
  exact h ▸ turnsLeft_goTo_lt (by simp [turnsAt, bitsLeft]) ho

theorem turnsLeft_walkExhausted (c : Instr) : turnsLeft (walkExhausted c s) < turnsAt s .walkRead := by
  unfold walkExhausted
  split
  · exact turnsLeft_goTo_lt (by simp only [turnsAt]; omega) ho
  · exact turnsLeft_goTo_lt (by simp only [turnsAt]; omega) ho

/-- R188, R189: the move on a bit goes back to the head of the loop, or ends the walk. -/
theorem turnsLeft_walkBit (c : Instr) (bit : Bool) (r : BitReader) (n : BitVec 64) :
    turnsLeft (walkBit c bit { s with reader := r, bitcnt := n }) < 5 * (8 * s.inPort.buf.length + r.rbits.toNat) + 8 := by
  unfold walkBit
  dsimp only
  split
  · split
    · exact turnsLeft_goTo_lt (by simp only [turnsAt]; omega) ho
    · exact turnsLeft_goTo_lt (by simp [turnsAt, bitsLeft]) ho
  · exact turnsLeft_goTo_lt (by simp only [turnsAt, bitsLeft]; split <;> omega) ho

/-- R78: the reader gives up a bit. -/
theorem turnsLeft_takeBit (c : Instr) {r : BitReader} (buf : List Byte) (hr : r.rbits ≠ 0#4) :
    turnsLeft (takeBit c r { s with inPort.buf := buf }) < 5 * (8 * buf.length + r.rbits.toNat) + 3 := by
  have hk : (r.rbits - 1#4).toNat + 1 = r.rbits.toNat := by bv_omega
  refine (turnsLeft_walkBit (s := { s with inPort.buf := buf }) ho c _ _ _).trans_le ?_
  dsimp only
  omega

theorem turnsLeft_walkRead {t : State} {c : Instr} (h : walkRead c s = some t) : turnsLeft t < turnsAt s .walkRead := by
  unfold walkRead at h
  split at h
  · rename_i hr
    split at h
    · split at h
      · exact Option.some.inj h ▸ turnsLeft_walkExhausted ho c
      · simp at h
    · rename_i b rest hbuf
      rw [← Option.some.inj h]
      refine (turnsLeft_takeBit ho c (r := ⟨b, 8#4⟩) rest (by decide : (8#4) ≠ 0#4)).trans_le ?_
      simp only [turnsAt, bitsLeft, hbuf, List.length_cons, BitVec.toNat_ofNat]
      omega
  · exact Option.some.inj h ▸ turnsLeft_takeBit ho c s.inPort.buf ‹_›

theorem turnsLeft_startBody (c : Instr) : turnsLeft (startBody c s) < turnsAt s .start := by
  cases c with
  | nop | srst | ack | fclr => exact turnsLeft_goTo_lt (by simp only [turnsAt]; omega) ho
  | build => exact turnsLeft_buildStart ho
  | derive => exact turnsLeft_deriveStart ho
  | compress => exact turnsLeft_compressStart ho
  | expand | expandx => exact turnsLeft_walkStart ho _

end

/-! ## The micro-step -/

/-- R102: a completed command needs no turn. -/
theorem turnsLeft_completeCommand (c : Instr) (s : State) : turnsLeft (completeCommand c s) = 0 := turnsLeft_idle (by simp)

/-- R245: each micro-step comes nearer to the completion. -/
theorem turnsLeft_engineStep {s t : State} (hs : LifecycleInv s) (htree : TreeInv s) (h : engineStep s = some t) :
    turnsLeft t < turnsLeft s := by
  have ho := hs.no_out_of_engineStep h
  match he : s.engine with
  | none => simp [engineStep_idle he] at h
  | some (c, p) =>
    have hp : turnsLeft s = turnsAt s p := by rw [turnsLeft_running he, ho]; rfl
    rw [hp]
    cases p with
    | start => rw [engineStep_start he, Option.some.injEq] at h; exact h ▸ turnsLeft_startBody ho c
    | buildLoop => rw [engineStep_buildLoop he, Option.some.injEq] at h; exact h ▸ turnsLeft_buildLoop ho c
    | deriveVisit v =>
      have hv := hs.valid_at he
      simp only [validAt, Bool.and_eq_true] at hv
      rw [engineStep_deriveVisit he, Option.some.injEq] at h
      exact h ▸ turnsLeft_deriveVisit ho c v (htree.tree hv.1)
    | deriveDone => rw [engineStep_deriveDone he, Option.some.injEq] at h; exact h ▸ turnsLeft_deriveDone ho c
    | compressRead => rw [engineStep_compressRead he] at h; exact turnsLeft_compressRead ho h
    | compressPack b i => rw [engineStep_compressPack he, Option.some.injEq] at h; exact h ▸ turnsLeft_compressPack ho c b i
    | compressPackOut b i => rw [engineStep_compressPackOut he] at h; exact turnsLeft_compressPackOut ho h
    | compressFlush => rw [engineStep_compressFlush he, Option.some.injEq] at h; exact h ▸ turnsLeft_compressFlush ho c
    | compressFlushOut => rw [engineStep_compressFlushOut he] at h; exact turnsLeft_compressFlushOut ho h
    | walkTop => rw [engineStep_walkTop he, Option.some.injEq] at h; exact h ▸ turnsLeft_walkTop ho c
    | walkRead => rw [engineStep_walkRead he] at h; exact turnsLeft_walkRead ho h
    | walkOut => rw [engineStep_walkOut he] at h; exact turnsLeft_walkOut ho h
    | raising e =>
      rw [engineStep_raising he, Option.some.injEq] at h
      exact h ▸ turnsLeft_goTo_lt (by simp only [turnsAt]; omega) ho
    | complete =>
      rw [engineStep_complete he, Option.some.injEq] at h
      rw [← h, turnsLeft_completeCommand]
      exact Nat.one_pos

/-! ## IN stays closed (R76, R81) -/

theorem compressRead_closed {c : Instr} {s t : State} (h : compressRead c s = some t) : t.inPort.closed = s.inPort.closed := by
  unfold compressRead at h
  split at h
  · split at h
    · rw [← Option.some.inj h, goTo_inPort]
    · simp at h
  · rw [← Option.some.inj h]
    dsimp only
    split <;> rfl

theorem walkRead_closed {c : Instr} {s t : State} (h : walkRead c s = some t) : t.inPort.closed = s.inPort.closed := by
  unfold walkRead at h
  split at h
  · split at h
    · split at h
      · rw [← Option.some.inj h, walkExhausted_inPort]
      · simp at h
    · rw [← Option.some.inj h, takeBit_inPort]
  · rw [← Option.some.inj h, takeBit_inPort]

/-- IN is closed while a command runs. -/
def RunsClosed (s : State) : Prop := s.status.busy = true → s.inPort.closed = true

/-- R81: only a completion opens IN again. -/
theorem RunsClosed.engineStep {s t : State} (hs : RunsClosed s) (hlife : LifecycleInv s) (h : engineStep s = some t) :
    RunsClosed t := by
  match he : s.engine with
  | none => simp [engineStep_idle he] at h
  | some (c, p) =>
    have hclosed := hs (hlife.busy_of_engine he)
    intro hb
    cases p with
    | compressRead => rw [engineStep_compressRead he] at h; rw [compressRead_closed h, hclosed]
    | walkRead => rw [engineStep_walkRead he] at h; rw [walkRead_closed h, hclosed]
    | compressPackOut b i => rw [engineStep_compressPackOut he] at h; rw [compressPackOut_inPort h, hclosed]
    | compressFlushOut => rw [engineStep_compressFlushOut he] at h; rw [compressFlushOut_inPort h, hclosed]
    | walkOut => rw [engineStep_walkOut he] at h; rw [walkOut_inPort h, hclosed]
    | complete =>
      rw [engineStep_complete he, Option.some.injEq] at h
      simp [← h] at hb
    | _ =>
      simp only [Machine.engineStep, he, Option.some.injEq] at h
      simpa [← h] using hclosed

/-! ## The run -/

/-- What the run to the completion keeps: the invariants, a silent host whose sink is ready, and a closed IN. -/
structure Draining (s : State) : Prop where
  lifecycle : LifecycleInv s
  tree : TreeInv s
  silent : s.agenda = []
  ready : s.sinkReady = true
  closed : RunsClosed s

theorem Draining.restTurn {s : State} (h : Draining s) : Draining (restTurn s) where
  lifecycle := everyStepKeepsTheLifecycle _ _ h.lifecycle (step_of_no_agenda h.silent)
  tree := everyStepKeepsTheTree _ _ h.lifecycle h.tree (step_of_no_agenda h.silent)
  silent := (restTurn_agenda s).trans h.silent
  ready := (restTurn_sinkReady s).trans h.ready
  closed := by
    rw [Machine.restTurn, if_pos h.ready]
    split
    · exact h.closed
    · refine (engineTurn_keeps (P := fun u => LifecycleInv u ∧ RunsClosed u) ?_ s ⟨h.lifecycle, h.closed⟩).2
      rintro u v ⟨hlife, hclosed⟩ hv
      exact ⟨hlife.engineStep hv, hclosed.engineStep hlife hv⟩

/-- R247, R256: the sink takes a byte that is offered; else the engine is held nowhere, because IN is closed. -/
theorem Draining.turnsLeft_restTurn {s : State} (h : Draining s) (hb : s.status.busy = true) :
    turnsLeft (Machine.restTurn s) < turnsLeft s := by
  rw [Machine.restTurn, if_pos h.ready]
  split
  · rename_i v hv
    obtain ⟨c, p, he, -⟩ := h.lifecycle.exists_mayOffer (by simp [hv])
    rw [turnsLeft_running (s := acceptOut v s) he, turnsLeft_running he, turnsAt_acceptOut, hv]
    exact Nat.lt_succ_self _
  · rename_i ho
    obtain ⟨hnone, -⟩ | ⟨-, hstep⟩ | ⟨c, e, he, hturn⟩ := engineTurn_cases s
    · obtain hidle | hin | hout := h.lifecycle.engineStep_eq_none_iff.mp hnone
      · simp [hb] at hidle
      · obtain ⟨c, p, -, hheld⟩ := h.lifecycle.exists_heldAtIn hin
        simpa [inPort_of_heldAtIn hheld] using h.closed hb
      · simp [ho] at hout
    · exact turnsLeft_engineStep h.lifecycle h.tree hstep
    · rw [hturn, turnsLeft_completeCommand, turnsLeft_running he]
      exact Nat.add_pos_left Nat.two_pos _

/-- R256: every turn comes nearer to the completion, until BUSY = 0. -/
theorem Draining.reaches_idle {s : State} (h : Draining s) : ∃ t, Reaches s t ∧ t.status.busy = false := by
  induction hn : turnsLeft s using Nat.strong_induction_on generalizing s with
  | _ n ih =>
    subst hn
    cases hb : s.status.busy with
    | false => exact ⟨s, .refl s, hb⟩
    | true =>
      obtain ⟨t, ht, hidle⟩ := ih _ (h.turnsLeft_restTurn hb) h.restTurn rfl
      exact ⟨t, .head (step_of_no_agenda h.silent) ht, hidle⟩

/-- Settles O53: by induction on the bound of the turns left. -/
theorem everyCommandCompletes : Obligations.EveryCommandCompletes := by
  unfold Obligations.EveryCommandCompletes
  exact fun s hlife htree ha hr hc => Draining.reaches_idle ⟨hlife, htree, ha, hr, fun _ => hc⟩

end Sys2Proof.Machine
end
